-- ==== Sys2Proof/Word.lean ====
section
/-! DEFINITION. The word types of SVB-CORE and their plainest shapes: the 32-bit words of the two ports
(20_memory.md R50, R57) and the two IEEE 754 formats (00_scope.md R8). A float is a structure around its bit
pattern, so that no integer operation of `BitVec` can be applied to it by accident. -/

namespace Sys2Proof

/-- One word of the command port or of the response port (R50). -/
abbrev Word := BitVec 32

/-- An IEEE 754 binary64 number, as its bit pattern: every register, coefficient, parameter and intermediate
value (R8). -/
structure F64 where
  bits : BitVec 64
deriving DecidableEq, Repr, Inhabited

/-- An IEEE 754 binary32 number, as its bit pattern: a sample at the ports (R8). -/
structure F32 where
  bits : BitVec 32
deriving DecidableEq, Repr, Inhabited

/-- A thing that exists once for the left channel (channel 0) and once for the right (channel 1): the
representation in which "the two channels can never drift out of structural sync" (10_state.md R32). -/
structure Stereo (α : Type) where
  left : α
  right : α
deriving DecidableEq, Repr

@[ext] theorem F64.ext_bits {x y : F64} (h : x.bits = y.bits) : x = y := by
  cases x; cases y; cases h; rfl

@[ext] theorem F32.ext_bits {x y : F32} (h : x.bits = y.bits) : x = y := by
  cases x; cases y; cases h; rfl

end Sys2Proof
end

