-- ==== Sys2Proof/Syntax.lean ====
section
/-! DEFINITION. The commands of SVB-CORE, its "instructions" (00_scope.md R2): one constructor per row of
spec/opcode_table.json, with the operands its header fields and its payload carry (30_encoding.md R71 to R75). -/

namespace Sys2Proof

/-- One event record of a BLOCK payload (R74): the first word as it stands, its reserved bits included, and the
value. -/
structure Event where
  tag   : Word
  value : F64
deriving DecidableEq, Repr

/-- A decoded command. -/
inductive Instr where
  /-- SETUP, opcode 0x01 (44_chain_controller.md R161). -/
  | setup (sr : F64)
  /-- SETACT, opcode 0x02 (R162). -/
  | setact (active : Bool)
  /-- PSET, opcode 0x03 (R163). -/
  | pset (pid : BitVec 8) (value : F64)
  /-- PGET, opcode 0x04 (R164). -/
  | pget (pid : BitVec 8)
  /-- BLOCK, opcode 0x05 (R165): channel counts, the sample count word, event records, and the samples frame by
  frame (30_encoding.md R73). -/
  | block (nin nout : BitVec 4) (n : Word) (events : List Event) (samples : List F32)
  /-- RD, opcode 0x06 (R173). -/
  | rd (addr : BitVec 16)
  /-- SM.CFG, opcode 0x10 (40_smoothing.md R91). -/
  | smCfg (ms sr : F64)
  /-- SM.RST, opcode 0x11 (R92). -/
  | smRst (v : F64)
  /-- SM.STEP, opcode 0x12 (R93). -/
  | smStep (x : F64)
  /-- EF.CFG, opcode 0x14 (R94). -/
  | efCfg (ms sr : F64)
  /-- EF.RST, opcode 0x15 (R95). -/
  | efRst
  /-- EF.STEP, opcode 0x16 (R96). -/
  | efStep (x : F64)
  /-- AR.CFG, opcode 0x18 (R97). -/
  | arCfg (attackMs releaseMs sr : F64)
  /-- AR.RST, opcode 0x19 (R98). -/
  | arRst
  /-- AR.STEP, opcode 0x1A (R99). -/
  | arStep (x : F64)
  /-- BQ.LSH, opcode 0x20 (41_biquad.md R111). -/
  | bqLsh (sr f0 gainDb q : F64)
  /-- BQ.HSH, opcode 0x21 (R112). -/
  | bqHsh (sr f0 gainDb q : F64)
  /-- BQ.PK, opcode 0x22 (R113). -/
  | bqPk (sr f0 gainDb q : F64)
  /-- BQ.HPF, opcode 0x23 (R114). -/
  | bqHpf (sr f0 q : F64)
  /-- BQ.LPF, opcode 0x24 (R115). -/
  | bqLpf (sr f0 q : F64)
  /-- BQ.RST, opcode 0x25 (R116). -/
  | bqRst
  /-- BQ.STEP, opcode 0x26 (R117). -/
  | bqStep (x : F64)
  /-- SAT, opcode 0x28 (42_saturation.md R130). -/
  | sat (x drive : F64)
deriving DecidableEq, Repr

end Sys2Proof
end

