-- ==== Sys2Proof/Machine/Operands.lean ====
section
/-! DEFINITION. Operand assembly (30_encoding.md R70, R73 to R75, 20_memory.md R53, R57): how header fields, words
of a payload, event records and sample words become operands, and back. -/

namespace Sys2Proof

/-! ## 64-bit data in two words, low word first (R57) -/

/-- The `f64` operand `{word[k+1], word[k]}` (R75). -/
def f64OfWords (lo hi : Word) : F64 := ⟨hi ++ lo⟩

/-- The low word of a 64-bit datum, sent first. -/
def loWord (d : BitVec 64) : Word := d.extractLsb' 0 32

/-- The high word of a 64-bit datum, sent second. -/
def hiWord (d : BitVec 64) : Word := d.extractLsb' 32 32

/-- The two words of a 64-bit datum in stream order (R57). -/
def wordsOf64 (d : BitVec 64) : List Word := [loWord d, hiWord d]

/-! ## The header word (R70) -/

/-- `op = w[31:24]`. -/
def opField (w : Word) : BitVec 8 := w.extractLsb' 24 8

/-- `A = w[23:16]`. -/
def aField (w : Word) : BitVec 8 := w.extractLsb' 16 8

/-- `B = w[15:0]`. -/
def bField (w : Word) : BitVec 16 := w.extractLsb' 0 16

/-- The header word of the three fields. -/
def header (op a : BitVec 8) (b : BitVec 16) : Word := op ++ a ++ b

/-- `nin = A[7:4]` of a BLOCK header (R73). -/
def ninField (w : Word) : BitVec 4 := w.extractLsb' 20 4

/-- `nout = A[3:0]` of a BLOCK header (R73). -/
def noutField (w : Word) : BitVec 4 := w.extractLsb' 16 4

/-! ## The sample count and the frames of a block (R73, R53) -/

/-- `n = sext_32(word)`, the signed sample count (R75, R15). -/
def sampleCount (n : Word) : Int := n.toInt

/-- `max(n, 0)`, the number of frames the payload carries (R73). -/
def frameCount (n : Word) : Nat := (sampleCount n).toNat

/-- The frames of a payload that carries `nin` words a frame, "frame by frame": `In(0, i)` and `In(1, i)` of each;
input channels 2 and above "are carried and ignored" (R53). -/
def framesOf (nin : Nat) : Nat → List F32 → List (F32 × F32)
  | k + 1, l :: r :: more => (l, r) :: framesOf nin k (more.drop (nin - 2))
  | _, _ => []

/-! ## Event records (R74) -/

/-- `pid = w[7:0]` of the record's first word. -/
def Event.pid (e : Event) : Nat := (e.tag.extractLsb' 0 8).toNat

/-- A record that is applied: `w[31:8]` zero and `pid <= 8`; any other "is skipped without effect" (R74). -/
def Event.applies (e : Event) : Bool := decide (e.tag.extractLsb' 8 24 = 0#24) && decide (e.pid ≤ 8)

end Sys2Proof
end

