-- ==== Sys2Proof/WellFormed.lean ====
section
/-! DEFINITION. Which `Instr` terms stand for a command that the port can carry. Only BLOCK has a check: its lists
must have the lengths its fields announce (30_encoding.md R73). Every bit pattern of every other operand is
accepted (R75). -/

namespace Sys2Proof

/-- The event count fits the 16-bit field `nev`, and there are `nin * max(n, 0)` samples (R73). -/
def blockWellFormed (nin : BitVec 4) (n : Word) (events : List Event) (samples : List F32) : Bool :=
  decide (events.length < 2 ^ 16) && decide (samples.length = nin.toNat * frameCount n)

/-- A command the port can carry. -/
def Instr.wellFormed : Instr → Bool
  | .block nin _ n events samples => blockWellFormed nin n events samples
  | .setup _ | .setact _ | .pset _ _ | .pget _ | .rd _ => true
  | .smCfg _ _ | .smRst _ | .smStep _ => true
  | .efCfg _ _ | .efRst | .efStep _ => true
  | .arCfg _ _ _ | .arRst | .arStep _ => true
  | .bqLsh _ _ _ _ | .bqHsh _ _ _ _ | .bqPk _ _ _ _ | .bqHpf _ _ _ | .bqLpf _ _ _ | .bqRst | .bqStep _ => true
  | .sat _ _ => true

/-- `wellFormed` as a proposition. -/
abbrev Instr.WellFormed (i : Instr) : Prop := i.wellFormed = true

end Sys2Proof
end

