-- ==== Sys2Proof/Decode.lean ====
section
/-! DEFINITION. The command decoder, total on any words, and the encoder (30_encoding.md R70 to R77, R81). The
decoder takes the words that have arrived; it answers a command and the words after it, an illegal header by name
and the words after that one word, or that the command's words have not all arrived (60_exceptions.md R204). -/

namespace Sys2Proof

/-- Why a header word is illegal (R77), in the order R206 makes the checks. -/
inductive IllegalHeader where
  /-- The opcode is in neither table of R71 and R72. -/
  | unknownOpcode
  /-- A field the tables show as 0 is nonzero. -/
  | nonzeroReserved
deriving DecidableEq, Repr

/-- What the decoder makes of the words that have arrived. -/
inductive Decoded where
  /-- A whole command, and the words after it. -/
  | command (i : Instr) (rest : List Word)
  /-- An illegal header, which "consumes exactly one word" (R77), and the words after it. -/
  | illegal (why : IllegalHeader) (rest : List Word)
  /-- "The command waits for its remaining words" (R202 row 15). -/
  | incomplete
deriving DecidableEq, Repr

/-! ## Payloads -/

def payload1 (k : F64 → Instr) : List Word → Decoded
  | a :: b :: rest => .command (k (f64OfWords a b)) rest
  | _ => .incomplete

def payload2 (k : F64 → F64 → Instr) : List Word → Decoded
  | a :: b :: c :: d :: rest => .command (k (f64OfWords a b) (f64OfWords c d)) rest
  | _ => .incomplete

def payload3 (k : F64 → F64 → F64 → Instr) : List Word → Decoded
  | a :: b :: c :: d :: e :: f :: rest =>
    .command (k (f64OfWords a b) (f64OfWords c d) (f64OfWords e f)) rest
  | _ => .incomplete

def payload4 (k : F64 → F64 → F64 → F64 → Instr) : List Word → Decoded
  | a :: b :: c :: d :: e :: f :: g :: h :: rest =>
    .command (k (f64OfWords a b) (f64OfWords c d) (f64OfWords e f) (f64OfWords g h)) rest
  | _ => .incomplete

/-- `nev` event records of three words each (R73, R74), and the words after them. -/
def takeEvents : Nat → List Word → Option (List Event × List Word)
  | 0, ws => some ([], ws)
  | k + 1, tag :: lo :: hi :: ws =>
    (takeEvents k ws).map fun (es, rest) => (⟨tag, f64OfWords lo hi⟩ :: es, rest)
  | _ + 1, _ => none

/-- So many sample words, and the words after them. -/
def takeSamples : Nat → List Word → Option (List F32 × List Word)
  | 0, ws => some ([], ws)
  | k + 1, w :: ws => (takeSamples k ws).map fun (xs, rest) => (⟨w⟩ :: xs, rest)
  | _ + 1, [] => none

/-- The payload of BLOCK (R73): the count word, the event records, `nin * max(n, 0)` samples. "The payload has this
length whether or not the block turns out to be degenerate". -/
def payloadBlock (nin nout : BitVec 4) (nev : Nat) : List Word → Decoded
  | [] => .incomplete
  | n :: ws =>
    match takeEvents nev ws with
    | none => .incomplete
    | some (events, ws') =>
      match takeSamples (nin.toNat * frameCount n) ws' with
      | none => .incomplete
      | some (samples, rest) => .command (.block nin nout n events samples) rest

/-! ## Decoding -/

/-- A header whose must-be-zero fields are zero goes on; another is illegal and only its own word is consumed. -/
def ifZero (zero : Bool) (rest : List Word) (d : Decoded) : Decoded :=
  if zero then d else .illegal .nonzeroReserved rest

/-- The command whose header is `h`, from the words after it: the tables of R71 and R72. -/
def decodeHeader (h : Word) (rest : List Word) : Decoded :=
  let a0 := decide (aField h = 0#8)
  let b0 := decide (bField h = 0#16)
  let ab0 := a0 && b0
  match (opField h).toNat with
  | 0x01 => ifZero ab0 rest (payload1 .setup rest)
  | 0x02 => ifZero (a0 && decide ((bField h).extractLsb' 1 15 = 0#15)) rest
              (.command (.setact ((bField h).getLsbD 0)) rest)
  | 0x03 => ifZero b0 rest (payload1 (.pset (aField h)) rest)
  | 0x04 => ifZero b0 rest (.command (.pget (aField h)) rest)
  | 0x05 => payloadBlock (ninField h) (noutField h) (bField h).toNat rest
  | 0x06 => ifZero a0 rest (.command (.rd (bField h)) rest)
  | 0x10 => ifZero ab0 rest (payload2 .smCfg rest)
  | 0x11 => ifZero ab0 rest (payload1 .smRst rest)
  | 0x12 => ifZero ab0 rest (payload1 .smStep rest)
  | 0x14 => ifZero ab0 rest (payload2 .efCfg rest)
  | 0x15 => ifZero ab0 rest (.command .efRst rest)
  | 0x16 => ifZero ab0 rest (payload1 .efStep rest)
  | 0x18 => ifZero ab0 rest (payload3 .arCfg rest)
  | 0x19 => ifZero ab0 rest (.command .arRst rest)
  | 0x1A => ifZero ab0 rest (payload1 .arStep rest)
  | 0x20 => ifZero ab0 rest (payload4 .bqLsh rest)
  | 0x21 => ifZero ab0 rest (payload4 .bqHsh rest)
  | 0x22 => ifZero ab0 rest (payload4 .bqPk rest)
  | 0x23 => ifZero ab0 rest (payload3 .bqHpf rest)
  | 0x24 => ifZero ab0 rest (payload3 .bqLpf rest)
  | 0x25 => ifZero ab0 rest (.command .bqRst rest)
  | 0x26 => ifZero ab0 rest (payload1 .bqStep rest)
  | 0x28 => ifZero ab0 rest (payload2 .sat rest)
  | _ => .illegal .unknownOpcode rest

/-- The first command of the words that have arrived. -/
def decode : List Word → Decoded
  | [] => .incomplete
  | h :: rest => decodeHeader h rest

/-! ## Encoding -/

/-- The words of a sequence of `f64` operands, in order. -/
def operandWords (xs : List F64) : List Word := xs.flatMap fun x => wordsOf64 x.bits

/-- The three words of an event record (R74). -/
def Event.words (e : Event) : List Word := e.tag :: wordsOf64 e.value.bits

/-- A command of format U: `A = 0`, `B = 0`, operands in the order shown (R72). -/
def encodeU (op : BitVec 8) (xs : List F64) : List Word := header op 0#8 0#16 :: operandWords xs

/-- The words of a command, in stream order (R71 to R75). -/
def encode : Instr → List Word
  | .setup sr => header 0x01#8 0#8 0#16 :: operandWords [sr]
  | .setact active => [header 0x02#8 0#8 (if active then 1#16 else 0#16)]
  | .pset pid value => header 0x03#8 pid 0#16 :: operandWords [value]
  | .pget pid => [header 0x04#8 pid 0#16]
  | .block nin nout n events samples =>
    header 0x05#8 (nin ++ nout) (BitVec.ofNat 16 events.length) ::
      n :: (events.flatMap Event.words ++ samples.map F32.bits)
  | .rd addr => [header 0x06#8 0#8 addr]
  | .smCfg ms sr => encodeU 0x10#8 [ms, sr]
  | .smRst v => encodeU 0x11#8 [v]
  | .smStep x => encodeU 0x12#8 [x]
  | .efCfg ms sr => encodeU 0x14#8 [ms, sr]
  | .efRst => encodeU 0x15#8 []
  | .efStep x => encodeU 0x16#8 [x]
  | .arCfg attackMs releaseMs sr => encodeU 0x18#8 [attackMs, releaseMs, sr]
  | .arRst => encodeU 0x19#8 []
  | .arStep x => encodeU 0x1A#8 [x]
  | .bqLsh sr f0 gainDb q => encodeU 0x20#8 [sr, f0, gainDb, q]
  | .bqHsh sr f0 gainDb q => encodeU 0x21#8 [sr, f0, gainDb, q]
  | .bqPk sr f0 gainDb q => encodeU 0x22#8 [sr, f0, gainDb, q]
  | .bqHpf sr f0 q => encodeU 0x23#8 [sr, f0, q]
  | .bqLpf sr f0 q => encodeU 0x24#8 [sr, f0, q]
  | .bqRst => encodeU 0x25#8 []
  | .bqStep x => encodeU 0x26#8 [x]
  | .sat x drive => encodeU 0x28#8 [x, drive]

/-! ## The opcode table as data, and the length of a command (R76) -/

/-- A row of the opcode table: the header words `w` with `w &&& mask = pattern`, and how many payload words follow
(for BLOCK the rule of R73 instead). -/
structure Row where
  mnemonic : String
  pattern  : Word
  mask     : Word
  payload  : Nat
deriving DecidableEq, Repr

/-- The rows of R71 and R72 in the table's order. -/
def opcodeRows : List Row :=
  [⟨"SETUP", 0x01000000, 0xFFFFFFFF, 2⟩, ⟨"SETACT", 0x02000000, 0xFFFFFFFE, 0⟩,
   ⟨"PSET", 0x03000000, 0xFF00FFFF, 2⟩, ⟨"PGET", 0x04000000, 0xFF00FFFF, 0⟩,
   ⟨"BLOCK", 0x05000000, 0xFF000000, 1⟩, ⟨"RD", 0x06000000, 0xFFFF0000, 0⟩,
   ⟨"SM.CFG", 0x10000000, 0xFFFFFFFF, 4⟩, ⟨"SM.RST", 0x11000000, 0xFFFFFFFF, 2⟩,
   ⟨"SM.STEP", 0x12000000, 0xFFFFFFFF, 2⟩, ⟨"EF.CFG", 0x14000000, 0xFFFFFFFF, 4⟩,
   ⟨"EF.RST", 0x15000000, 0xFFFFFFFF, 0⟩, ⟨"EF.STEP", 0x16000000, 0xFFFFFFFF, 2⟩,
   ⟨"AR.CFG", 0x18000000, 0xFFFFFFFF, 6⟩, ⟨"AR.RST", 0x19000000, 0xFFFFFFFF, 0⟩,
   ⟨"AR.STEP", 0x1A000000, 0xFFFFFFFF, 2⟩, ⟨"BQ.LSH", 0x20000000, 0xFFFFFFFF, 8⟩,
   ⟨"BQ.HSH", 0x21000000, 0xFFFFFFFF, 8⟩, ⟨"BQ.PK", 0x22000000, 0xFFFFFFFF, 8⟩,
   ⟨"BQ.HPF", 0x23000000, 0xFFFFFFFF, 6⟩, ⟨"BQ.LPF", 0x24000000, 0xFFFFFFFF, 6⟩,
   ⟨"BQ.RST", 0x25000000, 0xFFFFFFFF, 0⟩, ⟨"BQ.STEP", 0x26000000, 0xFFFFFFFF, 2⟩,
   ⟨"SAT", 0x28000000, 0xFFFFFFFF, 4⟩]

/-- The row a header word falls under. -/
def Row.covers (r : Row) (h : Word) : Bool := decide (h &&& r.mask = r.pattern)

/-- How many payload words follow the header `h`; `n` is the first of them, which only BLOCK needs; none after an
illegal header (R76). -/
def payloadLength (h n : Word) : Nat :=
  match opcodeRows.find? fun r => r.covers h with
  | none => 0
  | some r =>
    if opField h = 0x05#8 then 1 + 3 * (bField h).toNat + (ninField h).toNat * frameCount n else r.payload

/-! ## A command given as one number, as spec/opcode_table.json numbers bits -/

/-- The lowest `k` words of a number, the lowest first. -/
def lowWords : Nat → Nat → List Word
  | 0, _ => []
  | k + 1, w => BitVec.ofNat 32 w :: lowWords k (w / 2 ^ 32)

/-- The words, header first, of the command whose lowest `nbits` bits are `w` and whose other bits are 0. -/
def tableWords (nbits w : Nat) : List Word :=
  let v := w % 2 ^ nbits
  lowWords (1 + payloadLength (BitVec.ofNat 32 v) (BitVec.ofNat 32 (v / 2 ^ 32))) v

/-- The instruction the decoder reads from the command whose bits are `w`; none where it refuses. -/
def decodeTableWord (nbits w : Nat) : Option Instr :=
  match decode (tableWords nbits w) with
  | .command i _ => some i
  | .illegal _ _ | .incomplete => none

end Sys2Proof
end

