-- ==== Sys2Proof/Machine/Compare.lean ====
section
/-! DEFINITION. Sign-bit operations, classification and comparison of floats (00_scope.md R9, R12). None of them
rounds and none can make a NaN out of numbers, so they need no value the spec leaves open. -/

namespace Sys2Proof

/-- The magnitude bits of +infinity: a magnitude below is a finite number, one above is a NaN. -/
def F64.infMag : Nat := 0x7FF0000000000000

/-- The same bound in binary32. -/
def F32.infMag : Nat := 0x7F800000

/-- The sign bit. -/
def F64.sign (x : F64) : Bool := x.bits.msb

/-- Exponent and fraction fields read as one number: it orders the finite numbers and infinity by size. -/
def F64.mag (x : F64) : Nat := x.bits.toNat % 2 ^ 63

def F64.isNaN (x : F64) : Bool := decide (F64.infMag < x.mag)
def F64.isInf (x : F64) : Bool := decide (x.mag = F64.infMag)
def F64.isFinite (x : F64) : Bool := decide (x.mag < F64.infMag)
def F64.isZero (x : F64) : Bool := decide (x.mag = 0)

def F32.sign (x : F32) : Bool := x.bits.msb
def F32.mag (x : F32) : Nat := x.bits.toNat % 2 ^ 31
def F32.isNaN (x : F32) : Bool := decide (F32.infMag < x.mag)
def F32.isInf (x : F32) : Bool := decide (x.mag = F32.infMag)
def F32.isFinite (x : F32) : Bool := decide (x.mag < F32.infMag)
def F32.isZero (x : F32) : Bool := decide (x.mag = 0)

/-- Unary minus "changes only the sign bit" (R9), of a NaN too. -/
def F64.neg (x : F64) : F64 := ⟨x.bits ^^^ 0x8000000000000000#64⟩

/-- `abs` "changes only the sign bit" (R9), of a NaN too. -/
def F64.abs (x : F64) : F64 := ⟨x.bits &&& 0x7FFFFFFFFFFFFFFF#64⟩

/-- The number's place on the integer line: equal exactly for equal values (both zeros at 0) and increasing with
the value. Meaningful for numbers only, not for NaNs. -/
def F64.key (x : F64) : Int := if x.sign then -(x.mag : Int) else (x.mag : Int)

/-- IEEE 754 `<`: false when an operand is a NaN. -/
def F64.lt (x y : F64) : Bool := !x.isNaN && !y.isNaN && decide (x.key < y.key)

/-- IEEE 754 `<=`: false when an operand is a NaN. -/
def F64.le (x y : F64) : Bool := !x.isNaN && !y.isNaN && decide (x.key ≤ y.key)

/-- IEEE 754 `=`: the zeros are equal, a NaN differs from everything (44_chain_controller.md R167). -/
def F64.eq (x y : F64) : Bool := !x.isNaN && !y.isNaN && decide (x.key = y.key)

/-- `max(a, b)` "returns `a` if `a > b`, else `b`" (R12): a NaN operand makes the comparison false. -/
def F64.max (a b : F64) : F64 := if b.lt a then a else b

/-- `min(a, b)` "returns `a` if `a < b`, else `b`" (R12). -/
def F64.min (a b : F64) : F64 := if a.lt b then a else b

/-- `clamp(v, lo, hi) = min(max(v, lo), hi)` (R12). -/
def F64.clamp (v lo hi : F64) : F64 := (v.max lo).min hi

/-! Constants the spec writes as decimal literals, each as the nearest binary64 (R6, R12); the tests derive them
from the decimal numbers. -/

def F64.zero : F64 := ⟨0x0000000000000000#64⟩
def F64.half : F64 := ⟨0x3FE0000000000000#64⟩
def F64.one : F64 := ⟨0x3FF0000000000000#64⟩
def F64.two : F64 := ⟨0x4000000000000000#64⟩
def F64.ten : F64 := ⟨0x4024000000000000#64⟩
def F64.posInf : F64 := ⟨0x7FF0000000000000#64⟩
def F64.negInf : F64 := ⟨0xFFF0000000000000#64⟩

/-- `PI` is bit pattern 0x400921FB54442D18 (R12, D6). -/
def F64.pi : F64 := ⟨0x400921FB54442D18#64⟩

/-- 0.707, the Q of the shelves of the chain (D13) and of the cabinet filters (R6). -/
def F64.q707 : F64 := ⟨0x3FE69FBE76C8B439#64⟩

/-! The sign change and its three fields. -/

@[simp] theorem F64.mag_neg (x : F64) : x.neg.mag = x.mag := by
  have h : (x.bits ^^^ 0x8000000000000000#64).extractLsb' 0 63 = x.bits.extractLsb' 0 63 := by
    ext i hi
    simp only [BitVec.getElem_extractLsb', BitVec.getLsbD_xor]
    have : ∀ j : Fin 63, (0x8000000000000000#64).getLsbD (0 + j.val) = false := by decide
    rw [this ⟨i, hi⟩, Bool.xor_false]
  have := congrArg BitVec.toNat h
  simpa [F64.mag, F64.neg, BitVec.extractLsb'_toNat] using this

@[simp] theorem F64.sign_neg (x : F64) : x.neg.sign = !x.sign := by
  have h : (0x8000000000000000#64).msb = true := by decide
  simp only [F64.sign, F64.neg, BitVec.msb_xor, h, Bool.xor_true]

@[simp] theorem F64.isNaN_neg (x : F64) : x.neg.isNaN = x.isNaN := by
  simp [F64.isNaN, F64.mag_neg]

end Sys2Proof
end

