-- ==== Sys2Proof/Config.lean ====
section
/-! DEFINITION. What an implementation fixes and what the spec leaves free: the configuration record `CFG`
(00_scope.md R5), the numerics record `CFG.NUM` (R10), and the free values. Every open point is an OPAQUE constant
without a body: nothing in Lean can evaluate it, so a theorem holds for every value the spec admits. -/

namespace Sys2Proof

/-! ## The record CFG.NUM (R10) -/

/-- The five transcendental functions, "each a total function of its operands alone" (R10). -/
structure Numerics where
  exp  : F64 → F64
  tanh : F64 → F64
  sin  : F64 → F64
  cos  : F64 → F64
  pow  : F64 → F64 → F64

/-- The named properties of R10, "only" which a model may assume. An `=` between results is read as IEEE equality
(log entry 5), except P-tanh0, which names the signs of its zeros. -/
structure Numerics.Lawful (n : Numerics) : Prop where
  /-- P-exp: for finite `x <= 0`, `0 <= exp(x) <= 1`. -/
  exp_range : ∀ x : F64, x.isFinite = true → x.le .zero = true →
    F64.zero.le (n.exp x) = true ∧ (n.exp x).le .one = true
  /-- P-exp: `exp(-inf) = 0`. -/
  exp_negInf : (n.exp .negInf).eq .zero = true
  /-- P-tanh0: `tanh(+0) = +0` and `tanh(-0) = -0`. -/
  tanh_zero : ∀ x : F64, x.isZero = true → n.tanh x = x
  /-- P-tanh-odd: `tanh(-x) = -tanh(x)`. -/
  tanh_odd : ∀ x : F64, x.isNaN = false → (n.tanh x.neg).eq (n.tanh x).neg = true
  /-- P-tanh-range: `-1 <= tanh(x) <= 1` for every non-NaN `x`. -/
  tanh_range : ∀ x : F64, x.isNaN = false →
    F64.one.neg.le (n.tanh x) = true ∧ (n.tanh x).le .one = true
  /-- P-tanh-range: `tanh(+inf) = 1`. -/
  tanh_posInf : (n.tanh .posInf).eq .one = true
  /-- P-tanh-range: `tanh(-inf) = -1`. -/
  tanh_negInf : (n.tanh .negInf).eq F64.one.neg = true
  /-- P-tanh-mono: `x <= y` implies `tanh(x) <= tanh(y)`. -/
  tanh_mono : ∀ x y : F64, x.le y = true → (n.tanh x).le (n.tanh y) = true
  /-- P-trig-range, sine. -/
  sin_range : ∀ x : F64, x.isFinite = true →
    F64.one.neg.le (n.sin x) = true ∧ (n.sin x).le .one = true
  /-- P-trig-range, cosine. -/
  cos_range : ∀ x : F64, x.isFinite = true →
    F64.one.neg.le (n.cos x) = true ∧ (n.cos x).le .one = true
  /-- P-pow0: `pow(10.0, +0) = pow(10.0, -0) = 1.0`. -/
  pow_zero : ∀ y : F64, y.isZero = true → n.pow .ten y = .one
  /-- P-nan, for each of the five functions. -/
  exp_nan : ∀ x : F64, x.isNaN = true → (n.exp x).isNaN = true
  tanh_nan : ∀ x : F64, x.isNaN = true → (n.tanh x).isNaN = true
  sin_nan : ∀ x : F64, x.isNaN = true → (n.sin x).isNaN = true
  cos_nan : ∀ x : F64, x.isNaN = true → (n.cos x).isNaN = true
  pow_nan_left : ∀ x y : F64, x.isNaN = true → (n.pow x y).isNaN = true
  pow_nan_right : ∀ x y : F64, y.isNaN = true → (n.pow x y).isNaN = true

/-! ## The record CFG (R5) -/

/-- The configuration record of R5, in its table's order: "fixed before reset and never changed by any command". -/
structure Cfg where
  /-- `ASYM`, asymmetry constant of the saturator: OPEN (D7). -/
  asym : F64
  /-- `BIAS_OFFSET`, bias offset of the saturator: decided 0.0 (D8). -/
  biasOffset : F64
  /-- `MS_IN`, `MS_OUT`, `MS_DRV`, time constants of the three smoothers: OPEN (D9). -/
  msIn : F64
  msOut : F64
  msDrv : F64
  /-- `MS_ENV`, time constant of both envelope followers: OPEN (D10). -/
  msEnv : F64
  /-- `INIT_IN`, `INIT_OUT`, `INIT_DRV`, smoother values on activation: decided 0.0 (D11). -/
  initIn : F64
  initOut : F64
  initDrv : F64
  /-- `BASS_RANGE_DB`, `MID_RANGE_DB`, `TREBLE_RANGE_DB`: OPEN (D12). -/
  bassRangeDb : F64
  midRangeDb : F64
  trebleRangeDb : F64
  /-- `Q_SHELF`, Q of every shelf of the chain: decided 0.707 (D13). -/
  qShelf : F64
  /-- `Q_MID` and `Q_ULO_CUT`: OPEN (D13). -/
  qMid : F64
  qUloCut : F64
  /-- `Q_CAB`, Q of both cabinet filters: the source fixes 0.707. -/
  qCab : F64
  /-- `F_ULO_SHELF`, `F_ULO_CUT`, `F_UHI`: OPEN (D14). -/
  fUloShelf : F64
  fUloCut : F64
  fUhi : F64
  /-- `TOGGLE_HALF_ON`, whether exactly 0.5 reads as on: OPEN (D19). -/
  toggleHalfOn : Bool
  /-- `NUM`: OPEN with named properties (D3). -/
  num : Numerics

/-- A finite number above zero. -/
abbrev F64.positive (x : F64) : Prop := x.isFinite = true ∧ F64.zero.lt x = true

/-- The admissible ranges of the open fields (93_implementation_defined.md U11). -/
structure Cfg.Admissible (c : Cfg) : Prop where
  asym_ok : c.asym.isFinite = true ∧ F64.zero.le c.asym = true
  msIn_ok : c.msIn.isFinite = true
  msOut_ok : c.msOut.isFinite = true
  msDrv_ok : c.msDrv.isFinite = true
  msEnv_ok : c.msEnv.isFinite = true
  bassRange_ok : c.bassRangeDb.isFinite = true
  midRange_ok : c.midRangeDb.isFinite = true
  trebleRange_ok : c.trebleRangeDb.isFinite = true
  qMid_ok : c.qMid.positive
  qUloCut_ok : c.qUloCut.positive
  fUloShelf_ok : c.fUloShelf.positive
  fUloCut_ok : c.fUloCut.positive
  fUhi_ok : c.fUhi.positive
  num_ok : c.num.Lawful

/-- An admissible configuration, with the proof that it is one. -/
structure Config.Choice where
  cfg : Cfg
  ok : cfg.Admissible

/-- A lawful, useless numerics record: it shows only that the named properties can be met together. -/
def Config.sampleNum : Numerics where
  exp x := if x.isNaN then x else .zero
  tanh x := if x.isNaN || x.isZero then x else if x.sign then F64.one.neg else .one
  sin x := if x.isNaN then x else .zero
  cos x := if x.isNaN then x else .zero
  pow x y := if x.isNaN then x else if y.isNaN then y else .one

theorem Config.sampleNum_lawful : Config.sampleNum.Lawful where
  exp_range x h _ := by
    have : x.isNaN = false := by simp [F64.isNaN, F64.isFinite] at *; omega
    simp only [Config.sampleNum, this, Bool.false_eq_true, ↓reduceIte]; decide
  exp_negInf := by decide
  tanh_zero x h := by simp [Config.sampleNum, h]
  tanh_odd x h := by
    have hz : x.neg.isZero = x.isZero := by simp [F64.isZero, F64.mag_neg]
    simp only [Config.sampleNum, F64.isNaN_neg, hz, F64.sign_neg, h, Bool.false_or]
    cases hx : x.isZero
    · cases x.sign
      · simp only [Bool.false_eq_true, ↓reduceIte, Bool.not_false]; decide
      · simp only [Bool.false_eq_true, ↓reduceIte, Bool.not_true]; decide
    · simp [F64.eq, F64.isNaN_neg, h]
  tanh_range x h := by
    simp only [Config.sampleNum, h, Bool.false_or]
    cases hx : x.isZero
    · cases x.sign <;> simp only [Bool.false_eq_true, ↓reduceIte] <;> decide
    · have hm : x.mag = 0 := by simpa [F64.isZero] using hx
      have hk : x.key = 0 := by simp [F64.key, hm]
      have h1 : F64.one.key = 4607182418800017408 := by decide
      have h2 : F64.one.neg.key = -4607182418800017408 := by decide
      have h3 : F64.one.isNaN = false := by decide
      have h4 : F64.one.neg.isNaN = false := by decide
      simp [F64.le, h, hk, h1, h2, h3, h4]
  tanh_posInf := by decide
  tanh_negInf := by decide
  tanh_mono x y h := by
    simp only [F64.le, Bool.and_eq_true, Bool.not_eq_true', decide_eq_true_eq] at h
    obtain ⟨⟨hx, hy⟩, hk⟩ := h
    have h1 : F64.one.key = 4607182418800017408 := by decide
    have h2 : F64.one.neg.key = -4607182418800017408 := by decide
    have h3 : F64.one.isNaN = false := by decide
    have h4 : F64.one.neg.isNaN = false := by decide
    have key_zero : ∀ z : F64, z.isZero = true → z.key = 0 := by
      intro z hz
      have hm : z.mag = 0 := by simpa [F64.isZero] using hz
      simp [F64.key, hm]
    have key_pos : ∀ z : F64, z.isZero = false → z.sign = false → 0 < z.key := by
      intro z hz hs
      have hm : z.mag ≠ 0 := by simpa [F64.isZero] using hz
      simp [F64.key, hs]; omega
    have key_neg : ∀ z : F64, z.isZero = false → z.sign = true → z.key < 0 := by
      intro z hz hs
      have hm : z.mag ≠ 0 := by simpa [F64.isZero] using hz
      simp [F64.key, hs]; omega
    simp only [Config.sampleNum, hx, hy, Bool.false_or]
    cases hzx : x.isZero <;> cases hzy : y.isZero
    · cases hsx : x.sign <;> cases hsy : y.sign
      · simp only [Bool.false_eq_true, ↓reduceIte]; decide
      · have := key_pos x hzx hsx; have := key_neg y hzy hsy; omega
      · simp only [Bool.false_eq_true, ↓reduceIte]; decide
      · simp only [Bool.false_eq_true, ↓reduceIte]; decide
    · have := key_zero y hzy
      cases hsx : x.sign
      · have := key_pos x hzx hsx; omega
      · simp [F64.le, hy, h2, h4, this]
    · have := key_zero x hzx
      cases hsy : y.sign
      · simp [F64.le, hx, h1, h3, this]
      · have := key_neg y hzy hsy; omega
    · simp [F64.le, hx, hy, hk]
  sin_range x h := by
    have : x.isNaN = false := by simp [F64.isNaN, F64.isFinite] at *; omega
    simp only [Config.sampleNum, this, Bool.false_eq_true, ↓reduceIte]; decide
  cos_range x h := by
    have : x.isNaN = false := by simp [F64.isNaN, F64.isFinite] at *; omega
    simp only [Config.sampleNum, this, Bool.false_eq_true, ↓reduceIte]; decide
  pow_zero y h := by
    have : y.isNaN = false := by
      simp only [F64.isZero, decide_eq_true_eq] at h; simp [F64.isNaN, h]
    have h10 : F64.ten.isNaN = false := by decide
    simp [Config.sampleNum, this, h10]
  exp_nan x h := by simp [Config.sampleNum, h]
  tanh_nan x h := by simp [Config.sampleNum, h]
  sin_nan x h := by simp [Config.sampleNum, h]
  cos_nan x h := by simp [Config.sampleNum, h]
  pow_nan_left x y h := by simp [Config.sampleNum, h]
  pow_nan_right x y h := by
    cases hx : x.isNaN <;> simp [Config.sampleNum, h, hx]

/-- A configuration that shows the admissible ranges are not empty. It is not the hardware's (nor CFG0): the
model's configuration is `Config.cfg`, whose open fields no theorem can read. -/
def Config.sampleCfg : Cfg where
  asym := .zero
  biasOffset := .zero
  msIn := .one
  msOut := .one
  msDrv := .one
  msEnv := .one
  initIn := .zero
  initOut := .zero
  initDrv := .zero
  bassRangeDb := .one
  midRangeDb := .one
  trebleRangeDb := .one
  qShelf := .q707
  qMid := .one
  qUloCut := .one
  qCab := .q707
  fUloShelf := .one
  fUloCut := .one
  fUhi := .one
  toggleHalfOn := false
  num := Config.sampleNum

theorem Config.sampleCfg_admissible : Config.sampleCfg.Admissible :=
  ⟨by decide, by decide, by decide, by decide, by decide, by decide, by decide, by decide, by decide,
   by decide, by decide, by decide, by decide, Config.sampleNum_lawful⟩

/-- The hardware's open configuration: some admissible one, and nothing more is known of it. The argument says only
that one exists; the constant has no body. -/
opaque Config.anyChoice [Inhabited Config.Choice] : Config.Choice

/-- The admissible configuration whose OPEN fields the hardware has (R5, U11). -/
def Config.choice : Config.Choice :=
  @Config.anyChoice (Inhabited.mk ⟨Config.sampleCfg, Config.sampleCfg_admissible⟩)

/-- The hardware's configuration record: the OPEN fields are the opaque choice's, the decided ones are the spec's
(`BIAS_OFFSET` and `INIT_*` 0.0, `Q_SHELF` and `Q_CAB` 0.707; R5, D8, D11, D13). -/
def Config.cfg : Cfg :=
  { Config.choice.cfg with
    biasOffset := .zero, initIn := .zero, initOut := .zero, initDrv := .zero, qShelf := .q707, qCab := .q707 }

/-- The hardware's configuration is admissible. -/
theorem Config.cfg_admissible : Config.cfg.Admissible :=
  let h := Config.choice.ok
  ⟨h.asym_ok, h.msIn_ok, h.msOut_ok, h.msDrv_ok, h.msEnv_ok, h.bassRange_ok, h.midRange_ok, h.trebleRange_ok,
   h.qMid_ok, h.qUloCut_ok, h.fUloShelf_ok, h.fUloCut_ok, h.fUhi_ok, h.num_ok⟩

/-! ## Free values: NaN bits (60_exceptions.md R203; log entry 4) -/

/-- The operations whose result can be a NaN of unstated sign and payload. -/
inductive FOp where
  | add | sub | mul | div | sqrt
deriving DecidableEq, Repr

/-- Sign (top bit) and 51 payload bits of a NaN result: "any quiet NaN; the spec fixes no payload" (R203). A
function of the operation and its operands, since the same operands give the same bits (R14). -/
opaque Config.nanBits : FOp → F64 → F64 → BitVec 52

/-- Sign and 51 payload bits of `f64` of a NaN sample (R11, R203). -/
opaque Config.widenNan : F32 → BitVec 52

/-- Sign and 22 payload bits of `f32` of a NaN (R11, R203). -/
opaque Config.narrowNan : F64 → BitVec 23

/-! ## Free values: draws for unspecified registers (10_state.md R35; log entry 3) -/

/-- The `d`-th draw of "any `F64`": each read of an unspecified register is a fresh draw (R56). -/
opaque Config.anyF64 : Nat → F64

/-- The `d`-th draw of "an arbitrary legal index" for `TONE_TAG.midIdx` (U6). -/
opaque Config.anyIndex : Nat → Fin 5

/-- The `d`-th draw of an arbitrary bit, for the toggles of `TONE_TAG` (U6). -/
opaque Config.anyBit : Nat → Bool

/-! ## Free values: the mid-frequency selector outside [0, 1] (10_state.md R25, U5; log entry 6) -/

/-- `floor` of an infinity or a NaN, which R12 defines for finite values only. -/
opaque Config.floorNonFinite : F64 → Int

/-- The frequency read from `MIDF` by an index outside 0..4, for which "the frequency table has no entry" (U5). -/
opaque Config.midFreqOutside : Int → F64

/-- The 64 bits RD shows of a `TONE_TAG.midIdx` outside 0..4, which R55 gives no form. -/
opaque Config.midIdxBitsOutside : Int → BitVec 64

end Sys2Proof
end

