-- ==== Sys2Proof/Machine/Float.lean ====
section
/-! DEFINITION. IEEE 754 arithmetic as 00_scope.md R9 and R11 ask for it: round to nearest, ties to even, each
operation rounded once, subnormals kept, no fused multiply-add, IEEE default results. Every operation takes its
operands to exact integers, computes exactly, and rounds once at the end (`roundMag`). A NaN result is any quiet
NaN (60_exceptions.md R203): its sign and payload are free values of `Config`. The operations are irreducible: Lean's unifier does not look inside them unless a
proof unfolds them by name; the kernel evaluates them as it does any definition. -/

namespace Sys2Proof

/-! ## Rounding -/

/-- `m * 2^(-d)` rounded to an integer, to nearest, ties to even; exact when `d <= 0`. -/
def shiftRightEven (m : Nat) (d : Int) : Nat :=
  if d ≤ 0 then m * 2 ^ (-d).toNat
  else
    let unit := 2 ^ d.toNat
    let n := m / unit
    let r := m % unit
    if unit < 2 * r ∨ (2 * r = unit ∧ n % 2 = 1) then n + 1 else n

/-- The magnitude bits of `m * 2^e` rounded to nearest even in a format of `p` significant bits, least exponent
`qmin` and infinity `inf`. The quantum `2^q` is the one of `p` significant bits, never below the subnormal one; a
carry out of the significand moves to the next exponent by itself, and past the largest number the result is
infinity. -/
@[irreducible] def roundMag (p : Nat) (qmin : Int) (inf : Nat) (m : Nat) (e : Int) : Nat :=
  if m = 0 then 0
  else
    let q := Max.max qmin (e + (Nat.log2 m + 1 : Nat) - p)
    Min.min inf ((q - qmin).toNat * 2 ^ (p - 1) + shiftRightEven m (q - e))

/-- The binary64 number of a sign and magnitude bits. -/
def F64.pack (s : Bool) (mag : Nat) : F64 := ⟨BitVec.ofNat 64 (mag + if s then 2 ^ 63 else 0)⟩

/-- The binary32 number of a sign and magnitude bits. -/
def F32.pack (s : Bool) (mag : Nat) : F32 := ⟨BitVec.ofNat 32 (mag + if s then 2 ^ 31 else 0)⟩

/-- `(-1)^s * m * 2^e` as a binary64 number, rounded to nearest even (R9). -/
@[irreducible] def F64.round (s : Bool) (m : Nat) (e : Int) : F64 := F64.pack s (roundMag 53 (-1074) F64.infMag m e)

/-- `(-1)^s * m * 2^e` as a binary32 number, rounded to nearest even (R11). -/
@[irreducible] def F32.round (s : Bool) (m : Nat) (e : Int) : F32 := F32.pack s (roundMag 24 (-149) F32.infMag m e)

/-! ## Exact value of a finite number: `(-1)^sign * mant * 2^expo` -/

/-- The significand as an integer, with the hidden bit of a normal number. -/
def F64.mant (x : F64) : Nat :=
  if x.mag / 2 ^ 52 = 0 then x.mag else x.mag % 2 ^ 52 + 2 ^ 52

/-- The exponent of the significand's lowest bit. -/
def F64.expo (x : F64) : Int :=
  if x.mag / 2 ^ 52 = 0 then -1074 else (x.mag / 2 ^ 52 : Nat) - 1075

/-- The significand with its sign. -/
def F64.smant (x : F64) : Int := if x.sign then -(x.mant : Int) else (x.mant : Int)

def F32.mant (x : F32) : Nat :=
  if x.mag / 2 ^ 23 = 0 then x.mag else x.mag % 2 ^ 23 + 2 ^ 23

def F32.expo (x : F32) : Int :=
  if x.mag / 2 ^ 23 = 0 then -149 else (x.mag / 2 ^ 23 : Nat) - 150

/-! ## NaN results (R203) -/

/-- A quiet binary64 NaN with the given sign (top bit) and payload. -/
def F64.quietNaN (b : BitVec 52) : F64 := ⟨b.extractLsb' 51 1 ++ 0xFFF#12 ++ b.extractLsb' 0 51⟩

/-- A quiet binary32 NaN with the given sign (top bit) and payload. -/
def F32.quietNaN (b : BitVec 23) : F32 := ⟨b.extractLsb' 22 1 ++ 0x1FF#9 ++ b.extractLsb' 0 22⟩

/-- The NaN that operation `op` delivers: "any quiet NaN" (R203). -/
@[irreducible] def nanResult (op : FOp) (x y : F64) : F64 := F64.quietNaN (Config.nanBits op x y)

/-! ## The operations of R9 -/

/-- The sum of two finite numbers. An exact zero is `+0`, but for the sum of two negative zeros. -/
def F64.addFinite (x y : F64) : F64 :=
  let e := Min.min x.expo y.expo
  let z := x.smant * (2 ^ (x.expo - e).toNat : Nat) + y.smant * (2 ^ (y.expo - e).toNat : Nat)
  if z = 0 then F64.pack (x.sign && y.sign) 0 else F64.round (decide (z < 0)) z.natAbs e

/-- The sum of two numbers that are not NaNs; `none` for a sum of opposite infinities. -/
def F64.addNumber (x y : F64) : Option F64 :=
  if x.isInf then (if y.isInf && x.sign != y.sign then none else some x)
  else if y.isInf then some y
  else some (F64.addFinite x y)

/-- `x + y`. -/
@[irreducible] def F64.add (x y : F64) : F64 :=
  if x.isNaN || y.isNaN then nanResult .add x y
  else (F64.addNumber x y).getD (nanResult .add x y)

/-- `x - y`, the sum of `x` and `-y`. -/
@[irreducible] def F64.sub (x y : F64) : F64 :=
  if x.isNaN || y.isNaN then nanResult .sub x y
  else (F64.addNumber x y.neg).getD (nanResult .sub x y)

/-- `x * y`. -/
@[irreducible] def F64.mul (x y : F64) : F64 :=
  let s := x.sign != y.sign
  if x.isNaN || y.isNaN || (x.isInf && y.isZero) || (x.isZero && y.isInf) then nanResult .mul x y
  else if x.isInf || y.isInf then F64.pack s F64.infMag
  else F64.round s (x.mant * y.mant) (x.expo + y.expo)

/-- The extra bits the quotient of two significands is computed with: enough that a rest can stand as one more,
lowest, bit. -/
def divGuard : Nat := 110

/-- `x / y`. A finite non-zero number over zero is an infinity. -/
@[irreducible] def F64.div (x y : F64) : F64 :=
  let s := x.sign != y.sign
  if x.isNaN || y.isNaN || (x.isInf && y.isInf) || (x.isZero && y.isZero) then nanResult .div x y
  else if x.isInf || y.isZero then F64.pack s F64.infMag
  else if y.isInf then F64.pack s 0
  else
    let n := x.mant * 2 ^ divGuard
    let rest := if n % y.mant = 0 then 0 else 1
    F64.round s (2 * (n / y.mant) + rest) (x.expo - y.expo - divGuard - 1)

/-- The integer square root, one bit at a time from bit `i - 1` down, of what is already known to be at least
`r^2`. -/
def isqrtFrom (m : Nat) : Nat → Nat → Nat
  | 0, r => r
  | i + 1, r => if (r + 2 ^ i) * (r + 2 ^ i) ≤ m then isqrtFrom m i (r + 2 ^ i) else isqrtFrom m i r

/-- The integer square root of a number below `2^180`. -/
@[irreducible] def isqrt (m : Nat) : Nat := isqrtFrom m 90 0

/-- `sqrt(x)`: of a negative number a NaN, of a zero that zero. -/
@[irreducible] def F64.sqrt (x : F64) : F64 :=
  if x.isNaN then nanResult .sqrt x x
  else if x.isZero then x
  else if x.sign then nanResult .sqrt x x
  else if x.isInf then x
  else
    let odd := x.expo % 2
    let m := x.mant * 2 ^ odd.toNat * 2 ^ 120
    let r := isqrt m
    let rest := if r * r = m then 0 else 1
    F64.round false (2 * r + rest) ((x.expo - odd - 120) / 2 - 1)

/-! ## Conversions (R11) and floor (R12) -/

/-- `f64(s)`: exact; a NaN stays a NaN. -/
@[irreducible] def F32.widen (x : F32) : F64 :=
  if x.isNaN then F64.quietNaN (Config.widenNan x)
  else if x.isInf then F64.pack x.sign F64.infMag
  else F64.round x.sign x.mant x.expo

/-- `f32(v)`: round to nearest even; "a magnitude too large for `F32` becomes an infinity and a NaN stays a NaN". -/
@[irreducible] def F64.narrow (x : F64) : F32 :=
  if x.isNaN then F32.quietNaN (Config.narrowNan x)
  else if x.isInf then F32.pack x.sign F32.infMag
  else F32.round x.sign x.mant x.expo

/-- `toF64(n)`, exact for `n` below 2^31 (R11); also the value of an integer literal of the rules. -/
@[irreducible] def F64.ofNat (n : Nat) : F64 := F64.round false n 0

/-- An integer literal of the rules, signed. -/
@[irreducible] def F64.lit (n : Int) : F64 := F64.round (decide (n < 0)) n.natAbs 0

/-- `floor(v)`, "the largest integer not above a finite `v`" (R12). -/
@[irreducible] def F64.floor (x : F64) : Int :=
  if 0 ≤ x.expo then x.smant * (2 ^ x.expo.toNat : Nat) else x.smant / (2 ^ (-x.expo).toNat : Nat)

end Sys2Proof
end

