-- ==== Sys2Proof/Machine/State.lean ====
section
/-! DEFINITION. The state of SVB-CORE (10_state.md R20 to R33), the values it has after power-on (R36,
70_reset_and_hazards.md R220), and the reasons a step can stop (there are no faults: 60_exceptions.md R200). -/

namespace Sys2Proof.Machine

/-- `MODE` (R21): Inactive or Active. -/
inductive Mode where
  | inactive
  | active
deriving DecidableEq, Repr

/-- A smoother: decay coefficient and current output value (R27). -/
structure Smoother where
  a : F64
  y : F64
deriving DecidableEq, Repr

/-- A symmetric envelope follower: decay coefficient and current envelope value (R28). -/
structure Follower where
  a   : F64
  env : F64
deriving DecidableEq, Repr

/-- An attack/release envelope (R33). -/
structure AttackRelease where
  aAtt : F64
  aRel : F64
  env  : F64
deriving DecidableEq, Repr

/-- The five coefficients of a biquad, `a0` normalised to 1 (R29). -/
structure Coeffs where
  b0 : F64
  b1 : F64
  b2 : F64
  a1 : F64
  a2 : F64
deriving DecidableEq, Repr

/-- A biquad: coefficients and the two state registers (R29). -/
structure Biquad where
  c  : Coeffs
  z1 : F64
  z2 : F64
deriving DecidableEq, Repr

/-- The ten biquads of one channel, slots 0 to 9 in signal order (R29, 43_filterbank.md R140). -/
structure Bank where
  uloShelf : Biquad
  uloCut   : Biquad
  uhiShelf : Biquad
  bass     : Biquad
  mid      : Biquad
  treble   : Biquad
  tiltLo   : Biquad
  tiltHi   : Biquad
  cabHp    : Biquad
  cabLp    : Biquad
deriving DecidableEq, Repr

/-- `TONE_TAG`: what the six tone and extension filters were last designed from (R26). The index is the unbounded
integer of R15. -/
structure ToneTag where
  bass    : F64
  mid     : F64
  treble  : F64
  midIdx  : Int
  ultraLo : Bool
  ultraHi : Bool
deriving DecidableEq, Repr

/-- The seven block-level registers (R31). -/
structure BlockRegs where
  inTgt      : F64
  outTgt     : F64
  baseDrive  : F64
  envClamped : F64
  dynDrive   : F64
  effDrive   : F64
  driveNorm2 : F64
deriving DecidableEq, Repr

/-- The primitive bank `P` (R33). -/
structure Prim where
  sm : Smoother
  ef : Follower
  ar : AttackRelease
  bq : Biquad
deriving DecidableEq, Repr

/-- Which registers something has written since power-on, as groups that are always written together. The MODEL's
own: a register not yet written is unspecified (R35), and reading it is a draw. `SR`, the decay coefficients of the
chain and the cabinet coefficients are written exactly when `CFG_VALID` is set, and have no flag here. -/
structure Written where
  /-- `TONE_TAG` and the coefficients of slots 0 to 5 (SETUP, BLOCK step 2). -/
  tone    : Bool
  /-- `SM_*.y`, `EF[*].env`, every `z1` and `z2`, `LAST_ENV`, `ENV_SUM` (the activation reset). -/
  running : Bool
  /-- The block-level registers and the coefficients of slots 6 and 7 (BLOCK steps 3 to 5). -/
  block   : Bool
  /-- `P.SM.a`, `P.SM.y`. -/
  smA     : Bool
  smY     : Bool
  /-- `P.EF.a`, `P.EF.env`. -/
  efA     : Bool
  efEnv   : Bool
  /-- `P.AR.aAtt` with `P.AR.aRel`, and `P.AR.env`. -/
  arA     : Bool
  arEnv   : Bool
  /-- The coefficients of `P.BQ`, and its `z1` with `z2`. -/
  bqC     : Bool
  bqZ     : Bool
deriving DecidableEq, Repr

/-- The machine. -/
structure State where
  /-- `MODE` (R21). -/
  mode      : Mode
  /-- `CFG_VALID` (R22). -/
  cfgValid  : Bool
  /-- `SR` (R23). -/
  sr        : F64
  /-- `PARAM[0..8]` (R24). -/
  param     : Vector F64 9
  /-- `TONE_TAG` (R26). -/
  toneTag   : ToneTag
  /-- `SM_IN`, `SM_OUT`, `SM_DRV` (R27). -/
  smIn      : Smoother
  smOut     : Smoother
  smDrv     : Smoother
  /-- `EF[0]` and `EF[1]` (R28). -/
  ef        : Stereo Follower
  /-- `BQ[0][0..9]` and `BQ[1][0..9]` (R29). -/
  bq        : Stereo Bank
  /-- `LAST_ENV` (R30). -/
  lastEnv   : F64
  /-- `ENV_SUM` (R30). -/
  envSum    : F64
  /-- `IN_TGT` .. `DRIVE_NORM2` (R31). -/
  blk       : BlockRegs
  /-- The primitive bank `P` (R33). -/
  prim      : Prim
  /-- The MODEL's own: which registers have been written since power-on. -/
  written   : Written
  /-- The MODEL's own: how many draws reads of unspecified registers have taken (R35, R56). -/
  draws     : Nat
  /-- The MODEL's own: the words that have arrived at the command port and are not yet consumed (R50, R51). -/
  cmd       : List Word
  /-- The MODEL's own: the words emitted on the response port, the oldest first (R50, R51). -/
  resp      : List Word
deriving DecidableEq, Repr

/-- The reasons the machine stops with a fault: none. "SVB-CORE raises no synchronous exception" and "no command can
fail after it has been decoded" (60_exceptions.md R200), so the type has no constructor. -/
inductive Fault where
deriving DecidableEq, Repr

/-- The reasons an instruction has no meaning. -/
inductive Refusal where
  /-- Raised by an arm of `exec` for an instruction the model gives no meaning to; safe: the machine stops where the
  hardware goes on. No arm raises it in this model. -/
  | notModelled (mnemonic : String)
deriving DecidableEq, Repr

/-- What a step or a meaning answers. -/
abbrev Result := Host.Outcome State Fault Refusal

/-! ## Power-on reset (70_reset_and_hazards.md R220, 10_state.md R36) -/

def Smoother.reset : Smoother := ⟨.zero, .zero⟩
def Follower.reset : Follower := ⟨.zero, .zero⟩
def AttackRelease.reset : AttackRelease := ⟨.zero, .zero, .zero⟩
def Coeffs.reset : Coeffs := ⟨.zero, .zero, .zero, .zero, .zero⟩
def Biquad.reset : Biquad := ⟨.reset, .zero, .zero⟩
def Bank.reset : Bank :=
  ⟨.reset, .reset, .reset, .reset, .reset, .reset, .reset, .reset, .reset, .reset⟩
def ToneTag.reset : ToneTag := ⟨.zero, .zero, .zero, 0, false, false⟩
def BlockRegs.reset : BlockRegs := ⟨.zero, .zero, .zero, .zero, .zero, .zero, .zero⟩
def Prim.reset : Prim := ⟨.reset, .reset, .reset, .reset⟩
def Written.reset : Written :=
  ⟨false, false, false, false, false, false, false, false, false, false, false⟩

/-- The source's "default parameters": 0.5, 0.7, 0.3, 0.5, 0.5, 0.5, 0.5, 0.0, 0.0 (R24, R220). -/
def defaultParams : Vector F64 9 :=
  #v[.half, ⟨0x3FE6666666666666#64⟩, ⟨0x3FD3333333333333#64⟩, .half, .half, .half, .half, .zero, .zero]

/-- The machine right after power-on (R220): Inactive, not set up, default parameters, the decoder at a header
boundary, the response port empty. Every other register is unspecified: the spec gives it no value, the model puts
zero in it (DESIGN CHOICE, log entry 2) and marks it as not written, so that a read of it is a draw. -/
def State.reset : State where
  mode := .inactive
  cfgValid := false
  sr := .zero
  param := defaultParams
  toneTag := .reset
  smIn := .reset
  smOut := .reset
  smDrv := .reset
  ef := ⟨.reset, .reset⟩
  bq := ⟨.reset, .reset⟩
  lastEnv := .zero
  envSum := .zero
  blk := .reset
  prim := .reset
  written := .reset
  draws := 0
  cmd := []
  resp := []

end Sys2Proof.Machine
end

