-- ==== Sys2Proof/Machine/Flags.lean ====
section
/-! DEFINITION. The one-bit state and the status word. SVB-CORE has "no condition codes, carry or overflow flags"
and "no operation writes a flag as a side effect" (10_state.md R34): its flags are `MODE` and `CFG_VALID` (R21,
R22), shown together at register address 0 (20_memory.md R55), and a response begins with a status word
(60_exceptions.md R201). -/

namespace Sys2Proof.Machine

/-- `MODE` as its bit: 0 = Inactive, 1 = Active (R21). -/
def Mode.bit : Mode → BitVec 1
  | .inactive => 0#1
  | .active => 1#1

/-- A flag as its bit. -/
def flagBit (b : Bool) : BitVec 1 := if b then 1#1 else 0#1

/-- Two flags zero-extended to 64 bits: `{62'b0, hi, lo}` (R55). -/
def flagPair (hi lo : BitVec 1) : BitVec 64 := (hi ++ lo).zeroExtend 64

/-- Register 0x0000, `{62'b0, CFG_VALID, MODE}` (R55). -/
def State.flags (s : State) : BitVec 64 := flagPair (flagBit s.cfgValid) s.mode.bit

/-- Status `OK`: "every command with a legal header, whatever it did or did not do" (R201). -/
def statusOk : Word := 0x00000000#32

/-- Status `ILLEGAL`: "the header word is illegal" (R201). -/
def statusIllegal : Word := 0x00000001#32

end Sys2Proof.Machine
end

