-- ==== Sys2Proof/Machine/Ops.lean ====
section
/-! DEFINITION. The named operations over the state that several commands share: responses, the parameter
registers, and reads of unspecified registers. SVB-CORE has no memory and no exception entry or return
(10_state.md R34, 60_exceptions.md R200, R207): "what an ISA would handle by a trap" is the one operation
`rejectHeader`. -/

namespace Sys2Proof.Machine

/-! ## The ports (20_memory.md R50, R51) -/

/-- The response of a command with a legal header: status `OK`, then the result words, after everything emitted
before (60_exceptions.md R201). -/
def State.respond (s : State) (results : List Word) : State :=
  { s with resp := s.resp ++ statusOk :: results }

/-- A response whose result is one 64-bit datum, low word first (R57). -/
def State.respond64 (s : State) (d : BitVec 64) : State := s.respond (wordsOf64 d)

/-- The outcome of an illegal header (30_encoding.md R77): its one word is consumed, no other state changes, the
response is the one word `ILLEGAL`. -/
def State.rejectHeader (s : State) (rest : List Word) : State :=
  { s with cmd := rest, resp := s.resp ++ [statusIllegal] }

/-- Words arriving at the command port after those already there: an input of the machine, not a step. -/
def State.arrive (s : State) (ws : List Word) : State := { s with cmd := s.cmd ++ ws }

/-! ## The parameter registers (10_state.md R24) -/

/-- `if pid <= 8: PARAM[pid] <- value`, otherwise nothing (44_chain_controller.md R163). -/
def State.setParam (s : State) (pid : Nat) (v : F64) : State :=
  if h : pid < 9 then { s with param := s.param.set pid v h } else s

/-- `PARAM[pid]` if `pid <= 8`, else `+0.0` (R164). -/
def State.getParam (s : State) (pid : Nat) : F64 :=
  if h : pid < 9 then s.param[pid]'h else .zero

/-! ## Reads of registers that may be unspecified (10_state.md R35, R56) -/

/-- A register's value, or the `d`-th draw where nothing has written it since power-on. -/
def readOrDraw (known : Bool) (v : F64) (d : Nat) : F64 := if known then v else Config.anyF64 d

/-- The state after a command that took `k` draws because something it reads is not known. -/
def State.drew (s : State) (known : Bool) (k : Nat) : State :=
  if known then s else { s with draws := s.draws + k }

/-- Five draws, for the coefficients of a biquad. -/
def drawCoeffs (d : Nat) : Coeffs :=
  ⟨Config.anyF64 d, Config.anyF64 (d + 1), Config.anyF64 (d + 2), Config.anyF64 (d + 3), Config.anyF64 (d + 4)⟩

/-- `P.SM` as a command reads it. -/
def State.readSm (s : State) : Smoother :=
  ⟨readOrDraw s.written.smA s.prim.sm.a s.draws, readOrDraw s.written.smY s.prim.sm.y (s.draws + 1)⟩

/-- `P.EF` as a command reads it. -/
def State.readEf (s : State) : Follower :=
  ⟨readOrDraw s.written.efA s.prim.ef.a s.draws, readOrDraw s.written.efEnv s.prim.ef.env (s.draws + 1)⟩

/-- `P.AR` as a command reads it. -/
def State.readAr (s : State) : AttackRelease :=
  ⟨readOrDraw s.written.arA s.prim.ar.aAtt s.draws, readOrDraw s.written.arA s.prim.ar.aRel (s.draws + 1),
   readOrDraw s.written.arEnv s.prim.ar.env (s.draws + 2)⟩

/-- `P.BQ` as a command reads it. -/
def State.readBq (s : State) : Biquad :=
  ⟨if s.written.bqC then s.prim.bq.c else drawCoeffs s.draws,
   readOrDraw s.written.bqZ s.prim.bq.z1 (s.draws + 5), readOrDraw s.written.bqZ s.prim.bq.z2 (s.draws + 6)⟩

end Sys2Proof.Machine
end

