-- ==== Sys2Proof/Machine/Biquad.lean ====
section
/-! DEFINITION. The biquad (41_biquad.md R110 to R120): the five design functions, the transposed Direct-Form-II
step, and the seven unit commands BQ.* on `P.BQ`. Every expression is evaluated as the pseudocode writes it; outside
the domain of R118 the IEEE results are stored as they come. -/

namespace Sys2Proof.Machine

/-! ## The common prelude (R110) -/

/-- `w0 = 2.0 * PI * f0 / sr`, left to right. -/
def designW0 (sr f0 : F64) : F64 := ((F64.two.mul .pi).mul f0).div sr

/-- `c = NUM.cos(w0)`. -/
def designCos (num : Numerics) (sr f0 : F64) : F64 := num.cos (designW0 sr f0)

/-- `alpha = NUM.sin(w0) / (2.0 * Q)`. -/
def designAlpha (num : Numerics) (sr f0 q : F64) : F64 := (num.sin (designW0 sr f0)).div (F64.two.mul q)

/-- `A = NUM.pow(10.0, g / 40.0)`. -/
def designA (num : Numerics) (g : F64) : F64 := num.pow .ten (g.div (.lit 40))

/-- `normalise`: each coefficient "a separate `F64` division" by `A0`. -/
def normalise (B0 B1 B2 A0 A1 A2 : F64) : Coeffs :=
  ⟨B0.div A0, B1.div A0, B2.div A0, A1.div A0, A2.div A0⟩

/-! ## The five designs -/

/-- The shelf term `t = 2.0 * sqrt(A) * alpha` (R111, R112). -/
def shelfTerm (A alpha : F64) : F64 := (F64.two.mul A.sqrt).mul alpha

/-- `(A + 1.0) - (A - 1.0) * c`, the sum both shelves start from. -/
def shelfMinus (A c : F64) : F64 := (A.add .one).sub ((A.sub .one).mul c)

/-- `(A + 1.0) + (A - 1.0) * c`. -/
def shelfPlus (A c : F64) : F64 := (A.add .one).add ((A.sub .one).mul c)

/-- `(A - 1.0) - (A + 1.0) * c`. -/
def shelfMidMinus (A c : F64) : F64 := (A.sub .one).sub ((A.add .one).mul c)

/-- `(A - 1.0) + (A + 1.0) * c`. -/
def shelfMidPlus (A c : F64) : F64 := (A.sub .one).add ((A.add .one).mul c)

/-- The low shelf from its prelude values (R111). -/
def shelfLow (A c alpha : F64) : Coeffs :=
  let t := shelfTerm A alpha
  normalise
    (A.mul ((shelfMinus A c).add t))
    ((F64.two.mul A).mul (shelfMidMinus A c))
    (A.mul ((shelfMinus A c).sub t))
    ((shelfPlus A c).add t)
    ((F64.lit (-2)).mul (shelfMidPlus A c))
    ((shelfPlus A c).sub t)

/-- The high shelf from its prelude values (R112). -/
def shelfHigh (A c alpha : F64) : Coeffs :=
  let t := shelfTerm A alpha
  normalise
    (A.mul ((shelfPlus A c).add t))
    (((F64.lit (-2)).mul A).mul (shelfMidPlus A c))
    (A.mul ((shelfPlus A c).sub t))
    ((shelfMinus A c).add t)
    (F64.two.mul (shelfMidMinus A c))
    ((shelfMinus A c).sub t)

/-- The peaking shape from its prelude values (R113). -/
def peaking (A c alpha : F64) : Coeffs :=
  normalise
    (F64.one.add (alpha.mul A))
    ((F64.lit (-2)).mul c)
    (F64.one.sub (alpha.mul A))
    (F64.one.add (alpha.div A))
    ((F64.lit (-2)).mul c)
    (F64.one.sub (alpha.div A))

/-- The high-pass from its prelude values (R114). -/
def highPass (c alpha : F64) : Coeffs :=
  normalise
    ((F64.one.add c).div .two)
    (F64.one.add c).neg
    ((F64.one.add c).div .two)
    (F64.one.add alpha)
    ((F64.lit (-2)).mul c)
    (F64.one.sub alpha)

/-- The low-pass from its prelude values (R115). -/
def lowPass (c alpha : F64) : Coeffs :=
  normalise
    ((F64.one.sub c).div .two)
    (F64.one.sub c)
    ((F64.one.sub c).div .two)
    (F64.one.add alpha)
    ((F64.lit (-2)).mul c)
    (F64.one.sub alpha)

/-- `designLSH(sr, f0, g, Q)` (R111). -/
def designLSH (num : Numerics) (sr f0 g q : F64) : Coeffs :=
  shelfLow (designA num g) (designCos num sr f0) (designAlpha num sr f0 q)

/-- `designHSH(sr, f0, g, Q)` (R112). -/
def designHSH (num : Numerics) (sr f0 g q : F64) : Coeffs :=
  shelfHigh (designA num g) (designCos num sr f0) (designAlpha num sr f0 q)

/-- `designPK(sr, f0, g, Q)` (R113). -/
def designPK (num : Numerics) (sr f0 g q : F64) : Coeffs :=
  peaking (designA num g) (designCos num sr f0) (designAlpha num sr f0 q)

/-- `designHPF(sr, f0, Q)` (R114). -/
def designHPF (num : Numerics) (sr f0 q : F64) : Coeffs := highPass (designCos num sr f0) (designAlpha num sr f0 q)

/-- `designLPF(sr, f0, Q)` (R115). -/
def designLPF (num : Numerics) (sr f0 q : F64) : Coeffs := lowPass (designCos num sr f0) (designAlpha num sr f0 q)

/-! ## Processing (R117) -/

/-- `bqStep(q, x)`: `y = b0*x + z1`; the new `z1 = b1*x - a1*y + z2` uses the old `z2`; the new `z2 = b2*x - a2*y`.
Answers `y` and the biquad after it; coefficients are unchanged. -/
def bqStep (q : Biquad) (x : F64) : F64 × Biquad :=
  let y := (q.c.b0.mul x).add q.z1
  (y, { q with
    z1 := ((q.c.b1.mul x).sub (q.c.a1.mul y)).add q.z2
    z2 := (q.c.b2.mul x).sub (q.c.a2.mul y) })

/-! ## The unit commands -/

/-- A design command stores five coefficients and leaves `z1`, `z2` as they are (R119). -/
def State.setPrimCoeffs (s : State) (c : Coeffs) : State :=
  { s with prim.bq.c := c, written.bqC := true }

/-- BQ.LSH (R111). -/
def execBqLsh (sr f0 gainDb q : F64) (s : State) : Result :=
  .next ((s.setPrimCoeffs (designLSH Config.cfg.num sr f0 gainDb q)).respond [])

/-- BQ.HSH (R112). -/
def execBqHsh (sr f0 gainDb q : F64) (s : State) : Result :=
  .next ((s.setPrimCoeffs (designHSH Config.cfg.num sr f0 gainDb q)).respond [])

/-- BQ.PK (R113). -/
def execBqPk (sr f0 gainDb q : F64) (s : State) : Result :=
  .next ((s.setPrimCoeffs (designPK Config.cfg.num sr f0 gainDb q)).respond [])

/-- BQ.HPF (R114): "`Q` is always an operand". -/
def execBqHpf (sr f0 q : F64) (s : State) : Result :=
  .next ((s.setPrimCoeffs (designHPF Config.cfg.num sr f0 q)).respond [])

/-- BQ.LPF (R115). -/
def execBqLpf (sr f0 q : F64) (s : State) : Result :=
  .next ((s.setPrimCoeffs (designLPF Config.cfg.num sr f0 q)).respond [])

/-- BQ.RST (R116): `P.BQ.z1 <- +0.0`, `P.BQ.z2 <- +0.0`; coefficients unchanged. -/
def execBqRst (s : State) : Result :=
  .next ({ s with prim.bq.z1 := .zero, prim.bq.z2 := .zero, written.bqZ := true }.respond [])

/-- BQ.STEP (R117): `bqStep(P.BQ, x)`. Coefficients or states never written since power-on are drawn (U9); drawn
coefficients are not stored. -/
def execBqStep (x : F64) (s : State) : Result :=
  let r := bqStep s.readBq x
  let s' := s.drew (s.written.bqC && s.written.bqZ) 7
  .next ({ s' with prim.bq.z1 := r.2.z1, prim.bq.z2 := r.2.z2, written.bqZ := true }.respond64 r.1.bits)

end Sys2Proof.Machine
end

