-- ==== Sys2Proof/Machine/Params.lean ====
section
/-! DEFINITION. The parameter mapping functions, "each a pure function of one `PARAM` register, evaluated in `F64`
as written" (10_state.md R25), and the constant tables they index (00_scope.md R6, 43_filterbank.md R141, R142). -/

namespace Sys2Proof.Machine

/-- `db2lin(d) = NUM.pow(10.0, d / 20.0)` (00_scope.md R12). -/
def db2lin (num : Numerics) (d : F64) : F64 := num.pow .ten (d.div (.lit 20))

/-- `inGainDb(v) = outGainDb(v) = -24.0 + 48.0 * v`. -/
def gainDb (v : F64) : F64 := (F64.lit (-24)).add ((F64.lit 48).mul v)

/-- `inGainLin(v) = outGainLin(v) = db2lin(gainDb(v))`. -/
def gainLin (num : Numerics) (v : F64) : F64 := db2lin num (gainDb v)

/-- `baseDrive(v) = 1.0 + v * 19.0`. -/
def baseDriveOf (v : F64) : F64 := F64.one.add (v.mul (.lit 19))

/-- `toneDb(v, R) = (v - 0.5) * 2.0 * R`. -/
def toneDb (v range : F64) : F64 := ((v.sub .half).mul .two).mul range

/-- `midIdx(v) = min(4, floor(5.0 * v))`, an unbounded integer (00_scope.md R15). Where `5.0 * v` is not finite its
floor, which the spec does not define, is a free value (U5). -/
def midIdx (v : F64) : Int :=
  let p := (F64.lit 5).mul v
  Min.min 4 (if p.isFinite then p.floor else Config.floorNonFinite p)

/-- `toggle(v) = (v > 0.5) or (TOGGLE_HALF_ON and v = 0.5)`. -/
def toggle (c : Cfg) (v : F64) : Bool := F64.half.lt v || (c.toggleHalfOn && v.eq .half)

/-- `MIDF = [220.0, 450.0, 800.0, 1600.0, 3000.0]` (43_filterbank.md R141); an index outside 0..4 has no entry, and
the frequency is a free value (U5). -/
def midFreq (idx : Int) : F64 :=
  match idx with
  | 0 => .lit 220
  | 1 => .lit 450
  | 2 => .lit 800
  | 3 => .lit 1600
  | 4 => .lit 3000
  | i => Config.midFreqOutside i

/-- `ULO_SHELF_DB`: off 0.0, on +2.0 (R142). -/
def uloShelfDb (on : Bool) : F64 := if on then .lit 2 else .zero

/-- `ULO_CUT_DB`: off 0.0, on -10.0 (R142). -/
def uloCutDb (on : Bool) : F64 := if on then .lit (-10) else .zero

/-- `UHI_SHELF_DB`: off 0.0, on +9.0 (R142). -/
def uhiShelfDb (on : Bool) : F64 := if on then .lit 9 else .zero

/-- The tag of the current parameters: the raw tone values and the three mapped selectors (R26, R167). -/
def tagOf (c : Cfg) (p : Vector F64 9) : ToneTag :=
  ⟨p[3], p[4], p[5], midIdx p[6], toggle c p[7], toggle c p[8]⟩

/-- `cur = TONE_TAG`: the three floats "by value with the IEEE rule that a NaN differs from everything", the index
and the bits exactly (44_chain_controller.md R167). -/
def ToneTag.same (t u : ToneTag) : Bool :=
  t.bass.eq u.bass && t.mid.eq u.mid && t.treble.eq u.treble &&
    decide (t.midIdx = u.midIdx) && t.ultraLo == u.ultraLo && t.ultraHi == u.ultraHi

end Sys2Proof.Machine
end

