-- ==== Sys2Proof/Machine/FilterBank.lean ====
section
/-! DEFINITION. The filter bank (43_filterbank.md R140 to R149): the internal operations `FB.TONE`, `FB.TILT`, `FB.CAB`,
`FB.RST`, `FB.PRE`, `FB.POST`, which have no encoding and are invoked by the controller commands only. A design
writes both channels from the same operands (10_state.md R32) and never touches `z1`, `z2` (41_biquad.md R119). -/

namespace Sys2Proof.Machine

/-- New coefficients, the state registers as they are (R119). -/
def Biquad.retune (q : Biquad) (c : Coeffs) : Biquad := { q with c := c }

/-- The state registers at +0.0, the coefficients as they are (R145). -/
def Biquad.clear (q : Biquad) : Biquad := { q with z1 := .zero, z2 := .zero }

/-! ## Coefficient operations -/

/-- The coefficients of slots 0 to 5. -/
structure ToneCoeffs where
  c0 : Coeffs
  c1 : Coeffs
  c2 : Coeffs
  c3 : Coeffs
  c4 : Coeffs
  c5 : Coeffs
deriving DecidableEq, Repr

/-- `C0` .. `C5` of `FB.TONE` (R141), from the sample rate and the tag. -/
def designTone (c : Cfg) (sr : F64) (t : ToneTag) : ToneCoeffs where
  c0 := designLSH c.num sr c.fUloShelf (uloShelfDb t.ultraLo) c.qShelf
  c1 := designPK c.num sr c.fUloCut (uloCutDb t.ultraLo) c.qUloCut
  c2 := designHSH c.num sr c.fUhi (uhiShelfDb t.ultraHi) c.qShelf
  c3 := designLSH c.num sr (.lit 40) (toneDb t.bass c.bassRangeDb) c.qShelf
  c4 := designPK c.num sr (midFreq t.midIdx) (toneDb t.mid c.midRangeDb) c.qMid
  c5 := designHSH c.num sr (.lit 4000) (toneDb t.treble c.trebleRangeDb) c.qShelf

/-- Slots 0 to 5 of one channel retuned. -/
def Bank.setTone (b : Bank) (t : ToneCoeffs) : Bank :=
  { b with
    uloShelf := b.uloShelf.retune t.c0, uloCut := b.uloCut.retune t.c1, uhiShelf := b.uhiShelf.retune t.c2
    bass := b.bass.retune t.c3, mid := b.mid.retune t.c4, treble := b.treble.retune t.c5 }

/-- Slots 6 and 7 of one channel retuned. -/
def Bank.setTilt (b : Bank) (c6 c7 : Coeffs) : Bank :=
  { b with tiltLo := b.tiltLo.retune c6, tiltHi := b.tiltHi.retune c7 }

/-- Slots 8 and 9 of one channel retuned. -/
def Bank.setCab (b : Bank) (c8 c9 : Coeffs) : Bank :=
  { b with cabHp := b.cabHp.retune c8, cabLp := b.cabLp.retune c9 }

/-- Every state register of one channel at +0.0. -/
def Bank.clear (b : Bank) : Bank where
  uloShelf := b.uloShelf.clear
  uloCut := b.uloCut.clear
  uhiShelf := b.uhiShelf.clear
  bass := b.bass.clear
  mid := b.mid.clear
  treble := b.treble.clear
  tiltLo := b.tiltLo.clear
  tiltHi := b.tiltHi.clear
  cabHp := b.cabHp.clear
  cabLp := b.cabLp.clear

/-- `FB.TONE` (R141): slots 0 to 5 of both channels from the current parameters and `SR`; also `TONE_TAG`. -/
def fbTone (c : Cfg) (s : State) : State :=
  let t := tagOf c s.param
  let d := designTone c s.sr t
  { s with bq := ⟨s.bq.left.setTone d, s.bq.right.setTone d⟩, toneTag := t, written.tone := true }

/-- `FB.TILT(dn)` (R143): low shelf `-3.0 * dn` dB at 40 Hz, high shelf `-4.0 * dn` dB at 4000 Hz, both channels. -/
def fbTilt (c : Cfg) (dn : F64) (s : State) : State :=
  let c6 := designLSH c.num s.sr (.lit 40) ((F64.lit (-3)).mul dn) c.qShelf
  let c7 := designHSH c.num s.sr (.lit 4000) ((F64.lit (-4)).mul dn) c.qShelf
  { s with bq := ⟨s.bq.left.setTilt c6 c7, s.bq.right.setTilt c6 c7⟩ }

/-- `FB.CAB` (R144): high-pass at 55 Hz and low-pass at 5200 Hz, both Q 0.707, both channels. -/
def fbCab (c : Cfg) (s : State) : State :=
  let c8 := designHPF c.num s.sr (.lit 55) c.qCab
  let c9 := designLPF c.num s.sr (.lit 5200) c.qCab
  { s with bq := ⟨s.bq.left.setCab c8 c9, s.bq.right.setCab c8 c9⟩ }

/-- `FB.RST` (R145): the states of all twenty instances at +0.0, coefficients untouched. -/
def fbRst (s : State) : State := { s with bq := ⟨s.bq.left.clear, s.bq.right.clear⟩ }

/-! ## Signal operations -/

/-- `FB.PRE(ch, x)` (R146): the six pre-saturation filters of one channel, in slot order. -/
def fbPre (b : Bank) (x : F64) : F64 × Bank :=
  let r0 := bqStep b.uloShelf x
  let r1 := bqStep b.uloCut r0.1
  let r2 := bqStep b.uhiShelf r1.1
  let r3 := bqStep b.bass r2.1
  let r4 := bqStep b.mid r3.1
  let r5 := bqStep b.treble r4.1
  (r5.1, { b with
    uloShelf := r0.2, uloCut := r1.2, uhiShelf := r2.2, bass := r3.2, mid := r4.2, treble := r5.2 })

/-- `FB.POST(ch, x)` (R147): the four post-saturation filters of one channel, in slot order. -/
def fbPost (b : Bank) (x : F64) : F64 × Bank :=
  let r6 := bqStep b.tiltLo x
  let r7 := bqStep b.tiltHi r6.1
  let r8 := bqStep b.cabHp r7.1
  let r9 := bqStep b.cabLp r8.1
  (r9.1, { b with tiltLo := r6.2, tiltHi := r7.2, cabHp := r8.2, cabLp := r9.2 })

end Sys2Proof.Machine
end

