-- ==== Sys2Proof/Machine/Saturation.lean ====
section
/-! DEFINITION. The saturation stage (42_saturation.md R130 to R133): single-stage, stateless, no clip. -/

namespace Sys2Proof.Machine

/-- `sat(x, drive)`: `u = x * drive`, `v = u + ASYM * (u * u)`, `NUM.tanh(v) - NUM.tanh(BIAS_OFFSET)` (R130). -/
def sat (c : Cfg) (x drive : F64) : F64 :=
  let u := x.mul drive
  let v := u.add (c.asym.mul (u.mul u))
  (c.num.tanh v).sub (c.num.tanh c.biasOffset)

/-- SAT (R130): the result is `sat(x, drive)`; no state is written. -/
def execSat (x drive : F64) (s : State) : Result :=
  .next (s.respond64 (sat Config.cfg x drive).bits)

end Sys2Proof.Machine
end

