-- ==== Sys2Proof/Machine/Smoothing.lean ====
section
/-! DEFINITION. The smoothing primitives (40_smoothing.md R90 to R100): the functions `decay`, `smStep`, `efStep` that
the chain calls too, and the nine unit commands SM.*, EF.*, AR.* on the primitive bank. A STEP on an instance that
was never configured or reset reads unspecified registers: it draws their values and is "the ordinary function of
them" (93_implementation_defined.md U9). -/

namespace Sys2Proof.Machine

/-- The minimum smoother time 0.001 ms (00_scope.md R6). -/
def minSmootherMs : F64 := ⟨0x3F50624DD2F1A9FC#64⟩

/-- `decay(ms, sr)`: `tau = max(0.001, ms) / 1000.0`, `a = NUM.exp(-(1.0 / (tau * sr)))` (R90). -/
def decay (num : Numerics) (ms sr : F64) : F64 :=
  let tau := (minSmootherMs.max ms).div (.lit 1000)
  num.exp (F64.one.div (tau.mul sr)).neg

/-- `smStep(a, y, x) = a * y + (1.0 - a) * x` (R93). -/
def smStep (a y x : F64) : F64 := (a.mul y).add ((F64.one.sub a).mul x)

/-- `efStep(a, env, x) = smStep(a, env, abs(x))` (R96). -/
def efStep (a env x : F64) : F64 := smStep a env x.abs

/-- The new envelope of AR.STEP: with `r = abs(x)`, `c * env + (1.0 - c) * r`, `c` the attack coefficient if
`r > env` and the release coefficient otherwise (R99). -/
def arStep (u : AttackRelease) (x : F64) : F64 :=
  smStep (if u.env.lt x.abs then u.aAtt else u.aRel) u.env x.abs

/-! ## Smoother -/

/-- SM.CFG (R91): `P.SM.a <- decay(ms, sr)`; `P.SM.y` unchanged. -/
def execSmCfg (ms sr : F64) (s : State) : Result :=
  .next ({ s with prim.sm.a := decay Config.cfg.num ms sr, written.smA := true }.respond [])

/-- SM.RST (R92): `P.SM.y <- v`; `P.SM.a` unchanged. -/
def execSmRst (v : F64) (s : State) : Result :=
  .next ({ s with prim.sm.y := v, written.smY := true }.respond [])

/-- SM.STEP (R93): `P.SM.y <- smStep(P.SM.a, P.SM.y, x)`; the result is the new `P.SM.y`. -/
def execSmStep (x : F64) (s : State) : Result :=
  let y := smStep s.readSm.a s.readSm.y x
  let s' := s.drew (s.written.smA && s.written.smY) 2
  .next ({ s' with prim.sm.y := y, written.smY := true }.respond64 y.bits)

/-! ## Symmetric envelope follower -/

/-- EF.CFG (R94): `P.EF.a <- decay(ms, sr)`; `P.EF.env` unchanged. -/
def execEfCfg (ms sr : F64) (s : State) : Result :=
  .next ({ s with prim.ef.a := decay Config.cfg.num ms sr, written.efA := true }.respond [])

/-- EF.RST (R95): `P.EF.env <- +0.0`. -/
def execEfRst (s : State) : Result :=
  .next ({ s with prim.ef.env := .zero, written.efEnv := true }.respond [])

/-- EF.STEP (R96): `P.EF.env <- efStep(P.EF.a, P.EF.env, x)`; the result is the new `P.EF.env`. -/
def execEfStep (x : F64) (s : State) : Result :=
  let env := efStep s.readEf.a s.readEf.env x
  let s' := s.drew (s.written.efA && s.written.efEnv) 2
  .next ({ s' with prim.ef.env := env, written.efEnv := true }.respond64 env.bits)

/-! ## Attack/release envelope -/

/-- AR.CFG (R97): `P.AR.aAtt <- decay(attackMs, sr)`; `P.AR.aRel <- decay(releaseMs, sr)`; `P.AR.env` unchanged. -/
def execArCfg (attackMs releaseMs sr : F64) (s : State) : Result :=
  .next ({ s with
    prim.ar.aAtt := decay Config.cfg.num attackMs sr
    prim.ar.aRel := decay Config.cfg.num releaseMs sr
    written.arA := true }.respond [])

/-- AR.RST (R98): `P.AR.env <- +0.0`. -/
def execArRst (s : State) : Result :=
  .next ({ s with prim.ar.env := .zero, written.arEnv := true }.respond [])

/-- AR.STEP (R99): the new `P.AR.env`, which is the result. -/
def execArStep (x : F64) (s : State) : Result :=
  let env := arStep s.readAr x
  let s' := s.drew (s.written.arA && s.written.arEnv) 3
  .next ({ s' with prim.ar.env := env, written.arEnv := true }.respond64 env.bits)

end Sys2Proof.Machine
end

