-- ==== Sys2Proof/Machine/Chain.lean ====
section
/-! DEFINITION. The body of BLOCK (44_chain_controller.md R166 to R172): steps 1 to 5, the frames, the block end, and
what an unspecified register gives to a body that runs before any SETUP (93_implementation_defined.md U1). -/

namespace Sys2Proof.Machine

/-! ## Steps 1 to 5 -/

/-- One event record: `PARAM[pid] <- value` if it is well formed and `pid <= 8` (R166). -/
def applyEvent (s : State) (e : Event) : State := if e.applies then s.setParam e.pid e.value else s

/-- Step 1 (R166): every record in payload order, so that the last one for a parameter wins. -/
def applyEvents (events : List Event) (s : State) : State := events.foldl applyEvent s

/-- Step 2 (R167): `if cur != TONE_TAG: FB.TONE`. -/
def toneStep (c : Cfg) (s : State) : State := if (tagOf c s.param).same s.toneTag then s else fbTone c s

/-- Step 4 (R169): `ENV_CLAMPED`. -/
def envClampedOf (lastEnv : F64) : F64 := (lastEnv.mul (.lit 3)).clamp .zero .one

/-- Step 4 (R169): `DYN_DRIVE`. -/
def dynDriveOf (envClamped : F64) : F64 := F64.one.add ((F64.lit 8).mul envClamped)

/-- Step 5 (R170): `DRIVE_NORM2`, the source's `driveNorm'`. -/
def driveNorm2Of (effDrive : F64) : F64 := ((effDrive.sub .one).div (.lit 12)).clamp .zero .one

/-- The block-level registers of steps 3 to 5 (R168 to R170), from the parameters and the feedback register. -/
def blockRegsOf (c : Cfg) (p : Vector F64 9) (lastEnv : F64) : BlockRegs :=
  let base := baseDriveOf p[2]
  let clamped := envClampedOf lastEnv
  let dyn := dynDriveOf clamped
  let eff := base.mul dyn
  ⟨gainLin c.num p[0], gainLin c.num p[1], base, clamped, dyn, eff, driveNorm2Of eff⟩

/-- Steps 3 to 5: the block-level registers and the tilt filters. -/
def targetStep (c : Cfg) (s : State) : State :=
  let r := blockRegsOf c s.param s.lastEnv
  fbTilt c r.driveNorm2 { s with blk := r, written.block := true }

/-! ## Frames (R171) -/

/-- What one channel of a frame leaves: its follower, its filters, its output sample. -/
structure ChannelOut where
  ef   : Follower
  bank : Bank
  out  : F32
deriving DecidableEq, Repr

/-- Steps b to h of one channel, with the smoothed gains and drive of step a: `x = gi * f64(In)`, the pre filters,
the follower as a side chain, `sat(x, dv)`, the post filters, `Out = f32(go * s)`. -/
def channelFrame (c : Cfg) (gi go dv : F64) (ef : Follower) (b : Bank) (inp : F32) : ChannelOut :=
  let pre := fbPre b (gi.mul inp.widen)
  let env := efStep ef.a ef.env pre.1
  let post := fbPost pre.2 (sat c pre.1 dv)
  ⟨{ ef with env := env }, post.2, (go.mul post.1).narrow⟩

/-- The three smoothers after step a: each advances "once per frame, not once per channel". -/
def smoothStep (s : State) : State :=
  { s with
    smIn.y := smStep s.smIn.a s.smIn.y s.blk.inTgt
    smOut.y := smStep s.smOut.a s.smOut.y s.blk.outTgt
    smDrv.y := smStep s.smDrv.a s.smDrv.y s.blk.effDrive }

/-- Frame `i` on the samples `In(0, i)`, `In(1, i)`: the state after it, and `Out(0, i)`, `Out(1, i)`. -/
def frame (c : Cfg) (s : State) (inp : F32 × F32) : State × F32 × F32 :=
  let s := smoothStep s
  let l := channelFrame c s.smIn.y s.smOut.y s.smDrv.y s.ef.left s.bq.left inp.1
  let r := channelFrame c s.smIn.y s.smOut.y s.smDrv.y s.ef.right s.bq.right inp.2
  ({ s with
      ef := ⟨l.ef, r.ef⟩
      bq := ⟨l.bank, r.bank⟩
      envSum := s.envSum.add ((l.ef.env.add r.ef.env).mul .half) },
   l.out, r.out)

/-- The frames in order: the state after them and the output words `Out(0,0), Out(1,0), Out(0,1), ..` (R73). -/
def runFrames (c : Cfg) : List (F32 × F32) → State → State × List Word
  | [], s => (s, [])
  | f :: fs, s =>
    let r := frame c s f
    let q := runFrames c fs r.1
    (q.1, r.2.1.bits :: r.2.2.bits :: q.2)

/-- Block end (R172): `LAST_ENV <- ENV_SUM / toF64(max(1, n))`. -/
def blockEnd (n : Int) (s : State) : State :=
  { s with lastEnv := s.envSum.div (.ofNat (Max.max 1 n).toNat) }

/-- Steps 1 to 5 and the start of the sample loop, `ENV_SUM <- +0.0` (R165). -/
def blockStart (c : Cfg) (events : List Event) (s : State) : State :=
  { targetStep c (toneStep c (applyEvents events s)) with envSum := .zero }

/-- The body of BLOCK (R165): the state after it and the output words. -/
def blockBody (c : Cfg) (nin : BitVec 4) (n : Word) (events : List Event) (samples : List F32) (s : State) :
    State × List Word :=
  let r := runFrames c (framesOf nin.toNat (frameCount n) samples) (blockStart c events s)
  (blockEnd (sampleCount n) r.1, r.2)

/-! ## A body before any SETUP (U1; log entry 7)

"A model that prefers totality may instead run the body over `any value` coefficients" (U1): every unspecified
register the body reads takes a draw for the length of the command, and what the body does not write is unspecified
after it as it was before. -/

/-- The ten coefficient sets of one channel that SETUP would have written, drawn: slots 8 and 9. -/
def Bank.drawCab (b : Bank) (d : Nat) : Bank := b.setCab (drawCoeffs d) (drawCoeffs (d + 5))

/-- Slots 0 to 5 drawn. -/
def Bank.drawTone (b : Bank) (d : Nat) : Bank :=
  b.setTone ⟨drawCoeffs d, drawCoeffs (d + 5), drawCoeffs (d + 10), drawCoeffs (d + 15), drawCoeffs (d + 20),
    drawCoeffs (d + 25)⟩

/-- Draws for what only SETUP writes: `SR`, the decay coefficients, the cabinet coefficients (26 draws). -/
def State.drawSetup (s : State) (d : Nat) : State :=
  { s with
    sr := Config.anyF64 d
    smIn.a := Config.anyF64 (d + 1)
    smOut.a := Config.anyF64 (d + 2)
    smDrv.a := Config.anyF64 (d + 3)
    ef := ⟨{ s.ef.left with a := Config.anyF64 (d + 4) }, { s.ef.right with a := Config.anyF64 (d + 5) }⟩
    bq := ⟨s.bq.left.drawCab (d + 6), s.bq.right.drawCab (d + 16)⟩ }

/-- Draws for what SETUP and step 2 write: `TONE_TAG` and slots 0 to 5 (66 draws). -/
def State.drawTone (s : State) (d : Nat) : State :=
  { s with
    toneTag := ⟨Config.anyF64 d, Config.anyF64 (d + 1), Config.anyF64 (d + 2), (Config.anyIndex (d + 3)).val,
      Config.anyBit (d + 4), Config.anyBit (d + 5)⟩
    bq := ⟨s.bq.left.drawTone (d + 6), s.bq.right.drawTone (d + 36)⟩ }

/-- The state the body of a BLOCK before any SETUP starts from. -/
def State.drawUnset (s : State) : State :=
  let t := s.drawSetup s.draws
  { (if s.written.tone then t else t.drawTone (s.draws + 26)) with draws := s.draws + 92 }

/-- The coefficients of slots 8 and 9 as they stand in another bank. -/
def Bank.keepCab (b old : Bank) : Bank := b.setCab old.cabHp.c old.cabLp.c

/-- The coefficients of slots 0 to 5 as they stand in another bank. -/
def Bank.keepTone (b old : Bank) : Bank :=
  b.setTone ⟨old.uloShelf.c, old.uloCut.c, old.uhiShelf.c, old.bass.c, old.mid.c, old.treble.c⟩

/-- After the body: what only SETUP writes stands as before the command. -/
def State.keepSetup (s old : State) : State :=
  { s with
    sr := old.sr
    smIn.a := old.smIn.a
    smOut.a := old.smOut.a
    smDrv.a := old.smDrv.a
    ef := ⟨{ s.ef.left with a := old.ef.left.a }, { s.ef.right with a := old.ef.right.a }⟩
    bq := ⟨s.bq.left.keepCab old.bq.left, s.bq.right.keepCab old.bq.right⟩ }

/-- After a body that did not redesign: `TONE_TAG` and slots 0 to 5 stand as before the command. -/
def State.keepTone (s old : State) : State :=
  { s with toneTag := old.toneTag, bq := ⟨s.bq.left.keepTone old.bq.left, s.bq.right.keepTone old.bq.right⟩ }

/-- The body of a BLOCK in a machine that was never set up. -/
def blockBodyUnset (c : Cfg) (nin : BitVec 4) (n : Word) (events : List Event) (samples : List F32) (s : State) :
    State × List Word :=
  let r := blockBody c nin n events samples s.drawUnset
  let t := r.1.keepSetup s
  (if t.written.tone then t else t.keepTone s, r.2)

end Sys2Proof.Machine
end

