-- ==== Sys2Proof/Machine/RegisterMap.lean ====
section
/-! DEFINITION. The register space (20_memory.md R55), read-only and read by RD alone. An entry is a known 64-bit
value, or one of the forms of an unspecified register (93_implementation_defined.md U6). -/

namespace Sys2Proof.Machine

/-- What an address of the register space reads as. -/
inductive Reading where
  /-- These 64 bits. -/
  | known (v : BitVec 64)
  /-- Any `F64`: an unspecified register (10_state.md R35). -/
  | anyF64
  /-- Any legal index: `TONE_TAG.midIdx` while unspecified (U6). -/
  | anyIndex
  /-- Any two bits: the toggles of `TONE_TAG` while unspecified (U6). -/
  | anyBits
deriving DecidableEq, Repr

/-- A float register that is specified only once written. -/
def readF64 (written : Bool) (v : F64) : Reading := if written then .known v.bits else .anyF64

/-- `TONE_TAG.midIdx` as 64 bits: "integer 0..4" zero-extended (R55). R55 gives an index outside 0..4 no form, and it
reads as a free value. -/
def midIdxBits (i : Int) : BitVec 64 :=
  if 0 ≤ i ∧ i ≤ 4 then BitVec.ofNat 64 i.toNat else Config.midIdxBitsOutside i

/-- The biquad of a slot, in the numbering of 10_state.md R29. -/
def Bank.slot (b : Bank) : Nat → Option Biquad
  | 0 => some b.uloShelf
  | 1 => some b.uloCut
  | 2 => some b.uhiShelf
  | 3 => some b.bass
  | 4 => some b.mid
  | 5 => some b.treble
  | 6 => some b.tiltLo
  | 7 => some b.tiltHi
  | 8 => some b.cabHp
  | 9 => some b.cabLp
  | _ => none

/-- Field `r` of a biquad: 0 `b0`, 1 `b1`, 2 `b2`, 3 `a1`, 4 `a2`, 5 `z1`, 6 `z2`; "r = 7 reads zero". -/
def readBiquad (q : Biquad) (coeffs states : Bool) : Nat → Reading
  | 0 => readF64 coeffs q.c.b0
  | 1 => readF64 coeffs q.c.b1
  | 2 => readF64 coeffs q.c.b2
  | 3 => readF64 coeffs q.c.a1
  | 4 => readF64 coeffs q.c.a2
  | 5 => readF64 states q.z1
  | 6 => readF64 states q.z2
  | _ => .known 0#64

/-- Whether the coefficients of a slot have been written: 0 to 5 by SETUP or step 2, 6 and 7 by a block, 8 and 9 by
SETUP (10_state.md R36). -/
def State.slotWritten (s : State) (k : Nat) : Bool :=
  if k < 6 then s.written.tone else if k < 8 then s.written.block else s.cfgValid

/-- `BQ[ch][k]` field `r` at offset `8*k + r` of a channel's window. -/
def readWindow (s : State) (b : Bank) (offset : Nat) : Reading :=
  match b.slot (offset / 8) with
  | none => .known 0#64
  | some q => readBiquad q (s.slotWritten (offset / 8)) s.written.running (offset % 8)

/-- The addresses below 0x0100. -/
def readControl (s : State) : Nat → Reading
  | 0x00 => .known s.flags
  | 0x01 => readF64 s.cfgValid s.sr
  | 0x02 => .known s.param[0].bits
  | 0x03 => .known s.param[1].bits
  | 0x04 => .known s.param[2].bits
  | 0x05 => .known s.param[3].bits
  | 0x06 => .known s.param[4].bits
  | 0x07 => .known s.param[5].bits
  | 0x08 => .known s.param[6].bits
  | 0x09 => .known s.param[7].bits
  | 0x0A => .known s.param[8].bits
  | 0x10 => readF64 s.written.running s.lastEnv
  | 0x11 => readF64 s.written.running s.envSum
  | 0x12 => readF64 s.written.block s.blk.inTgt
  | 0x13 => readF64 s.written.block s.blk.outTgt
  | 0x14 => readF64 s.written.block s.blk.baseDrive
  | 0x15 => readF64 s.written.block s.blk.envClamped
  | 0x16 => readF64 s.written.block s.blk.dynDrive
  | 0x17 => readF64 s.written.block s.blk.effDrive
  | 0x18 => readF64 s.written.block s.blk.driveNorm2
  | 0x20 => readF64 s.cfgValid s.smIn.a
  | 0x21 => readF64 s.written.running s.smIn.y
  | 0x22 => readF64 s.cfgValid s.smOut.a
  | 0x23 => readF64 s.written.running s.smOut.y
  | 0x24 => readF64 s.cfgValid s.smDrv.a
  | 0x25 => readF64 s.written.running s.smDrv.y
  | 0x28 => readF64 s.cfgValid s.ef.left.a
  | 0x29 => readF64 s.written.running s.ef.left.env
  | 0x2A => readF64 s.cfgValid s.ef.right.a
  | 0x2B => readF64 s.written.running s.ef.right.env
  | 0x30 => readF64 s.written.tone s.toneTag.bass
  | 0x31 => readF64 s.written.tone s.toneTag.mid
  | 0x32 => readF64 s.written.tone s.toneTag.treble
  | 0x33 => if s.written.tone then .known (midIdxBits s.toneTag.midIdx) else .anyIndex
  | 0x34 =>
    if s.written.tone then .known (flagPair (flagBit s.toneTag.ultraHi) (flagBit s.toneTag.ultraLo)) else .anyBits
  | _ => .known 0#64

/-- The addresses from 0x0200 up: the primitive bank. -/
def readPrim (s : State) : Nat → Reading
  | 0x200 => readF64 s.written.smA s.prim.sm.a
  | 0x201 => readF64 s.written.smY s.prim.sm.y
  | 0x208 => readF64 s.written.efA s.prim.ef.a
  | 0x209 => readF64 s.written.efEnv s.prim.ef.env
  | 0x210 => readF64 s.written.arA s.prim.ar.aAtt
  | 0x211 => readF64 s.written.arA s.prim.ar.aRel
  | 0x212 => readF64 s.written.arEnv s.prim.ar.env
  | 0x218 => readBiquad s.prim.bq s.written.bqC s.written.bqZ 0
  | 0x219 => readBiquad s.prim.bq s.written.bqC s.written.bqZ 1
  | 0x21A => readBiquad s.prim.bq s.written.bqC s.written.bqZ 2
  | 0x21B => readBiquad s.prim.bq s.written.bqC s.written.bqZ 3
  | 0x21C => readBiquad s.prim.bq s.written.bqC s.written.bqZ 4
  | 0x21D => readBiquad s.prim.bq s.written.bqC s.written.bqZ 5
  | 0x21E => readBiquad s.prim.bq s.written.bqC s.written.bqZ 6
  | _ => .known 0#64

/-- The register map of R55: "addresses not listed read as zero". -/
def readReg (s : State) (addr : Nat) : Reading :=
  if addr < 0x100 then readControl s addr
  else if addr < 0x180 then readWindow s s.bq.left (addr - 0x100)
  else if addr < 0x200 then readWindow s s.bq.right (addr - 0x180)
  else readPrim s addr

/-- A reading as 64 bits, the `d`-th draw where it is open. -/
def Reading.bits (d : Nat) : Reading → BitVec 64
  | .known v => v
  | .anyF64 => (Config.anyF64 d).bits
  | .anyIndex => BitVec.ofNat 64 (Config.anyIndex d).val
  | .anyBits => flagPair (flagBit (Config.anyBit d)) (flagBit (Config.anyBit (d + 1)))

/-- Whether a reading needs no draw. -/
def Reading.isKnown : Reading → Bool
  | .known _ => true
  | .anyF64 | .anyIndex | .anyBits => false

end Sys2Proof.Machine
end

