-- ==== Sys2Proof/Machine/Controller.lean ====
section
/-! DEFINITION. The controller commands SETUP, SETACT, PSET, PGET, BLOCK and RD (44_chain_controller.md R160 to R175)
and the activation reset (70_reset_and_hazards.md R221). -/

namespace Sys2Proof.Machine

/-! ## Lifecycle -/

/-- Lines 1 to 5 of SETUP (R161), in order: `SR`, the decay coefficients, `FB.CAB`, `FB.TONE`, `CFG_VALID`. -/
def setup (c : Cfg) (sr : F64) (s : State) : State :=
  let aEnv := decay c.num c.msEnv sr
  let s1 := { s with
    sr := sr
    smIn.a := decay c.num c.msIn sr
    smOut.a := decay c.num c.msOut sr
    smDrv.a := decay c.num c.msDrv sr
    ef := ⟨{ s.ef.left with a := aEnv }, { s.ef.right with a := aEnv }⟩ }
  { fbTone c (fbCab c s1) with cfgValid := true }

/-- SETUP (R161). The precondition on `sr` is "the caller's duty, not checked": outside it the lines still execute. -/
def execSetup (sr : F64) (s : State) : Result := .next ((setup Config.cfg sr s).respond [])

/-- The activation reset (R221): every stateful element of the chain, nothing else. -/
def activationReset (c : Cfg) (s : State) : State :=
  let t := fbRst s
  { t with
    smIn.y := c.initIn
    smOut.y := c.initOut
    smDrv.y := c.initDrv
    ef := ⟨{ s.ef.left with env := .zero }, { s.ef.right with env := .zero }⟩
    lastEnv := .zero
    envSum := .zero
    written.running := true }

/-- `SETACT active` (R162): the reset "exactly once per activation transition". -/
def setActive (c : Cfg) (active : Bool) (s : State) : State :=
  match active, s.mode with
  | true, .inactive => { activationReset c s with mode := .active }
  | true, .active => s
  | false, _ => { s with mode := .inactive }

/-- SETACT (R162). -/
def execSetact (active : Bool) (s : State) : Result := .next ((setActive Config.cfg active s).respond [])

/-! ## Parameters -/

/-- PSET (R163): "the value is stored unmodified"; `pid` 9..255 is a silent no-op. -/
def execPset (pid : BitVec 8) (value : F64) (s : State) : Result := .next ((s.setParam pid.toNat value).respond [])

/-- PGET (R164): the register, or +0.0 for `pid` 9..255. -/
def execPget (pid : BitVec 8) (s : State) : Result := .next (s.respond64 (s.getParam pid.toNat).bits)

/-! ## BLOCK -/

/-- The shape of a block is not degenerate: `nin >= 2`, `nout >= 2`, `n > 0` (R165, R174). -/
def blockShape (nin nout : BitVec 4) (n : Word) : Bool :=
  decide (2 ≤ nin.toNat) && decide (2 ≤ nout.toNat) && decide (0 < sampleCount n)

/-- BLOCK as R165 dispatches it: nothing while Inactive (R175), nothing for a degenerate shape (R174), else the
body; before any SETUP the body over drawn values (U1). -/
def block (c : Cfg) (nin nout : BitVec 4) (n : Word) (events : List Event) (samples : List F32) (s : State) :
    State × List Word :=
  match s.mode with
  | .inactive => (s, [])
  | .active =>
    if blockShape nin nout n then
      if s.cfgValid then blockBody c nin n events samples s else blockBodyUnset c nin n events samples s
    else (s, [])

/-- BLOCK (R165): status `OK`, and the output words of a body that ran. -/
def execBlock (nin nout : BitVec 4) (n : Word) (events : List Event) (samples : List F32) (s : State) : Result :=
  let r := block Config.cfg nin nout n events samples s
  .next (r.1.respond r.2)

/-! ## Register read -/

/-- RD (R173): the 64 bits of the register map; an unspecified register gives a fresh draw. -/
def execRd (addr : BitVec 16) (s : State) : Result :=
  let r := readReg s addr.toNat
  .next ((s.drew r.isKnown 2).respond64 (r.bits s.draws))

end Sys2Proof.Machine
end

