-- ==== Sys2Proof/Machine/Dispatch.lean ====
section
/-! DEFINITION. One arm per command: `exec` gives each its meaning (30_encoding.md R71, R72). -/

namespace Sys2Proof.Machine

/-- What a decoded command does to the state from which its words have been consumed. -/
def exec (i : Instr) (s : State) : Host.Outcome State Fault Refusal :=
  match i with
  | .setup sr => Sys2Proof.Machine.execSetup sr s
  | .setact active => Sys2Proof.Machine.execSetact active s
  | .pset pid value => Sys2Proof.Machine.execPset pid value s
  | .pget pid => Sys2Proof.Machine.execPget pid s
  | .block nin nout n events samples => Sys2Proof.Machine.execBlock nin nout n events samples s
  | .rd addr => Sys2Proof.Machine.execRd addr s
  | .smCfg ms sr => Sys2Proof.Machine.execSmCfg ms sr s
  | .smRst v => Sys2Proof.Machine.execSmRst v s
  | .smStep x => Sys2Proof.Machine.execSmStep x s
  | .efCfg ms sr => Sys2Proof.Machine.execEfCfg ms sr s
  | .efRst => Sys2Proof.Machine.execEfRst s
  | .efStep x => Sys2Proof.Machine.execEfStep x s
  | .arCfg attackMs releaseMs sr => Sys2Proof.Machine.execArCfg attackMs releaseMs sr s
  | .arRst => Sys2Proof.Machine.execArRst s
  | .arStep x => Sys2Proof.Machine.execArStep x s
  | .bqLsh sr f0 gainDb q => Sys2Proof.Machine.execBqLsh sr f0 gainDb q s
  | .bqHsh sr f0 gainDb q => Sys2Proof.Machine.execBqHsh sr f0 gainDb q s
  | .bqPk sr f0 gainDb q => Sys2Proof.Machine.execBqPk sr f0 gainDb q s
  | .bqHpf sr f0 q => Sys2Proof.Machine.execBqHpf sr f0 q s
  | .bqLpf sr f0 q => Sys2Proof.Machine.execBqLpf sr f0 q s
  | .bqRst => Sys2Proof.Machine.execBqRst s
  | .bqStep x => Sys2Proof.Machine.execBqStep x s
  | .sat x drive => Sys2Proof.Machine.execSat x drive s

end Sys2Proof.Machine
end

