-- ==== Sys2Proof/Machine/Step.lean ====
section
/-! DEFINITION. One step of the machine: the decoder takes the next command from the command port and it executes
atomically, its whole effect and its whole response in this one step (00_scope.md R13, 20_memory.md R51). -/

namespace Sys2Proof.Machine

/-- One step. A whole command is consumed and executed; an illegal header is consumed and answered `ILLEGAL`
(30_encoding.md R77); while a command's words have not all arrived "the command waits for its remaining words" and
nothing changes (60_exceptions.md R204). -/
def step (s : State) : Host.Outcome State Fault Refusal :=
  match decode s.cmd with
  | .command i rest => exec i { s with cmd := rest }
  | .illegal _ rest => .next (s.rejectHeader rest)
  | .incomplete => .next s

/-- The state in which the command whose lowest `nbits` bits are `w`, numbered as spec/opcode_table.json numbers them,
stands first at the command port: the very next step runs it. Commands reach the machine from outside only, so this
stands for the host's sending it (log entry 8). -/
def State.withFetchWord (s : State) (nbits w : Nat) : State := { s with cmd := tableWords nbits w ++ s.cmd }

end Sys2Proof.Machine
end

