-- ==== Sys2Proof/Machine/Assembler.lean ====
section
/-! DEFINITION. The assembler of 30_encoding.md R79 and the pseudo-commands of R80: from the lines of a program to
commands and to the words of the command stream. Both are this spec's own ("the source has no assembler", D40); the
machine does not use them. A line the syntax does not admit is refused as a whole (`none`). -/

namespace Sys2Proof

/-! ## Parameter names and pseudo-commands -/

/-- The names that "may be written for pids 0 to 8" (R79, 10_state.md R24), in the order of their pids. -/
def paramNames : List String :=
  ["P_IN", "P_OUT", "P_DRIVE", "P_BASS", "P_MID", "P_TREBLE", "P_MIDFREQ", "P_ULO", "P_UHI"]

/-- A pseudo-command (R80). -/
inductive Pseudo where
  | activate
  | deactivate
  | reactivate
  /-- `PSETI <idx>`, "with idx in 0..4". -/
  | pseti (idx : Fin 5)
  /-- `TOGGLE <pid>, on` / `off`, pid 8 if `hi`, else pid 7. -/
  | toggle (hi on : Bool)
  /-- `SILENCE n=<k>`. -/
  | silence (n : Word)
deriving DecidableEq, Repr

/-- `<idx>/4`: 0.0, 0.25, 0.5, 0.75, 1.0. -/
def quarter (idx : Fin 5) : F64 := F64.round false idx.val (-2)

/-- The commands a pseudo-command stands for (R80). -/
def Pseudo.expand : Pseudo → List Instr
  | .activate => [.setact true]
  | .deactivate => [.setact false]
  | .reactivate => [.setact false, .setact true]
  | .pseti idx => [.pset 6#8 (quarter idx)]
  | .toggle hi on => [.pset (if hi then 8#8 else 7#8) (if on then .one else .zero)]
  | .silence n => [.block 2#4 2#4 n [] (List.replicate (2 * frameCount n) ⟨0#32⟩)]

/-! ## Tokens -/

/-- A line is words and the marks `, = [ ] ( )`. -/
inductive Token where
  | word (cs : List Char)
  | mark (c : Char)
deriving DecidableEq, Repr

/-- The word collected so far, its characters in reverse, as tokens. -/
def flushWord (w : List Char) : List Token := if w.isEmpty then [] else [.word w.reverse]

/-- The tokens of a line, after the characters `w` of a word under way; a comment runs from `;` to the end. -/
def tokensFrom : List Char → List Char → List Token
  | w, [] => flushWord w
  | w, c :: cs =>
    if c = ';' then flushWord w
    else if c = ' ' ∨ c = '\t' ∨ c = '\r' then flushWord w ++ tokensFrom [] cs
    else if c ∈ [',', '=', '[', ']', '(', ')'] then flushWord w ++ .mark c :: tokensFrom [] cs
    else tokensFrom (c :: w) cs

/-! ## Numbers -/

/-- The value of a digit in a base up to 16. -/
def digitOf (base : Nat) (c : Char) : Option Nat :=
  let v := if '0' ≤ c ∧ c ≤ '9' then some (c.toNat - 48)
    else if 'a' ≤ c ∧ c ≤ 'f' then some (c.toNat - 87)
    else if 'A' ≤ c ∧ c ≤ 'F' then some (c.toNat - 55)
    else none
  v.filter fun d => decide (d < base)

/-- The number of a string of digits, continued from `acc`. -/
def digitsFrom (base : Nat) : Nat → List Char → Option Nat
  | acc, [] => some acc
  | acc, c :: cs => (digitOf base c).bind fun d => digitsFrom base (base * acc + d) cs

/-- The number of a string of digits that is not empty. -/
def digits (base : Nat) (cs : List Char) : Option Nat := if cs.isEmpty then none else digitsFrom base 0 cs

/-- "decimal or `0x` hex for integers". -/
def natLit : List Char → Option Nat
  | '0' :: 'x' :: cs => digits 16 cs
  | cs => digits 10 cs

/-- What `number` reads, with an optional sign before it. -/
def signed (number : List Char → Option Nat) : List Char → Option Int
  | '-' :: cs => (number cs).map fun n => -(n : Int)
  | '+' :: cs => (number cs).map fun n => (n : Int)
  | cs => (number cs).map fun n => (n : Int)

/-- An integer with an optional sign. -/
def intLit : List Char → Option Int := signed natLit

/-- A natural number below a bound. -/
def natBelow (bound : Nat) (cs : List Char) : Option Nat := (natLit cs).filter fun n => decide (n < bound)

/-- A decimal number: sign, `m`, and the exponent `e` of `m * 10^e`. -/
structure Decimal where
  neg : Bool
  m   : Nat
  e   : Int
deriving DecidableEq, Repr

/-- A decimal floating-point literal: digits, an optional fraction, an optional exponent. R79 does not give the literal's
form; that an exponent is `e` or `E`, an optional sign and decimal digits, never `0x` hex, is a DESIGN CHOICE (log entry
17). -/
def decimalLit (cs : List Char) : Option Decimal :=
  let neg := cs.head? = some '-'
  let body := match cs with
    | '-' :: rest => rest
    | '+' :: rest => rest
    | rest => rest
  let isE (c : Char) : Bool := c = 'e' || c = 'E'
  let significand := body.takeWhile fun c => !isE c
  let exponent := (body.dropWhile fun c => !isE c).drop 1
  let whole := significand.takeWhile (· ≠ '.')
  let fraction := (significand.dropWhile (· ≠ '.')).drop 1
  let e := if body.any isE then signed (digits 10) exponent else some 0
  (digits 10 (whole ++ fraction)).bind fun m => e.map fun e => ⟨neg, m, e - fraction.length⟩

/-- A decimal number as a binary fraction `m * 2^e`, its inexact rest standing as one more, lowest, bit: no rounding
happens before the one that delivers the operand. -/
def Decimal.toBinary (d : Decimal) : Nat × Int :=
  if 0 ≤ d.e then (d.m * 10 ^ d.e.toNat, 0)
  else
    let den := 10 ^ (-d.e).toNat
    let guard := 64 + Nat.log2 den
    let n := d.m * 2 ^ guard
    (2 * (n / den) + (if n % den = 0 then 0 else 1), -(guard : Int) - 1)

/-- An `f64` operand: a decimal literal to nearest even, or `0x` and 16 hex digits for the bit pattern. -/
def f64Lit : List Char → Option F64
  | '0' :: 'x' :: cs => if cs.length = 16 then (digits 16 cs).map fun n => ⟨BitVec.ofNat 64 n⟩ else none
  | cs => (decimalLit cs).map fun d => F64.round d.neg d.toBinary.1 d.toBinary.2

/-- An `f32` operand: a decimal literal to nearest even, or `0x` and 8 hex digits for the bit pattern. -/
def f32Lit : List Char → Option F32
  | '0' :: 'x' :: cs => if cs.length = 8 then (digits 16 cs).map fun n => ⟨BitVec.ofNat 32 n⟩ else none
  | cs => (decimalLit cs).map fun d => F32.round d.neg d.toBinary.1 d.toBinary.2

/-- A `pid`: an integer of 8 bits or a parameter name. -/
def pidLit (cs : List Char) : Option (BitVec 8) :=
  match paramNames.findIdx? fun n => n.toList = cs with
  | some k => some (BitVec.ofNat 8 k)
  | none => (natBelow 256 cs).map (BitVec.ofNat 8)

/-! ## Operands -/

/-- The words of a line's operands, separated by commas. -/
def commaWords : List Token → Option (List (List Char))
  | [] => some []
  | [.word w] => some [w]
  | .word w :: .mark ',' :: rest => if rest.isEmpty then none else (commaWords rest).map (w :: ·)
  | _ => none

/-- The rest of a parenthesised tuple: its words, and the tokens after `)`. -/
def tupleRest : List Token → Option (List (List Char) × List Token)
  | .word w :: .mark ')' :: rest => some ([w], rest)
  | .word w :: .mark ',' :: rest => (tupleRest rest).map fun r => (w :: r.1, r.2)
  | _ => none

/-- The rest of a tuple after its `(`: `()` is the tuple without words (the tuples of a BLOCK with `nin=0`; log entry 17). -/
def tupleWords : List Token → Option (List (List Char) × List Token)
  | .mark ')' :: rest => some ([], rest)
  | rest => tupleRest rest

/-- A list of tuples up to its `]`, at most `fuel` of them; the tokens after the `]`. R79 does not say whether a comma may
stand after the last tuple: it may not (DESIGN CHOICE, log entry 17). -/
def tuplesRest : Nat → List Token → Option (List (List (List Char)) × List Token)
  | _, .mark ']' :: rest => some ([], rest)
  | fuel + 1, .mark '(' :: rest =>
    (tupleWords rest).bind fun r =>
      match r.2 with
      | .mark ']' :: rest => some ([r.1], rest)
      | .mark ',' :: .mark '(' :: rest => (tuplesRest fuel (.mark '(' :: rest)).map fun q => (r.1 :: q.1, q.2)
      | _ => none
  | _, _ => none

/-- A bracketed list of tuples after its name, or nothing where the name does not follow. -/
def namedTuples (name : String) : List Token → Option (List (List (List Char)) × List Token)
  | .word w :: .mark '=' :: .mark '[' :: rest =>
    if w = name.toList then tuplesRest rest.length rest else some ([], .word w :: .mark '=' :: .mark '[' :: rest)
  | rest => some ([], rest)

/-- An event of the assembler's syntax. -/
def eventOf : List (List Char) → Option Event
  | [p, v] => (pidLit p).bind fun pid => (f64Lit v).map fun value => ⟨pid.zeroExtend 32, value⟩
  | _ => none

/-- The frames of a BLOCK: `n` tuples of `nin` samples each. With `nin=0` no frame carries a sample, and R79 does not show
how that is written: `n` empty tuples `()`, and the list omitted or empty too (DESIGN CHOICE, log entry 17). -/
def framesLit (nin n : Nat) (tuples : List (List (List Char))) : Option (List F32) :=
  if (tuples.length = n ∨ (nin = 0 ∧ tuples = [])) ∧ tuples.all (fun t => decide (t.length = nin)) then
    tuples.flatten.mapM f32Lit
  else none

/-- `nin=<u4> nout=<u4> n=<i32> ev=[...] in=[...]`; the lists "may be omitted when empty". -/
def blockOperands : List Token → Option Instr
  | .word nin :: .mark '=' :: .word a :: .word nout :: .mark '=' :: .word b :: .word n :: .mark '=' :: .word c ::
      rest => do
    let i ← natBelow 16 a
    let o ← natBelow 16 b
    let k ← (intLit c).filter fun k => decide (-2 ^ 31 ≤ k ∧ k < 2 ^ 31)
    let ev ← namedTuples "ev" rest
    let ins ← namedTuples "in" ev.2
    let events ← ev.1.mapM eventOf
    let samples ← framesLit i (frameCount (BitVec.ofInt 32 k)) ins.1
    if nin = "nin".toList ∧ nout = "nout".toList ∧ n = "n".toList ∧ ins.2 = [] ∧ events.length < 2 ^ 16 then
      some (.block (BitVec.ofNat 4 i) (BitVec.ofNat 4 o) (BitVec.ofInt 32 k) events samples)
    else none
  | _ => none

/-- So many `f64` operands, and no more. -/
def operands0 (i : Instr) : List (List Char) → Option Instr
  | [] => some i
  | _ => none

def operands1 (k : F64 → Instr) : List (List Char) → Option Instr
  | [a] => (f64Lit a).map k
  | _ => none

def operands2 (k : F64 → F64 → Instr) : List (List Char) → Option Instr
  | [a, b] => do some (k (← f64Lit a) (← f64Lit b))
  | _ => none

def operands3 (k : F64 → F64 → F64 → Instr) : List (List Char) → Option Instr
  | [a, b, c] => do some (k (← f64Lit a) (← f64Lit b) (← f64Lit c))
  | _ => none

def operands4 (k : F64 → F64 → F64 → F64 → Instr) : List (List Char) → Option Instr
  | [a, b, c, d] => do some (k (← f64Lit a) (← f64Lit b) (← f64Lit c) (← f64Lit d))
  | _ => none

/-- The operand parsers of every mnemonic but BLOCK, from the words between the commas. -/
def operandParsers : List (String × (List (List Char) → Option Instr)) :=
  [("SETUP", operands1 .setup),
   ("SETACT", fun | [a] => (natBelow 2 a).map fun b => .setact (decide (b = 1)) | _ => none),
   ("PSET", fun | [p, v] => do some (.pset (← pidLit p) (← f64Lit v)) | _ => none),
   ("PGET", fun | [p] => (pidLit p).map .pget | _ => none),
   ("RD", fun | [a] => (natBelow (2 ^ 16) a).map fun n => .rd (BitVec.ofNat 16 n) | _ => none),
   ("SM.CFG", operands2 .smCfg), ("SM.RST", operands1 .smRst), ("SM.STEP", operands1 .smStep),
   ("EF.CFG", operands2 .efCfg), ("EF.RST", operands0 .efRst), ("EF.STEP", operands1 .efStep),
   ("AR.CFG", operands3 .arCfg), ("AR.RST", operands0 .arRst), ("AR.STEP", operands1 .arStep),
   ("BQ.LSH", operands4 .bqLsh), ("BQ.HSH", operands4 .bqHsh), ("BQ.PK", operands4 .bqPk),
   ("BQ.HPF", operands3 .bqHpf), ("BQ.LPF", operands3 .bqLpf), ("BQ.RST", operands0 .bqRst), ("BQ.STEP", operands1 .bqStep),
   ("SAT", operands2 .sat)]

/-- `on` or `off`. -/
def onOff (cs : List Char) : Option Bool :=
  if cs = "on".toList then some true else if cs = "off".toList then some false else none

/-- A pseudo-command from its name and the tokens after it (R80). -/
def pseudoOf (name : List Char) (rest : List Token) : Option Pseudo :=
  if name = "ACTIVATE".toList then (if rest = [] then some .activate else none)
  else if name = "DEACTIVATE".toList then (if rest = [] then some .deactivate else none)
  else if name = "REACTIVATE".toList then (if rest = [] then some .reactivate else none)
  else if name = "PSETI".toList then
    match rest with
    | [.word a] => (natLit a).bind fun n => if h : n < 5 then some (.pseti ⟨n, h⟩) else none
    | _ => none
  else if name = "TOGGLE".toList then
    match rest with
    | [.word p, .mark ',', .word v] =>
      (pidLit p).bind fun pid => (onOff v).bind fun on =>
        if pid = 7#8 then some (.toggle false on) else if pid = 8#8 then some (.toggle true on) else none
    | _ => none
  else if name = "SILENCE".toList then
    match rest with
    | [.word n, .mark '=', .word k] =>
      if n = "n".toList then (natBelow (2 ^ 31) k).map fun k => .silence (BitVec.ofNat 32 k) else none
    | _ => none
  else none

/-- The commands of one line, none for an empty one; `none` for a line the syntax does not admit. -/
def assembleLine (line : List Char) : Option (List Instr) :=
  match tokensFrom [] line with
  | [] => some []
  | .word name :: rest =>
    if name = "BLOCK".toList then (blockOperands rest).map fun i => [i]
    else
      match operandParsers.find? fun p => p.1.toList = name with
      | some p => (commaWords rest).bind fun ws => (p.2 ws).map fun i => [i]
      | none => (pseudoOf name rest).map Pseudo.expand
  | .mark _ :: _ => none

/-- The lines of a text. -/
def linesOf : List Char → List (List Char)
  | [] => [[]]
  | c :: cs =>
    if c = '\n' then [] :: linesOf cs
    else
      match linesOf cs with
      | [] => [[c]]
      | l :: ls => (c :: l) :: ls

/-- The words of the command stream that a program's text stands for, "one command per line". -/
def assemble (text : String) : Option (List Word) :=
  ((linesOf text.toList).mapM assembleLine).map fun is => is.flatten.flatMap encode

end Sys2Proof
end

