-- ==== Sys2Proof/Safety.lean ====
section
/-! DEFINITION. The terms in which statements speak of the machine: the exact value of a float, the invariant of the
reachable states, silence, what the two channels may know of each other, and what counts as a safe answer. Nothing
here is executed. -/

namespace Sys2Proof

/-! ## Values -/

/-- The exact value of a finite number. -/
def F64.val (x : F64) : ℚ := (if x.sign then -1 else 1) * x.mant * (2 : ℚ) ^ x.expo

/-- The exact value of a finite binary32 number. -/
def F32.val (x : F32) : ℚ := (if x.sign then -1 else 1) * x.mant * (2 : ℚ) ^ x.expo

/-- `r` is nearest to the exact number `v` among the finite numbers, and where another finite value is just as near
the significand of `r` is even. -/
def NearestEven (r : F64) (v : ℚ) : Prop :=
  ∀ z : F64, z.isFinite = true →
    |r.val - v| ≤ |z.val - v| ∧ (|r.val - v| = |z.val - v| → z.val ≠ r.val → r.mant % 2 = 0)

/-- `r` is the exact number `v` under round-to-nearest, ties-to-even (00_scope.md R9): the nearest finite number, or
the infinity of its sign from half a unit past the largest finite number on. -/
def RoundsTo (r : F64) (v : ℚ) : Prop :=
  if |v| < 2 ^ 1024 - 2 ^ 970 then r.isFinite = true ∧ NearestEven r v
  else r = if v < 0 then F64.negInf else F64.posInf

/-- `r` is nearest to the exact number `v` among the finite binary32 numbers, and where another finite value is just as
near the significand of `r` is even. -/
def NearestEven32 (r : F32) (v : ℚ) : Prop :=
  ∀ z : F32, z.isFinite = true →
    |r.val - v| ≤ |z.val - v| ∧ (|r.val - v| = |z.val - v| → z.val ≠ r.val → r.mant % 2 = 0)

/-- `r` is the exact number `v` rounded to binary32 (00_scope.md R11): the nearest finite number, or "a magnitude too large
for `F32` becomes an infinity" from half a unit past the largest finite number on. -/
def RoundsTo32 (r : F32) (v : ℚ) : Prop :=
  if |v| < 2 ^ 128 - 2 ^ 103 then r.isFinite = true ∧ NearestEven32 r v
  else r = if v < 0 then ⟨0xFF800000#32⟩ else ⟨0x7F800000#32⟩

/-- `0 <= x <= 1`. -/
def F64.InUnit (x : F64) : Prop := F64.zero.le x = true ∧ x.le .one = true

/-! ## The two groups of commands -/

/-- A unit command: it acts "on the primitive bank `P` and on nothing else" (30_encoding.md R72). -/
def Instr.isUnit : Instr → Bool
  | .setup _ | .setact _ | .pset _ _ | .pget _ | .block _ _ _ _ _ | .rd _ => false
  | .smCfg _ _ | .smRst _ | .smStep _ | .efCfg _ _ | .efRst | .efStep _ | .arCfg _ _ _ | .arRst | .arStep _ => true
  | .bqLsh _ _ _ _ | .bqHsh _ _ _ _ | .bqPk _ _ _ _ | .bqHpf _ _ _ | .bqLpf _ _ _ | .bqRst | .bqStep _ => true
  | .sat _ _ => true

end Sys2Proof

namespace Sys2Proof.Machine

/-! ## Answers -/

/-- A safe answer: the machine goes on. "No command can fail after it has been decoded" (60_exceptions.md R200). -/
def Completes (r : Result) : Prop := ∃ t, r = .next t

/-! ## The invariant of the reachable states -/

/-- What has been written follows the lifecycle: an Active machine has been through the activation reset, and a
machine that was set up has a tone tag (10_state.md R35, R36). -/
structure State.Ordered (s : State) : Prop where
  running : s.mode = .active → s.written.running = true
  tone    : s.cfgValid = true → s.written.tone = true

/-- The six tone and extension filters of two banks have the same coefficients. -/
def Bank.SameTone (a b : Bank) : Prop :=
  a.uloShelf.c = b.uloShelf.c ∧ a.uloCut.c = b.uloCut.c ∧ a.uhiShelf.c = b.uhiShelf.c ∧
  a.bass.c = b.bass.c ∧ a.mid.c = b.mid.c ∧ a.treble.c = b.treble.c

/-- The tilt filters of two banks have the same coefficients. -/
def Bank.SameTilt (a b : Bank) : Prop := a.tiltLo.c = b.tiltLo.c ∧ a.tiltHi.c = b.tiltHi.c

/-- The cabinet filters of two banks have the same coefficients. -/
def Bank.SameCab (a b : Bank) : Prop := a.cabHp.c = b.cabHp.c ∧ a.cabLp.c = b.cabLp.c

/-- The state registers `z1`, `z2` of two banks are the same, slot by slot. -/
def Bank.SameRunning (a b : Bank) : Prop :=
  ∀ (k : Nat) (p q : Biquad), a.slot k = some p → b.slot k = some q → p.z1 = q.z1 ∧ p.z2 = q.z2

/-- The channel symmetry of 10_state.md R32, for the coefficients that have been written. -/
structure State.Symmetric (s : State) : Prop where
  follower : s.cfgValid = true → s.ef.left.a = s.ef.right.a
  tone     : s.written.tone = true → s.bq.left.SameTone s.bq.right
  tilt     : s.written.block = true → s.bq.left.SameTilt s.bq.right
  cab      : s.cfgValid = true → s.bq.left.SameCab s.bq.right

/-- The coefficients of slots 0 to 5 of a bank are these. -/
def Bank.HasTone (b : Bank) (t : ToneCoeffs) : Prop :=
  b.uloShelf.c = t.c0 ∧ b.uloCut.c = t.c1 ∧ b.uhiShelf.c = t.c2 ∧
  b.bass.c = t.c3 ∧ b.mid.c = t.c4 ∧ b.treble.c = t.c5

/-- Once the machine is set up, the tone filters are the design of `TONE_TAG` at the rate `SR` (10_state.md R26), and
the decay and cabinet coefficients are those of `SR` (R27 to R29). -/
structure State.Tuned (c : Cfg) (s : State) : Prop where
  tone  : s.cfgValid = true → s.bq.left.HasTone (designTone c s.sr s.toneTag)
  cabHp : s.cfgValid = true → s.bq.left.cabHp.c = designHPF c.num s.sr (.lit 55) c.qCab
  cabLp : s.cfgValid = true → s.bq.left.cabLp.c = designLPF c.num s.sr (.lit 5200) c.qCab
  smIn  : s.cfgValid = true → s.smIn.a = decay c.num c.msIn s.sr
  smOut : s.cfgValid = true → s.smOut.a = decay c.num c.msOut s.sr
  smDrv : s.cfgValid = true → s.smDrv.a = decay c.num c.msDrv s.sr
  ef    : s.cfgValid = true → s.ef.left.a = decay c.num c.msEnv s.sr

/-- The invariant every step keeps. -/
structure State.Inv (s : State) : Prop where
  ordered   : s.Ordered
  symmetric : s.Symmetric
  tuned     : s.Tuned Config.cfg

/-! ## Silence (44_chain_controller.md R176) -/

/-- All coefficients of a filter are finite. -/
def Coeffs.Finite (c : Coeffs) : Prop :=
  c.b0.isFinite = true ∧ c.b1.isFinite = true ∧ c.b2.isFinite = true ∧ c.a1.isFinite = true ∧ c.a2.isFinite = true

/-- The state registers of a filter are zero, of either sign. -/
def Biquad.AtRest (q : Biquad) : Prop := q.z1.isZero = true ∧ q.z2.isZero = true

/-- A property of every filter of a bank. -/
def Bank.All (P : Biquad → Prop) (b : Bank) : Prop :=
  P b.uloShelf ∧ P b.uloCut ∧ P b.uhiShelf ∧ P b.bass ∧ P b.mid ∧ P b.treble ∧
  P b.tiltLo ∧ P b.tiltHi ∧ P b.cabHp ∧ P b.cabLp

/-- Every `z1`, `z2` and `env` of the chain, and the envelope sum, is zero. -/
structure State.Silent (s : State) : Prop where
  left  : s.bq.left.All Biquad.AtRest
  right : s.bq.right.All Biquad.AtRest
  envL  : s.ef.left.env.isZero = true
  envR  : s.ef.right.env.isZero = true
  sum   : s.envSum.isZero = true

/-- Every coefficient that a frame multiplies by is finite. -/
structure State.FiniteCoeffs (s : State) : Prop where
  left  : s.bq.left.All fun q => q.c.Finite
  right : s.bq.right.All fun q => q.c.Finite
  efL   : s.ef.left.a.isFinite = true
  efR   : s.ef.right.a.isFinite = true

/-- The three smoothed values are finite. -/
def State.FiniteGains (s : State) : Prop :=
  s.smIn.y.isFinite = true ∧ s.smOut.y.isFinite = true ∧ s.smDrv.y.isFinite = true

/-! ## What one channel may know of the other (10_state.md R32) -/

/-- Two states that agree on everything the left channel of a frame reads or keeps. -/
structure LeftAgree (s t : State) : Prop where
  smIn  : s.smIn = t.smIn
  smOut : s.smOut = t.smOut
  smDrv : s.smDrv = t.smDrv
  blk   : s.blk = t.blk
  ef    : s.ef.left = t.ef.left
  bq    : s.bq.left = t.bq.left

/-- Two states that agree on everything the right channel of a frame reads or keeps. -/
structure RightAgree (s t : State) : Prop where
  smIn  : s.smIn = t.smIn
  smOut : s.smOut = t.smOut
  smDrv : s.smDrv = t.smDrv
  blk   : s.blk = t.blk
  ef    : s.ef.right = t.ef.right
  bq    : s.bq.right = t.bq.right

/-- The output words of the left channel: the first word of each frame of the output. -/
def leftWords : List Word → List Word
  | l :: _ :: rest => l :: leftWords rest
  | _ => []

/-- The output words of the right channel: the second word of each frame of the output. -/
def rightWords : List Word → List Word
  | _ :: r :: rest => r :: rightWords rest
  | _ => []

/-! ## What a command answers -/

/-- How many result words follow the status word (30_encoding.md R71 to R73). -/
def resultWords (i : Instr) (s : State) : Nat :=
  match i with
  | .pget _ | .rd _ | .smStep _ | .efStep _ | .arStep _ | .bqStep _ | .sat _ _ => 2
  | .block nin nout n _ _ =>
    if s.mode = .active ∧ blockShape nin nout n = true then 2 * frameCount n else 0
  | .setup _ | .setact _ | .pset _ _ | .smCfg _ _ | .smRst _ | .efCfg _ _ | .efRst | .arCfg _ _ _ | .arRst
  | .bqLsh _ _ _ _ | .bqHsh _ _ _ _ | .bqPk _ _ _ _ | .bqHpf _ _ _ | .bqLpf _ _ _ | .bqRst => 0

end Sys2Proof.Machine
end

