-- ==== Sys2Proof/Certificates/Slice0/Obligations.lean ====
section
/-! DEFINITION. The statements about SVB-CORE, from the numbered rules of spec/. `Config.cfg` is the hardware's
configuration, whose open fields are opaque: a statement holds for every admissible value of them. -/

open Sys2Proof Sys2Proof.Machine

/-! ## Encoding -/

/-- R70 to R75, R57: the decoder gives back every well-formed command from its words, whatever follows them. -/
def Obligations.DecodeOfEncode : Prop :=
  ∀ (i : Instr) (rest : List Word), i.WellFormed → decode (encode i ++ rest) = .command i rest

/-- R70 to R76: the words of a decoded command are the encoder's and no others, and the command is well formed. -/
def Obligations.EncodeOfDecode : Prop :=
  ∀ (ws rest : List Word) (i : Instr), decode ws = .command i rest → i.WellFormed ∧ ws = encode i ++ rest

/-- R81's worked examples: words written out from the encoding tables decode to the commands they stand for. -/
def Obligations.WorkedWordsDecode : Prop :=
  decode [0x01000000, 0x00000000, 0x40E77000] = .command (.setup ⟨0x40E7700000000000#64⟩) [] ∧
  decode [0x02000001] = .command (.setact true) [] ∧
  decode [0x03070000, 0x00000000, 0x3FF00000] = .command (.pset 7#8 .one) [] ∧
  decode [0x04020000] = .command (.pget 2#8) [] ∧
  decode [0x060001A4] = .command (.rd 0x01A4#16) [] ∧
  decode [0x05220001, 0x00000001, 0x00000002, 0x00000000, 0x3FE00000, 0x3F000000, 0x3F000000] =
    .command (.block 2#4 2#4 1#32 [⟨2#32, .half⟩] [⟨0x3F000000#32⟩, ⟨0x3F000000#32⟩]) [] ∧
  decode [0x28000000, 0x00000000, 0x3FE00000, 0x00000000, 0x3FF00000] = .command (.sat .half .one) [] ∧
  decode [0x26000000, 0x00000000, 0x3FE00000] = .command (.bqStep .half) []

/-- R77: a header is illegal exactly when its opcode is one of those listed or a field shown as 0 is nonzero; only
its own word is consumed. -/
def Obligations.IllegalHeadersAreTheReservedOnes : Prop :=
  ∀ (h : Word) (rest : List Word),
    let op := (opField h).toNat
    let unknown := op = 0x00 ∨ (0x07 ≤ op ∧ op ≤ 0x0F) ∨ op = 0x13 ∨ op = 0x17 ∨ (0x1B ≤ op ∧ op ≤ 0x1F) ∨
      op = 0x27 ∨ 0x29 ≤ op
    let reserved :=
      if op = 0x05 then False
      else if op = 0x06 then aField h ≠ 0#8
      else if op = 0x03 ∨ op = 0x04 then bField h ≠ 0#16
      else if op = 0x02 then aField h ≠ 0#8 ∨ 2 ≤ (bField h).toNat
      else aField h ≠ 0#8 ∨ bField h ≠ 0#16
    (decode (h :: rest) = .illegal .unknownOpcode rest ↔ unknown) ∧
    (decode (h :: rest) = .illegal .nonzeroReserved rest ↔ ¬unknown ∧ reserved) ∧
    (∀ why rest', decode (h :: rest) = .illegal why rest' → rest' = rest)

/-- R76, R204: a command waits exactly while fewer words have arrived than its header (and, for BLOCK, its first
payload word) announce. -/
def Obligations.WaitsExactlyForMissingWords : Prop :=
  ∀ (h : Word) (rest : List Word),
    decode (h :: rest) = .incomplete ↔
      (∃ r ∈ opcodeRows, r.covers h = true) ∧ rest.length < payloadLength h (rest.headD 0#32)

/-! ## The step -/

/-- A step runs the decoded command on the state from which its words have been consumed (R13, R51). -/
def Obligations.StepRunsDecodedCommand : Prop :=
  ∀ (s : State) (i : Instr) (rest : List Word),
    decode s.cmd = .command i rest → step s = exec i { s with cmd := rest }

/-- R77: an illegal header consumes one word, changes no state, and answers `ILLEGAL`. -/
def Obligations.IllegalHeaderOnlyAnswersIllegal : Prop :=
  ∀ (s : State) (why : IllegalHeader) (rest : List Word),
    decode s.cmd = .illegal why rest →
      step s = .next { s with cmd := rest, resp := s.resp ++ [0x00000001#32] }

/-- R204: until all words of a command have arrived no state changes and no response word is emitted. -/
def Obligations.IncompleteCommandChangesNothing : Prop :=
  ∀ s : State, decode s.cmd = .incomplete → step s = .next s

/-- R200: no step ends in a fault or a refusal. Where the spec leaves `refuse` (R202 row 6 and U1: a BLOCK of good shape
while Active before any SETUP; U5; U9) R200 does not say this: that the machine goes on there is the model's choice (log
entries 7, 6 and 3). That a step on an incomplete command answers the same state is read from R204 (log entry 12). -/
def Obligations.EveryStepGoesOn : Prop := ∀ s : State, Completes (step s)

/-- R51: words are consumed in order from the front, and response words are emitted after all earlier ones. -/
def Obligations.StreamsAdvanceInOrder : Prop :=
  ∀ s t : State, step s = .next t → (∃ used, s.cmd = used ++ t.cmd) ∧ ∃ words, t.resp = s.resp ++ words

/-- R201, R71 to R73: the response of a well-formed command is status `OK` and exactly its result words. R73 gives a
BLOCK its `2n` words only where `CFG_VALID = 1`: that a BLOCK of good shape while Active before any SETUP answers them too is
the model's choice (log entry 7), and so are the answers where U5 and U9 leave `refuse` (log entries 6 and 3). -/
def Obligations.ResponseIsStatusAndResults : Prop :=
  ∀ (i : Instr) (s t : State), i.WellFormed → exec i s = .next t →
    ∃ results, t.resp = s.resp ++ 0x00000000#32 :: results ∧ results.length = resultWords i s

/-! ## Reset and the invariant -/

/-- R220, R24: what the spec gives for power-on: the two flags, the parameters, the two ports, and that every other
register is unspecified (nothing has written it, and a read of it answers no particular value). -/
def Obligations.PowerOnState : Prop :=
  State.reset.mode = .inactive ∧ State.reset.cfgValid = false ∧
  State.reset.param = #v[.half, ⟨0x3FE6666666666666#64⟩, ⟨0x3FD3333333333333#64⟩, .half, .half, .half, .half, .zero,
    .zero] ∧
  State.reset.cmd = [] ∧ State.reset.resp = [] ∧
  State.reset.written = ⟨false, false, false, false, false, false, false, false, false, false, false⟩ ∧
  (∀ a ∈ [0x0001, 0x0010, 0x0011, 0x0012, 0x0013, 0x0014, 0x0015, 0x0016, 0x0017, 0x0018, 0x0020, 0x0021, 0x0022, 0x0023,
      0x0024, 0x0025, 0x0028, 0x0029, 0x002A, 0x002B, 0x0030, 0x0031, 0x0032, 0x0200, 0x0201, 0x0208, 0x0209, 0x0210,
      0x0211, 0x0212, 0x0218, 0x0219, 0x021A, 0x021B, 0x021C, 0x021D, 0x021E],
    readReg State.reset a = .anyF64) ∧
  (∀ ch < 2, ∀ k < 10, ∀ r < 7, readReg State.reset (0x0100 + 0x80 * ch + 8 * k + r) = .anyF64) ∧
  readReg State.reset 0x0033 = .anyIndex ∧ readReg State.reset 0x0034 = .anyBits

/-- The invariant holds at power-on. -/
def Obligations.InvariantHoldsAtReset : Prop := State.reset.Inv

/-- R26, R32, R35: every step keeps the invariant: the lifecycle order of what has been written, the bit-for-bit
symmetry of the two channels' coefficients, and filters that are the design of `TONE_TAG` and `SR`. For a BLOCK before
any SETUP, which U1 leaves open, and for a `P_MIDFREQ` outside [0, 1], for which U5 leaves `refuse`, this rests on the
model's choice (log entries 7 and 6). -/
def Obligations.StepKeepsInvariant : Prop :=
  ∀ s t : State, s.Inv → step s = .next t → t.Inv

/-! ## Whole-machine rules -/

/-- R160: "The only command that changes `MODE` is SETACT." -/
def Obligations.OnlySetactChangesMode : Prop :=
  ∀ (i : Instr) (s t : State), exec i s = .next t → t.mode ≠ s.mode → ∃ active, i = .setact active

/-- R22, R23: `CFG_VALID` is written only by SETUP, set to 1 and never cleared; `SR` only by SETUP. -/
def Obligations.OnlySetupWritesRateAndValid : Prop :=
  ∀ (i : Instr) (s t : State), exec i s = .next t →
    (s.cfgValid = true → t.cfgValid = true) ∧
    ((t.cfgValid ≠ s.cfgValid ∨ t.sr ≠ s.sr) → ∃ sr, i = .setup sr ∧ t.sr = sr ∧ t.cfgValid = true)

/-- R24: a parameter register changes only by a PSET that names it or by a BLOCK. -/
def Obligations.OnlyPsetAndBlockWriteParams : Prop :=
  ∀ (i : Instr) (s t : State) (p : Fin 9), exec i s = .next t → t.param[p] ≠ s.param[p] →
    (∃ v, i = .pset (BitVec.ofNat 8 p.val) v ∧ t.param[p] = v) ∨
    (∃ nin nout n events samples, i = .block nin nout n events samples)

/-- R72, R33: a unit command acts on the primitive bank and on nothing else (of the rest of the machine only the
response, the model's draw counter and the model's written marks of the bank change), and no controller command
writes the bank. -/
def Obligations.BankAndChainAreSeparate : Prop :=
  ∀ (i : Instr) (s t : State), exec i s = .next t →
    (i.isUnit = true →
      t = { s with prim := t.prim, written := t.written, draws := t.draws, resp := t.resp } ∧
      t.written.tone = s.written.tone ∧ t.written.running = s.written.running ∧
      t.written.block = s.written.block) ∧
    (i.isUnit = false → t.prim = s.prim)

/-- R33, R233: no chain rule reads the primitive bank: a BLOCK does and answers the same whatever the bank holds, so
unit commands may be interleaved with BLOCKs without affecting the audio. For a BLOCK before any SETUP, which U1 leaves
open, this is the model's choice (log entry 7). -/
def Obligations.BlockDoesNotReadBank : Prop :=
  ∀ (c : Cfg) (nin nout : BitVec 4) (n : Word) (events : List Event) (samples : List F32) (s : State) (p : Prim),
    block c nin nout n events samples { s with prim := p } =
      ({ (block c nin nout n events samples s).1 with prim := p }, (block c nin nout n events samples s).2)

/-! ## The controller commands -/

/-- R161: what SETUP writes, and that it writes nothing else: the rate, the decay coefficients, the coefficients of
slots 0 to 5, 8 and 9 of both channels with `z1`, `z2` as they were, `TONE_TAG`, `CFG_VALID`; the toggles of the tag by R25's
threshold. That SETUP completes where `P_MIDFREQ` is outside [0, 1] or not finite, slot 4 then from a free frequency, is the
model's choice: U5 leaves `refuse` there (log entry 6). -/
def Obligations.SetupWritesRateDependentCoefficients : Prop :=
  ∀ (sr : F64) (s : State),
    let c := Config.cfg
    let on (v : F64) : Bool := F64.half.lt v || (c.toggleHalfOn && v.eq .half)
    let tag : ToneTag := ⟨s.param[3], s.param[4], s.param[5], midIdx s.param[6], on s.param[7], on s.param[8]⟩
    let d := designTone c sr tag
    let tune (b : Bank) : Bank := { b with
      uloShelf.c := d.c0, uloCut.c := d.c1, uhiShelf.c := d.c2, bass.c := d.c3, mid.c := d.c4, treble.c := d.c5
      cabHp.c := designHPF c.num sr (.lit 55) .q707, cabLp.c := designLPF c.num sr (.lit 5200) .q707 }
    exec (.setup sr) s = .next { s with
      sr := sr
      cfgValid := true
      smIn.a := decay c.num c.msIn sr
      smOut.a := decay c.num c.msOut sr
      smDrv.a := decay c.num c.msDrv sr
      ef := ⟨{ s.ef.left with a := decay c.num c.msEnv sr }, { s.ef.right with a := decay c.num c.msEnv sr }⟩
      bq := ⟨tune s.bq.left, tune s.bq.right⟩
      toneTag := tag
      written.tone := true
      resp := s.resp ++ [0x00000000#32] }

/-- R141, R142, R29: the six designs of `FB.TONE`, slot by slot, with the gains of the toggle table. -/
def Obligations.ToneDesignsFollowSlotTable : Prop :=
  ∀ (c : Cfg) (sr : F64) (t : ToneTag),
    (designTone c sr t).c0 = designLSH c.num sr c.fUloShelf (if t.ultraLo then .lit 2 else .zero) c.qShelf ∧
    (designTone c sr t).c1 = designPK c.num sr c.fUloCut (if t.ultraLo then .lit (-10) else .zero) c.qUloCut ∧
    (designTone c sr t).c2 = designHSH c.num sr c.fUhi (if t.ultraHi then .lit 9 else .zero) c.qShelf ∧
    (designTone c sr t).c3 =
      designLSH c.num sr (.lit 40) (((t.bass.sub .half).mul .two).mul c.bassRangeDb) c.qShelf ∧
    (∀ k : Fin 5, t.midIdx = k.val → (designTone c sr t).c4 =
      designPK c.num sr (#v[F64.lit 220, .lit 450, .lit 800, .lit 1600, .lit 3000][k])
        (((t.mid.sub .half).mul .two).mul c.midRangeDb) c.qMid) ∧
    (designTone c sr t).c5 =
      designHSH c.num sr (.lit 4000) (((t.treble.sub .half).mul .two).mul c.trebleRangeDb) c.qShelf

/-- R162, R160, R221: the four cases of SETACT. The activation reset zeroes every `z1`, `z2`, `env`, `LAST_ENV`,
`ENV_SUM` and the three smoother values, and writes nothing else but `MODE`; the other three cases change at most
`MODE`. -/
def Obligations.SetactTransitions : Prop :=
  ∀ s : State,
    let rest (q : Biquad) : Biquad := { q with z1 := .zero, z2 := .zero }
    let clear (b : Bank) : Bank :=
      ⟨rest b.uloShelf, rest b.uloCut, rest b.uhiShelf, rest b.bass, rest b.mid, rest b.treble, rest b.tiltLo,
       rest b.tiltHi, rest b.cabHp, rest b.cabLp⟩
    let ok := s.resp ++ [0x00000000#32]
    (s.mode = .inactive → exec (.setact true) s = .next { s with
      mode := .active
      smIn.y := .zero, smOut.y := .zero, smDrv.y := .zero
      ef := ⟨{ s.ef.left with env := .zero }, { s.ef.right with env := .zero }⟩
      bq := ⟨clear s.bq.left, clear s.bq.right⟩
      lastEnv := .zero, envSum := .zero
      written.running := true
      resp := ok }) ∧
    (s.mode = .active → exec (.setact true) s = .next { s with resp := ok }) ∧
    exec (.setact false) s = .next { s with mode := .inactive, resp := ok }

/-- R163: PSET stores the value unmodified in the register it names, and does nothing for `pid` 9..255. -/
def Obligations.PsetStoresOneParameter : Prop :=
  ∀ (pid : BitVec 8) (v : F64) (s : State),
    (∀ h : pid.toNat < 9, exec (.pset pid v) s =
      .next { s with param := s.param.set pid.toNat v h, resp := s.resp ++ [0x00000000#32] }) ∧
    (9 ≤ pid.toNat → exec (.pset pid v) s = .next { s with resp := s.resp ++ [0x00000000#32] })

/-- R164: PGET answers the register, or +0.0 for `pid` 9..255, and changes nothing. -/
def Obligations.PgetAnswersParameter : Prop :=
  ∀ (pid : BitVec 8) (s : State),
    (∀ h : pid.toNat < 9, exec (.pget pid) s = .next { s with
      resp := s.resp ++ [0x00000000#32, (s.param[pid.toNat]'h).bits.extractLsb' 0 32,
        (s.param[pid.toNat]'h).bits.extractLsb' 32 32] }) ∧
    (9 ≤ pid.toNat → exec (.pget pid) s = .next { s with
      resp := s.resp ++ [0x00000000#32, 0x00000000#32, 0x00000000#32] })

/-- R174, R175: a BLOCK while Inactive, or of a degenerate shape, changes no state at all (its events included),
emits no sample word and answers `OK`. -/
def Obligations.BlockThatDoesNotRunChangesNothing : Prop :=
  ∀ (nin nout : BitVec 4) (n : Word) (events : List Event) (samples : List F32) (s : State),
    s.mode = .inactive ∨ nin.toNat < 2 ∨ nout.toNat < 2 ∨ n.toInt ≤ 0 →
      exec (.block nin nout n events samples) s = .next { s with resp := s.resp ++ [0x00000000#32] }

/-- R165, R171, R53, R73: a well-formed BLOCK of good shape on an Active machine that was set up runs its body. The sample
loop starts from `start`, which keeps every running value and has `ENV_SUM = +0.0`; frame `i` reads `In(0, i)` and
`In(1, i)`, steps from the state the frames before it left, and gives `Out(0, i)` and `Out(1, i)`, the output words `2i` and
`2i + 1`. The command answers status `OK` and those `2n` words, leaves the smoothers, followers, filters and `ENV_SUM` as the
loop leaves them, and changes neither `MODE`, `CFG_VALID`, `SR`, the bank `P` nor the draw counter. It makes the block-level
registers and slots 6 and 7 specified, and `TONE_TAG` and slots 0 to 5 where step 2 redesigns; what else was specified or not
stays so. That it completes where `P_MIDFREQ` is outside [0, 1] or not finite is the model's choice: U5 leaves `refuse` there
(log entry 6). -/
def Obligations.BlockRunsItsBody : Prop :=
  ∀ (nin nout : BitVec 4) (n : Word) (events : List Event) (samples : List F32) (s : State),
    s.mode = .active → s.cfgValid = true → 2 ≤ nin.toNat → 2 ≤ nout.toNat → 0 < n.toInt →
    (Instr.block nin nout n events samples).WellFormed →
    let start := blockStart Config.cfg events s
    let frames := framesOf nin.toNat (frameCount n) samples
    let loop (k : Nat) : State := (runFrames Config.cfg (frames.take k) start).1
    let out := (runFrames Config.cfg frames start).2
    let last := (runFrames Config.cfg frames start).1
    (start = { s with
        param := start.param, toneTag := start.toneTag, bq := start.bq, blk := start.blk, written := start.written
        envSum := .zero } ∧
      start.bq.left.SameRunning s.bq.left ∧ start.bq.right.SameRunning s.bq.right) ∧
    (frames.length = n.toInt.toNat ∧ ∀ i l r, frames[i]? = some (l, r) →
      samples[nin.toNat * i]? = some l ∧ samples[nin.toNat * i + 1]? = some r) ∧
    (∀ i f, frames[i]? = some f →
      loop (i + 1) = (frame Config.cfg (loop i) f).1 ∧
      out[2 * i]? = some (frame Config.cfg (loop i) f).2.1.bits ∧
      out[2 * i + 1]? = some (frame Config.cfg (loop i) f).2.2.bits) ∧
    ∃ t : State,
      exec (.block nin nout n events samples) s = .next t ∧
      t.resp = s.resp ++ 0x00000000#32 :: out ∧ out.length = 2 * n.toInt.toNat ∧
      t.smIn = last.smIn ∧ t.smOut = last.smOut ∧ t.smDrv = last.smDrv ∧ t.ef = last.ef ∧ t.bq = last.bq ∧
      t.envSum = last.envSum ∧
      t.written = { s.written with
        block := true
        tone := if (tagOf Config.cfg t.param).same s.toneTag = true then s.written.tone else true } ∧
      t.mode = .active ∧ t.cfgValid = true ∧ t.sr = s.sr ∧ t.prim = s.prim ∧ t.cmd = s.cmd ∧ t.draws = s.draws

/-- The model's choice for U1 (log entry 7): a BLOCK of good shape on an Active machine that was never set up runs its
body over drawn values. The body runs from `drawn`, where what only SETUP writes holds draws, and `TONE_TAG` and slots 0 to
5 too unless an earlier such BLOCK designed them; the command takes 92 draws and answers the words of that run. The running
values are left as the run leaves them. `SR`, `CFG_VALID`, the decay and the cabinet coefficients stand as before; `TONE_TAG`
and slots 0 to 5 stand as before where step 2 does not redesign, and are the new design where it does. -/
def Obligations.BlockBeforeSetupRunsOverDraws : Prop :=
  ∀ (nin nout : BitVec 4) (n : Word) (events : List Event) (samples : List F32) (s : State),
    s.mode = .active → s.cfgValid = false → 2 ≤ nin.toNat → 2 ≤ nout.toNat → 0 < n.toInt →
    (Instr.block nin nout n events samples).WellFormed →
    let drawn := s.drawUnset
    let run := runFrames Config.cfg (framesOf nin.toNat (frameCount n) samples) (blockStart Config.cfg events drawn)
    let d := s.draws
    (drawn.sr = Config.anyF64 d ∧ drawn.smIn.a = Config.anyF64 (d + 1) ∧ drawn.smOut.a = Config.anyF64 (d + 2) ∧
      drawn.smDrv.a = Config.anyF64 (d + 3) ∧ drawn.ef.left.a = Config.anyF64 (d + 4) ∧
      drawn.ef.right.a = Config.anyF64 (d + 5) ∧
      drawn.bq.left.cabHp.c = drawCoeffs (d + 6) ∧ drawn.bq.left.cabLp.c = drawCoeffs (d + 11) ∧
      drawn.bq.right.cabHp.c = drawCoeffs (d + 16) ∧ drawn.bq.right.cabLp.c = drawCoeffs (d + 21) ∧
      (s.written.tone = true → drawn.toneTag = s.toneTag ∧ drawn.bq.left.SameTone s.bq.left ∧
        drawn.bq.right.SameTone s.bq.right) ∧
      (s.written.tone = false → drawn.toneTag.bass = Config.anyF64 (d + 26) ∧
        drawn.toneTag.mid = Config.anyF64 (d + 27) ∧ drawn.toneTag.treble = Config.anyF64 (d + 28) ∧
        drawn.toneTag.midIdx = (Config.anyIndex (d + 29)).val ∧ drawn.toneTag.ultraLo = Config.anyBit (d + 30) ∧
        drawn.toneTag.ultraHi = Config.anyBit (d + 31) ∧
        drawn.bq.left.HasTone ⟨drawCoeffs (d + 32), drawCoeffs (d + 37), drawCoeffs (d + 42), drawCoeffs (d + 47),
          drawCoeffs (d + 52), drawCoeffs (d + 57)⟩ ∧
        drawn.bq.right.HasTone ⟨drawCoeffs (d + 62), drawCoeffs (d + 67), drawCoeffs (d + 72), drawCoeffs (d + 77),
          drawCoeffs (d + 82), drawCoeffs (d + 87)⟩)) ∧
    ∃ t : State,
      exec (.block nin nout n events samples) s = .next t ∧ t.draws = d + 92 ∧
      t.resp = s.resp ++ 0x00000000#32 :: run.2 ∧ run.2.length = 2 * n.toInt.toNat ∧
      t.smIn.y = run.1.smIn.y ∧ t.smOut.y = run.1.smOut.y ∧ t.smDrv.y = run.1.smDrv.y ∧
      t.ef.left.env = run.1.ef.left.env ∧ t.ef.right.env = run.1.ef.right.env ∧ t.envSum = run.1.envSum ∧
      t.bq.left.SameRunning run.1.bq.left ∧ t.bq.right.SameRunning run.1.bq.right ∧
      t.mode = .active ∧ t.cfgValid = false ∧ t.sr = s.sr ∧ t.prim = s.prim ∧
      t.smIn.a = s.smIn.a ∧ t.smOut.a = s.smOut.a ∧ t.smDrv.a = s.smDrv.a ∧
      t.ef.left.a = s.ef.left.a ∧ t.ef.right.a = s.ef.right.a ∧
      t.bq.left.SameCab s.bq.left ∧ t.bq.right.SameCab s.bq.right ∧
      ((tagOf Config.cfg t.param).same drawn.toneTag = true →
        t.toneTag = s.toneTag ∧ t.bq.left.SameTone s.bq.left ∧ t.bq.right.SameTone s.bq.right) ∧
      ((tagOf Config.cfg t.param).same drawn.toneTag = false →
        t.toneTag = tagOf Config.cfg t.param ∧
        t.bq.left.HasTone (designTone Config.cfg drawn.sr (tagOf Config.cfg t.param)) ∧
        t.bq.right.HasTone (designTone Config.cfg drawn.sr (tagOf Config.cfg t.param)))

/-- R166, R74: after a body that ran on a machine that was set up, each parameter holds the value of the last record that
names it, or what it held; a record with a nonzero bit above its `pid`, or with a `pid` above 8, is skipped.
That the command completes where `P_MIDFREQ` is outside [0, 1] or not finite is the model's choice (U5
leaves `refuse`; log entry 6), and so is a term whose samples are too few or too many (log entry 13). -/
def Obligations.LastEventPerParameterWins : Prop :=
  ∀ (nin nout : BitVec 4) (n : Word) (events : List Event) (samples : List F32) (s : State),
    s.mode = .active → s.cfgValid = true → 2 ≤ nin.toNat → 2 ≤ nout.toNat → 0 < n.toInt →
    let pid (e : Event) : Nat := (e.tag.extractLsb' 0 8).toNat
    let applies (e : Event) : Bool := decide (e.tag.extractLsb' 8 24 = 0#24) && decide (pid e ≤ 8)
    ∃ t, exec (.block nin nout n events samples) s = .next t ∧
      ∀ p : Fin 9, t.param[p] =
        (((events.filter fun e => applies e && decide (pid e = p.val)).getLast?).map Event.value).getD s.param[p]

/-- R168 to R170, R172, R31: the seven block-level registers after a body that ran on a machine that was set up, from
the parameters as the events left them and from `LAST_ENV` as the previous block left it (R223: not from this block's
samples); and the `LAST_ENV` it leaves, the envelope sum divided by the sample count.
That the command completes where `P_MIDFREQ` is outside [0, 1] or not finite is the model's choice (U5
leaves `refuse`; log entry 6), and so is a term whose samples are too few or too many (log entry 13). -/
def Obligations.BlockTargetsFromSnapshotAndFeedback : Prop :=
  ∀ (nin nout : BitVec 4) (n : Word) (events : List Event) (samples : List F32) (s : State),
    s.mode = .active → s.cfgValid = true → 2 ≤ nin.toNat → 2 ≤ nout.toNat → 0 < n.toInt →
    ∃ t, exec (.block nin nout n events samples) s = .next t ∧
      t.blk.inTgt = Config.cfg.num.pow .ten (((F64.lit (-24)).add ((F64.lit 48).mul t.param[0])).div (.lit 20)) ∧
      t.blk.outTgt = Config.cfg.num.pow .ten (((F64.lit (-24)).add ((F64.lit 48).mul t.param[1])).div (.lit 20)) ∧
      t.blk.baseDrive = F64.one.add (t.param[2].mul (.lit 19)) ∧
      t.blk.envClamped = (s.lastEnv.mul (.lit 3)).clamp .zero .one ∧
      t.blk.dynDrive = F64.one.add ((F64.lit 8).mul t.blk.envClamped) ∧
      t.blk.effDrive = t.blk.baseDrive.mul t.blk.dynDrive ∧
      t.blk.driveNorm2 = ((t.blk.effDrive.sub .one).div (.lit 12)).clamp .zero .one ∧
      t.lastEnv = t.envSum.div (.ofNat n.toInt.toNat)

/-- R167, R141: after a body that ran on a machine that was set up, the tone filters of both channels are redesigned
from the snapshot if its tag differs from `TONE_TAG`, which then is that tag; otherwise both are untouched. That the command
completes where `P_MIDFREQ` is outside [0, 1] or not finite, slot 4 then redesigned from an index without a table entry, is
the model's choice (U5 leaves `refuse`; log entry 6), and so is a term whose samples are too few or too many (log entry
13). -/
def Obligations.ToneRedesignedExactlyOnChange : Prop :=
  ∀ (nin nout : BitVec 4) (n : Word) (events : List Event) (samples : List F32) (s : State),
    s.mode = .active → s.cfgValid = true → 2 ≤ nin.toNat → 2 ≤ nout.toNat → 0 < n.toInt →
    ∃ t, exec (.block nin nout n events samples) s = .next t ∧
      let cur := tagOf Config.cfg t.param
      (cur.same s.toneTag = true →
        t.toneTag = s.toneTag ∧ t.bq.left.SameTone s.bq.left ∧ t.bq.right.SameTone s.bq.right) ∧
      (cur.same s.toneTag = false →
        t.toneTag = cur ∧ t.bq.left.HasTone (designTone Config.cfg s.sr cur) ∧
        t.bq.right.HasTone (designTone Config.cfg s.sr cur))

/-- R143, R170: after a body that ran on a machine that was set up, the tilt filters of both channels are the shelves
of `-3 * DRIVE_NORM2` dB at 40 Hz and `-4 * DRIVE_NORM2` dB at 4000 Hz.
That the command completes where `P_MIDFREQ` is outside [0, 1] or not finite is the model's choice (U5
leaves `refuse`; log entry 6), and so is a term whose samples are too few or too many (log entry 13). -/
def Obligations.TiltFollowsDriveEveryBlock : Prop :=
  ∀ (nin nout : BitVec 4) (n : Word) (events : List Event) (samples : List F32) (s : State),
    s.mode = .active → s.cfgValid = true → 2 ≤ nin.toNat → 2 ≤ nout.toNat → 0 < n.toInt →
    ∃ t, exec (.block nin nout n events samples) s = .next t ∧
      let c6 := designLSH Config.cfg.num s.sr (.lit 40) ((F64.lit (-3)).mul t.blk.driveNorm2) .q707
      let c7 := designHSH Config.cfg.num s.sr (.lit 4000) ((F64.lit (-4)).mul t.blk.driveNorm2) .q707
      t.bq.left.tiltLo.c = c6 ∧ t.bq.right.tiltLo.c = c6 ∧ t.bq.left.tiltHi.c = c7 ∧ t.bq.right.tiltHi.c = c7

/-- R144, R27, R28: no BLOCK retunes the cabinet filters or a decay coefficient. For a BLOCK before any SETUP, which U1
leaves open, this is the model's choice (log entry 7). -/
def Obligations.BlockNeverRetunesCabinetOrDecay : Prop :=
  ∀ (nin nout : BitVec 4) (n : Word) (events : List Event) (samples : List F32) (s t : State),
    exec (.block nin nout n events samples) s = .next t →
      t.bq.left.SameCab s.bq.left ∧ t.bq.right.SameCab s.bq.right ∧
      t.smIn.a = s.smIn.a ∧ t.smOut.a = s.smOut.a ∧ t.smDrv.a = s.smDrv.a ∧
      t.ef.left.a = s.ef.left.a ∧ t.ef.right.a = s.ef.right.a

/-- R171: steps a to h of one frame, for both channels, with the smoothers advanced once. -/
def Obligations.FrameFollowsStepsAToH : Prop :=
  ∀ (c : Cfg) (s : State) (l r : F32),
    let gi := (s.smIn.a.mul s.smIn.y).add ((F64.one.sub s.smIn.a).mul s.blk.inTgt)
    let go := (s.smOut.a.mul s.smOut.y).add ((F64.one.sub s.smOut.a).mul s.blk.outTgt)
    let dv := (s.smDrv.a.mul s.smDrv.y).add ((F64.one.sub s.smDrv.a).mul s.blk.effDrive)
    let x0 := fbPre s.bq.left (gi.mul l.widen)
    let x1 := fbPre s.bq.right (gi.mul r.widen)
    let e0 := (s.ef.left.a.mul s.ef.left.env).add ((F64.one.sub s.ef.left.a).mul x0.1.abs)
    let e1 := (s.ef.right.a.mul s.ef.right.env).add ((F64.one.sub s.ef.right.a).mul x1.1.abs)
    let y0 := fbPost x0.2 (sat c x0.1 dv)
    let y1 := fbPost x1.2 (sat c x1.1 dv)
    frame c s (l, r) =
      ({ s with
          smIn.y := gi, smOut.y := go, smDrv.y := dv
          ef := ⟨{ s.ef.left with env := e0 }, { s.ef.right with env := e1 }⟩
          bq := ⟨y0.2, y1.2⟩
          envSum := s.envSum.add ((e0.add e1).mul .half) },
       (go.mul y0.1).narrow, (go.mul y1.1).narrow)

/-- R146, R147, R117: the signal order of the ten filters of a channel, slots 0 to 5 before the saturator and 6 to 9 after
it. Each filter takes the output of the one before it; a filter that is run takes the transposed Direct-Form-II step on its
own input, its coefficients unchanged, and no other filter changes. -/
def Obligations.FilterCascadesRunInSlotOrder : Prop :=
  ∀ (b : Bank) (x : F64),
    let run (q : Biquad) (v : F64) : F64 × Biquad :=
      let y := (q.c.b0.mul v).add q.z1
      (y, ⟨q.c, ((q.c.b1.mul v).sub (q.c.a1.mul y)).add q.z2, (q.c.b2.mul v).sub (q.c.a2.mul y)⟩)
    (List.range 11).map b.slot = [some b.uloShelf, some b.uloCut, some b.uhiShelf, some b.bass, some b.mid, some b.treble,
      some b.tiltLo, some b.tiltHi, some b.cabHp, some b.cabLp, none] ∧
    (let r0 := run b.uloShelf x
     let r1 := run b.uloCut r0.1
     let r2 := run b.uhiShelf r1.1
     let r3 := run b.bass r2.1
     let r4 := run b.mid r3.1
     let r5 := run b.treble r4.1
     fbPre b x = (r5.1, ⟨r0.2, r1.2, r2.2, r3.2, r4.2, r5.2, b.tiltLo, b.tiltHi, b.cabHp, b.cabLp⟩)) ∧
    (let r6 := run b.tiltLo x
     let r7 := run b.tiltHi r6.1
     let r8 := run b.cabHp r7.1
     let r9 := run b.cabLp r8.1
     fbPost b x =
       (r9.1, ⟨b.uloShelf, b.uloCut, b.uhiShelf, b.bass, b.mid, b.treble, r6.2, r7.2, r8.2, r9.2⟩))

/-- R55, R35, R36: the whole register map. A float register that has been written reads as its bits and one that has not
reads as any `F64`. The flags, the nine parameters, the feedback and block-level registers, the smoothers and followers,
`TONE_TAG` and the primitive bank at their addresses; `BQ[ch][k]` field `r` at `0x0100 + 0x80*ch + 8*k + r`, 0 to 4 the
coefficients, 5 and 6 the states, 7 zero; and an address not listed reads as zero. -/
def Obligations.RegisterMapReadsEveryAddress : Prop :=
  ∀ s : State,
    let reg (known : Bool) (v : F64) : Reading := if known = true then .known v.bits else .anyF64
    let field (q : Biquad) (coeffs states : Bool) (r : Nat) : Reading :=
      match r with
      | 0 => reg coeffs q.c.b0
      | 1 => reg coeffs q.c.b1
      | 2 => reg coeffs q.c.b2
      | 3 => reg coeffs q.c.a1
      | 4 => reg coeffs q.c.a2
      | 5 => reg states q.z1
      | 6 => reg states q.z2
      | _ => .known 0#64
    let w := s.written
    (∃ v, readReg s 0x0000 = .known v ∧
      v.toNat = (if s.mode = .active then 1 else 0) + (if s.cfgValid = true then 2 else 0)) ∧
    (∀ p : Fin 9, readReg s (0x0002 + p.val) = .known s.param[p].bits) ∧
    (∀ e ∈ [(0x0001, reg s.cfgValid s.sr),
        (0x0010, reg w.running s.lastEnv), (0x0011, reg w.running s.envSum),
        (0x0012, reg w.block s.blk.inTgt), (0x0013, reg w.block s.blk.outTgt), (0x0014, reg w.block s.blk.baseDrive),
        (0x0015, reg w.block s.blk.envClamped), (0x0016, reg w.block s.blk.dynDrive),
        (0x0017, reg w.block s.blk.effDrive), (0x0018, reg w.block s.blk.driveNorm2),
        (0x0020, reg s.cfgValid s.smIn.a), (0x0021, reg w.running s.smIn.y),
        (0x0022, reg s.cfgValid s.smOut.a), (0x0023, reg w.running s.smOut.y),
        (0x0024, reg s.cfgValid s.smDrv.a), (0x0025, reg w.running s.smDrv.y),
        (0x0028, reg s.cfgValid s.ef.left.a), (0x0029, reg w.running s.ef.left.env),
        (0x002A, reg s.cfgValid s.ef.right.a), (0x002B, reg w.running s.ef.right.env),
        (0x0030, reg w.tone s.toneTag.bass), (0x0031, reg w.tone s.toneTag.mid), (0x0032, reg w.tone s.toneTag.treble),
        (0x0200, reg w.smA s.prim.sm.a), (0x0201, reg w.smY s.prim.sm.y),
        (0x0208, reg w.efA s.prim.ef.a), (0x0209, reg w.efEnv s.prim.ef.env),
        (0x0210, reg w.arA s.prim.ar.aAtt), (0x0211, reg w.arA s.prim.ar.aRel), (0x0212, reg w.arEnv s.prim.ar.env)],
      readReg s e.1 = e.2) ∧
    (w.tone = true →
      (∀ i : Fin 5, s.toneTag.midIdx = i.val → readReg s 0x0033 = .known (BitVec.ofNat 64 i.val)) ∧
      ∃ v, readReg s 0x0034 = .known v ∧
        v.toNat = (if s.toneTag.ultraLo = true then 1 else 0) + (if s.toneTag.ultraHi = true then 2 else 0)) ∧
    (w.tone = false → readReg s 0x0033 = .anyIndex ∧ readReg s 0x0034 = .anyBits) ∧
    (∀ r < 7, readReg s (0x0218 + r) = field s.prim.bq w.bqC w.bqZ r) ∧
    (∀ k < 10, ∀ r < 8,
      let coeffs := if k < 6 then w.tone else if k < 8 then w.block else s.cfgValid
      (∀ q, s.bq.left.slot k = some q → readReg s (0x0100 + 8 * k + r) = field q coeffs w.running r) ∧
      (∀ q, s.bq.right.slot k = some q → readReg s (0x0100 + 0x80 + 8 * k + r) = field q coeffs w.running r)) ∧
    ∀ a : Nat,
      (0x00B ≤ a ∧ a < 0x010) ∨ (0x019 ≤ a ∧ a < 0x020) ∨ a = 0x026 ∨ a = 0x027 ∨ (0x02C ≤ a ∧ a < 0x030) ∨
      (0x035 ≤ a ∧ a < 0x100) ∨ (0x150 ≤ a ∧ a < 0x180) ∨ (0x1D0 ≤ a ∧ a < 0x200) ∨ (0x202 ≤ a ∧ a < 0x208) ∨
      (0x20A ≤ a ∧ a < 0x210) ∨ (0x213 ≤ a ∧ a < 0x218) ∨ 0x21F ≤ a →
      readReg s a = .known 0#64

/-- R173, R56: RD answers the 64 bits of a specified register, any 64 bits of the register's kind for an unspecified
one, and changes nothing but the response and the model's draw counter. -/
def Obligations.RdReadsWithoutSideEffect : Prop :=
  ∀ (addr : BitVec 16) (s : State),
    ∃ (v : BitVec 64) (d : Nat),
      exec (.rd addr) s = .next { s with
        draws := d, resp := s.resp ++ [0x00000000#32, v.extractLsb' 0 32, v.extractLsb' 32 32] } ∧
      (∀ w, readReg s addr.toNat = .known w → v = w ∧ d = s.draws) ∧
      (readReg s addr.toNat = .anyIndex → v.toNat ≤ 4) ∧
      (readReg s addr.toNat = .anyBits → v.toNat ≤ 3)

/-! ## The smoothing primitives -/

/-- R90: the decay coefficient lies in [0, 1] for every lawful numerics record, a finite time and a positive rate. -/
def Obligations.DecayLiesInUnitInterval : Prop :=
  ∀ (num : Numerics) (ms sr : F64), num.Lawful → ms.isFinite = true → F64.zero.lt sr = true →
    (decay num ms sr).InUnit

/-- R90 to R93: SM.CFG, SM.RST, SM.STEP. That SM.STEP on an instance whose coefficient or value was never written runs, any
value standing for it, is the model's choice between the two treatments of U9 (log entry 3). -/
def Obligations.SmootherCommands : Prop :=
  ∀ (ms sr v x : F64) (s : State),
    let tau := (F64.max ⟨0x3F50624DD2F1A9FC#64⟩ ms).div (.lit 1000)
    exec (.smCfg ms sr) s = .next { s with
      prim.sm.a := Config.cfg.num.exp (F64.one.div (tau.mul sr)).neg, written.smA := true
      resp := s.resp ++ [0x00000000#32] } ∧
    exec (.smRst v) s = .next { s with
      prim.sm.y := v, written.smY := true, resp := s.resp ++ [0x00000000#32] } ∧
    ∃ (a y : F64) (d : Nat),
      (s.written.smA = true → a = s.prim.sm.a) ∧ (s.written.smY = true → y = s.prim.sm.y) ∧
      (s.written.smA = true → s.written.smY = true → d = s.draws) ∧
      let y' := (a.mul y).add ((F64.one.sub a).mul x)
      exec (.smStep x) s = .next { s with
        prim.sm.y := y', written.smY := true, draws := d
        resp := s.resp ++ [0x00000000#32, y'.bits.extractLsb' 0 32, y'.bits.extractLsb' 32 32] }

/-- R94 to R96: EF.CFG, EF.RST, EF.STEP. That EF.STEP on an instance whose coefficient or value was never written runs, any
value standing for it, is the model's choice between the two treatments of U9 (log entry 3). -/
def Obligations.FollowerCommands : Prop :=
  ∀ (ms sr x : F64) (s : State),
    let tau := (F64.max ⟨0x3F50624DD2F1A9FC#64⟩ ms).div (.lit 1000)
    exec (.efCfg ms sr) s = .next { s with
      prim.ef.a := Config.cfg.num.exp (F64.one.div (tau.mul sr)).neg, written.efA := true
      resp := s.resp ++ [0x00000000#32] } ∧
    exec .efRst s = .next { s with
      prim.ef.env := .zero, written.efEnv := true, resp := s.resp ++ [0x00000000#32] } ∧
    ∃ (a env : F64) (d : Nat),
      (s.written.efA = true → a = s.prim.ef.a) ∧ (s.written.efEnv = true → env = s.prim.ef.env) ∧
      (s.written.efA = true → s.written.efEnv = true → d = s.draws) ∧
      let env' := (a.mul env).add ((F64.one.sub a).mul x.abs)
      exec (.efStep x) s = .next { s with
        prim.ef.env := env', written.efEnv := true, draws := d
        resp := s.resp ++ [0x00000000#32, env'.bits.extractLsb' 0 32, env'.bits.extractLsb' 32 32] }

/-- R97 to R99: AR.CFG, AR.RST, AR.STEP, the attack coefficient while `abs(x)` exceeds the envelope. That AR.STEP on an
instance whose coefficients or value were never written runs, any value standing for them, is the model's choice between the
two treatments of U9 (log entry 3). -/
def Obligations.AttackReleaseCommands : Prop :=
  ∀ (attackMs releaseMs sr x : F64) (s : State),
    let coefficient (ms : F64) : F64 :=
      Config.cfg.num.exp (F64.one.div (((F64.max ⟨0x3F50624DD2F1A9FC#64⟩ ms).div (.lit 1000)).mul sr)).neg
    exec (.arCfg attackMs releaseMs sr) s = .next { s with
      prim.ar.aAtt := coefficient attackMs, prim.ar.aRel := coefficient releaseMs, written.arA := true
      resp := s.resp ++ [0x00000000#32] } ∧
    exec .arRst s = .next { s with
      prim.ar.env := .zero, written.arEnv := true, resp := s.resp ++ [0x00000000#32] } ∧
    ∃ (aAtt aRel env : F64) (d : Nat),
      (s.written.arA = true → aAtt = s.prim.ar.aAtt ∧ aRel = s.prim.ar.aRel) ∧
      (s.written.arEnv = true → env = s.prim.ar.env) ∧
      (s.written.arA = true → s.written.arEnv = true → d = s.draws) ∧
      let k := if env.lt x.abs = true then aAtt else aRel
      let env' := (k.mul env).add ((F64.one.sub k).mul x.abs)
      exec (.arStep x) s = .next { s with
        prim.ar.env := env', written.arEnv := true, draws := d
        resp := s.resp ++ [0x00000000#32, env'.bits.extractLsb' 0 32, env'.bits.extractLsb' 32 32] }

/-- R96: with a coefficient in [0, 1], a finite envelope that is not negative and a finite input, the new envelope is
not negative. -/
def Obligations.FollowerStaysNonnegative : Prop :=
  ∀ a env x : F64, a.InUnit → env.isFinite = true → F64.zero.le env = true → x.isFinite = true →
    F64.zero.le (efStep a env x) = true

/-! ## The biquad -/

/-- R111 to R115, R119: the five design commands store the five coefficients of their shape in `P.BQ` and leave
`z1`, `z2` and everything else as they are. -/
def Obligations.DesignCommandsStoreCoefficients : Prop :=
  ∀ (sr f0 g q : F64) (s : State),
    let num := Config.cfg.num
    let w0 := ((F64.two.mul .pi).mul f0).div sr
    let c := num.cos w0
    let alpha := (num.sin w0).div (F64.two.mul q)
    let A := num.pow .ten (g.div (.lit 40))
    let t := (F64.two.mul A.sqrt).mul alpha
    let m2 := F64.lit (-2)
    let stored (B0 B1 B2 A0 A1 A2 : F64) : Result := .next { s with
      prim.bq.c := ⟨B0.div A0, B1.div A0, B2.div A0, A1.div A0, A2.div A0⟩, written.bqC := true
      resp := s.resp ++ [0x00000000#32] }
    exec (.bqLsh sr f0 g q) s = stored
      (A.mul (((A.add .one).sub ((A.sub .one).mul c)).add t))
      ((F64.two.mul A).mul ((A.sub .one).sub ((A.add .one).mul c)))
      (A.mul (((A.add .one).sub ((A.sub .one).mul c)).sub t))
      (((A.add .one).add ((A.sub .one).mul c)).add t)
      (m2.mul ((A.sub .one).add ((A.add .one).mul c)))
      (((A.add .one).add ((A.sub .one).mul c)).sub t) ∧
    exec (.bqHsh sr f0 g q) s = stored
      (A.mul (((A.add .one).add ((A.sub .one).mul c)).add t))
      ((m2.mul A).mul ((A.sub .one).add ((A.add .one).mul c)))
      (A.mul (((A.add .one).add ((A.sub .one).mul c)).sub t))
      (((A.add .one).sub ((A.sub .one).mul c)).add t)
      (F64.two.mul ((A.sub .one).sub ((A.add .one).mul c)))
      (((A.add .one).sub ((A.sub .one).mul c)).sub t) ∧
    exec (.bqPk sr f0 g q) s = stored
      (F64.one.add (alpha.mul A)) (m2.mul c) (F64.one.sub (alpha.mul A))
      (F64.one.add (alpha.div A)) (m2.mul c) (F64.one.sub (alpha.div A)) ∧
    exec (.bqHpf sr f0 q) s = stored
      ((F64.one.add c).div .two) (F64.one.add c).neg ((F64.one.add c).div .two)
      (F64.one.add alpha) (m2.mul c) (F64.one.sub alpha) ∧
    exec (.bqLpf sr f0 q) s = stored
      ((F64.one.sub c).div .two) (F64.one.sub c) ((F64.one.sub c).div .two)
      (F64.one.add alpha) (m2.mul c) (F64.one.sub alpha)

/-- R116, R117: BQ.RST zeroes the states; BQ.STEP is the transposed Direct-Form-II step, the new `z1` from the old
`z2`, coefficients unchanged. That BQ.STEP on an instance whose coefficients or states were never written runs, any value
standing for them, is the model's choice between the two treatments of U9 (log entry 3). -/
def Obligations.BiquadResetAndStep : Prop :=
  ∀ (x : F64) (s : State),
    exec .bqRst s = .next { s with
      prim.bq.z1 := .zero, prim.bq.z2 := .zero, written.bqZ := true, resp := s.resp ++ [0x00000000#32] } ∧
    ∃ (k : Coeffs) (z1 z2 : F64) (d : Nat),
      (s.written.bqC = true → k = s.prim.bq.c) ∧
      (s.written.bqZ = true → z1 = s.prim.bq.z1 ∧ z2 = s.prim.bq.z2) ∧
      (s.written.bqC = true → s.written.bqZ = true → d = s.draws) ∧
      let y := (k.b0.mul x).add z1
      exec (.bqStep x) s = .next { s with
        prim.bq.z1 := ((k.b1.mul x).sub (k.a1.mul y)).add z2
        prim.bq.z2 := (k.b2.mul x).sub (k.a2.mul y)
        written.bqZ := true, draws := d
        resp := s.resp ++ [0x00000000#32, y.bits.extractLsb' 0 32, y.bits.extractLsb' 32 32] }

/-- R120: at 0 dB, of either sign, the two shelves and the peaking shape are in the exact identity form `b0 = 1.0`,
`b1 = a1`, `b2 = a2`, for every lawful numerics record, wherever the cosine is finite and not zero and the
denominators `1 + alpha` and `2 + 2*alpha` are finite and not zero. -/
def Obligations.ZeroDecibelDesignsAreIdentity : Prop :=
  ∀ (num : Numerics) (sr f0 g q : F64), num.Lawful → g.isZero = true →
    let c := designCos num sr f0
    let alpha := designAlpha num sr f0 q
    c.isFinite = true → c.isZero = false → alpha.isFinite = true →
    (F64.one.add alpha).isFinite = true → (F64.one.add alpha).isZero = false →
    (F64.two.add (F64.two.mul alpha)).isFinite = true → (F64.two.add (F64.two.mul alpha)).isZero = false →
    ∀ k ∈ [designLSH num sr f0 g q, designHSH num sr f0 g q, designPK num sr f0 g q],
      k.b0 = .one ∧ k.b1 = k.a1 ∧ k.b2 = k.a2

/-- R117: an identity-form filter at rest passes a finite input by value and stays at rest, as long as its products
stay finite. -/
def Obligations.IdentityFilterAtRestIsBypass : Prop :=
  ∀ (q : Biquad) (x : F64), q.c.b0 = .one → q.c.b1 = q.c.a1 → q.c.b2 = q.c.a2 → q.AtRest →
    x.isFinite = true → (q.c.b1.mul x).isFinite = true → (q.c.b2.mul x).isFinite = true →
    (bqStep q x).1.eq x = true ∧ (bqStep q x).2.AtRest

/-! ## The saturator -/

/-- R130: SAT answers `tanh(v) - tanh(BIAS_OFFSET)` with `u = x * drive`, `v = u + ASYM * (u * u)`, and writes no
state. -/
def Obligations.SatAnswersWaveshaper : Prop :=
  ∀ (x drive : F64) (s : State),
    let u := x.mul drive
    let v := u.add (Config.cfg.asym.mul (u.mul u))
    let y := (Config.cfg.num.tanh v).sub (Config.cfg.num.tanh .zero)
    exec (.sat x drive) s = .next { s with
      resp := s.resp ++ [0x00000000#32, y.bits.extractLsb' 0 32, y.bits.extractLsb' 32 32] }

/-- R132 (a): a zero input gives `-tanh(bias)` for any finite drive. -/
def Obligations.SatOfZeroIsMinusBias : Prop :=
  ∀ (c : Cfg) (x drive : F64), c.Admissible → c.biasOffset.isNaN = false → x.isZero = true →
    drive.isFinite = true → (sat c x drive).eq (c.num.tanh c.biasOffset).neg = true

/-- R132 (c): with `BIAS_OFFSET = 0.0` the output lies in the closed interval [-1, 1] wherever the argument of `tanh`
is not a NaN. -/
def Obligations.SatStaysInClosedUnitInterval : Prop :=
  ∀ (c : Cfg) (x drive : F64), c.Admissible → c.biasOffset = .zero →
    (let u := x.mul drive; (u.add (c.asym.mul (u.mul u))).isNaN = false) →
    F64.one.neg.le (sat c x drive) = true ∧ (sat c x drive).le .one = true

/-! ## Arithmetic -/

/-- R9: `+`, `-`, `*`, `/` on finite operands are the exact result rounded to nearest even, with overflow to the
infinity of its sign. -/
def Obligations.ArithmeticRoundsToNearestEven : Prop :=
  ∀ x y : F64, x.isFinite = true → y.isFinite = true →
    RoundsTo (x.add y) (x.val + y.val) ∧ RoundsTo (x.sub y) (x.val - y.val) ∧
    RoundsTo (x.mul y) (x.val * y.val) ∧ (y.isZero = false → RoundsTo (x.div y) (x.val / y.val))

/-- R9: `sqrt` of a finite number that is not negative is a finite number nearest to the real square root. -/
def Obligations.SqrtRoundsToNearest : Prop :=
  ∀ x : F64, x.isFinite = true → F64.zero.le x = true →
    x.sqrt.isFinite = true ∧ ∀ z : F64, z.isFinite = true →
      |(x.sqrt.val : ℝ) - Real.sqrt (x.val : ℝ)| ≤ |(z.val : ℝ) - Real.sqrt (x.val : ℝ)|

/-- R11: `f64(s)` is exact, infinities and NaNs included, and `f32` takes it back; `f32(v)` of a finite `v` is `v` rounded to
nearest even, with overflow to infinity, and always with the sign of `v`; an infinity stays that infinity and a NaN stays a
NaN; `toF64(n)` is exact for `n` below 2^31. -/
def Obligations.ConversionsExactOrRounded : Prop :=
  (∀ s : F32, s.isFinite = true → s.widen.isFinite = true ∧ s.widen.val = s.val) ∧
  (∀ s : F32, s.isInf = true → s.widen.isInf = true) ∧
  (∀ s : F32, s.isNaN = true → s.widen.isNaN = true) ∧
  (∀ s : F32, s.isNaN = false → s.widen.sign = s.sign ∧ s.widen.narrow = s) ∧
  (∀ v : F64, v.isFinite = true → RoundsTo32 v.narrow v.val) ∧
  (∀ v : F64, v.isInf = true → v.narrow.isInf = true) ∧
  (∀ v : F64, v.isNaN = true → v.narrow.isNaN = true) ∧
  (∀ v : F64, v.isNaN = false → v.narrow.sign = v.sign) ∧
  (∀ n : Nat, n < 2 ^ 31 → (F64.ofNat n).isFinite = true ∧ (F64.ofNat n).val = n)

/-- R12, R169, R170, R227: `clamp(v, 0, 1)` lies in [0, 1] for every `v`; it is 0 for a NaN and below 0, 1 above 1, and
`v` by value in between (by bits too but for a negative zero). -/
def Obligations.ClampLiesInUnitInterval : Prop :=
  ∀ v : F64,
    (v.clamp .zero .one).InUnit ∧ (v.isNaN = true → v.clamp .zero .one = .zero) ∧
    (v.lt .zero = true → v.clamp .zero .one = .zero) ∧ (F64.one.lt v = true → v.clamp .zero .one = .one) ∧
    (v.InUnit → (v.clamp .zero .one).eq v = true ∧ (v.isZero = false → v.clamp .zero .one = v))

/-- R25: the mid-frequency index of a normalized value is `min(4, floor(5.0 * v))`, the product in `F64`, and is 0 to
4. -/
def Obligations.MidIndexOfNormalizedValue : Prop :=
  ∀ v : F64, v.InUnit →
    (F64.lit 5).val = 5 ∧ ((F64.lit 5).mul v).isFinite = true ∧
    midIdx v = min 4 ⌊((F64.lit 5).mul v).val⌋ ∧ 0 ≤ midIdx v ∧ midIdx v ≤ 4

/-! ## Properties of the chain -/

/-- R176 (a), S4: with `BIAS_OFFSET = 0.0`, from a silent state, zero input gives zero output from the first sample
and leaves every state register, follower and the envelope sum at zero, at any coefficients and gains that stay
finite. -/
def Obligations.SilenceInSilenceOut : Prop :=
  ∀ (c : Cfg) (frames : List (F32 × F32)) (s : State), c.Admissible → c.biasOffset = .zero →
    (∀ f ∈ frames, f.1.isZero = true ∧ f.2.isZero = true) → s.Silent → s.FiniteCoeffs →
    (∀ k, k < frames.length → (smoothStep^[k + 1] s).FiniteGains) →
    (∀ w ∈ (runFrames c frames s).2, F32.isZero ⟨w⟩ = true) ∧ (runFrames c frames s).1.Silent

/-- R32, R227: within a sample loop neither channel's outputs, filters or follower depend on the other channel's samples,
filters or follower. -/
def Obligations.ChannelsDoNotSeeEachOther : Prop :=
  ∀ (c : Cfg) (fs gs : List (F32 × F32)) (s t : State),
    (fs.map Prod.fst = gs.map Prod.fst → LeftAgree s t →
      leftWords (runFrames c fs s).2 = leftWords (runFrames c gs t).2 ∧
      LeftAgree (runFrames c fs s).1 (runFrames c gs t).1) ∧
    (fs.map Prod.snd = gs.map Prod.snd → RightAgree s t →
      rightWords (runFrames c fs s).2 = rightWords (runFrames c gs t).2 ∧
      RightAgree (runFrames c fs s).1 (runFrames c gs t).1)

/-- R162, R221, S7: a BLOCK after a reactivation answers, and leaves in the filters and in `LAST_ENV`, bit for bit
what it does after a cold start with the same rate and parameters. -/
def Obligations.ReactivationEqualsColdStart : Prop :=
  ∀ (nin nout : BitVec 4) (n : Word) (events : List Event) (samples : List F32)
    (s s1 s2 s3 t t1 t2 : State),
    s.Inv → t.Inv → s.cfgValid = true → t.cfgValid = true → s.sr = t.sr → s.param = t.param →
    t.mode = .inactive →
    exec (.setact false) s = .next s1 → exec (.setact true) s1 = .next s2 → exec (.setact true) t = .next t1 →
    exec (.block nin nout n events samples) s2 = .next s3 →
    exec (.block nin nout n events samples) t1 = .next t2 →
    0 < n.toInt → 2 ≤ nin.toNat → 2 ≤ nout.toNat →
    (∃ words, s3.resp = s2.resp ++ words ∧ t2.resp = t1.resp ++ words) ∧ s3.bq = t2.bq ∧ s3.lastEnv = t2.lastEnv

/-- R167, D41: redesigning when the tag has not changed would write the same bits: the change test is an economy. -/
def Obligations.RedesignWithoutChangeIsUnobservable : Prop :=
  ∀ (c : Cfg) (sr : F64) (t u : ToneTag), t.same u = true → designTone c sr t = designTone c sr u

/-- R149: turning `P_ULO` or `P_UHI` in a block changes the coefficients of slots 0 and 1, or of slot 2, only: the
tone stack, the cabinet filters and the other toggle's filters keep theirs. -/
def Obligations.ToggleChangesOnlyItsFilters : Prop :=
  ∀ (nin nout : BitVec 4) (n : Word) (v : F64) (samples : List F32) (s t : State),
    s.Inv → s.mode = .active → s.cfgValid = true → (tagOf Config.cfg s.param).same s.toneTag = true →
    (exec (.block nin nout n [⟨7#32, v⟩] samples) s = .next t →
      ∀ k ∈ [2, 3, 4, 5, 8, 9], (t.bq.left.slot k).map Biquad.c = (s.bq.left.slot k).map Biquad.c ∧
        (t.bq.right.slot k).map Biquad.c = (s.bq.right.slot k).map Biquad.c) ∧
    (exec (.block nin nout n [⟨8#32, v⟩] samples) s = .next t →
      ∀ k ∈ [0, 1, 3, 4, 5, 8, 9], (t.bq.left.slot k).map Biquad.c = (s.bq.left.slot k).map Biquad.c ∧
        (t.bq.right.slot k).map Biquad.c = (s.bq.right.slot k).map Biquad.c)

/-- R227: a NaN in the follower of either channel persists through every later frame. -/
def Obligations.NanPersistsInFollower : Prop :=
  ∀ (c : Cfg) (frames : List (F32 × F32)) (s : State),
    (s.ef.left.env.isNaN = true → (runFrames c frames s).1.ef.left.env.isNaN = true) ∧
    (s.ef.right.env.isNaN = true → (runFrames c frames s).1.ef.right.env.isNaN = true)

/-! ## The assembler's pseudo-commands -/

/-- R80, R25: `PSETI idx` stands for one PSET of `P_MIDFREQ` to exactly `idx/4`, which selects the mid-frequency index
`idx`. -/
def Obligations.PsetiSelectsMidIndex : Prop :=
  ∀ idx : Fin 5,
    (Pseudo.pseti idx).expand = [.pset 6#8 (quarter idx)] ∧ (quarter idx).isFinite = true ∧
    (quarter idx).val = (idx.val : ℚ) / 4 ∧ midIdx (quarter idx) = idx.val
end

