-- ==== Sys2Proof/Laws/State.lean ====
section
/-! SUPPORT. One lemma per field per named update of the state, true by unfolding the update once, so that no later
proof unfolds a record update. -/

namespace Sys2Proof.Machine

section Respond
variable (s : State) (ws : List Word)

@[simp] theorem State.respond_mode : (s.respond ws).mode = s.mode := rfl
@[simp] theorem State.respond_cfgValid : (s.respond ws).cfgValid = s.cfgValid := rfl
@[simp] theorem State.respond_sr : (s.respond ws).sr = s.sr := rfl
@[simp] theorem State.respond_param : (s.respond ws).param = s.param := rfl
@[simp] theorem State.respond_toneTag : (s.respond ws).toneTag = s.toneTag := rfl
@[simp] theorem State.respond_smIn : (s.respond ws).smIn = s.smIn := rfl
@[simp] theorem State.respond_smOut : (s.respond ws).smOut = s.smOut := rfl
@[simp] theorem State.respond_smDrv : (s.respond ws).smDrv = s.smDrv := rfl
@[simp] theorem State.respond_ef : (s.respond ws).ef = s.ef := rfl
@[simp] theorem State.respond_bq : (s.respond ws).bq = s.bq := rfl
@[simp] theorem State.respond_lastEnv : (s.respond ws).lastEnv = s.lastEnv := rfl
@[simp] theorem State.respond_envSum : (s.respond ws).envSum = s.envSum := rfl
@[simp] theorem State.respond_blk : (s.respond ws).blk = s.blk := rfl
@[simp] theorem State.respond_prim : (s.respond ws).prim = s.prim := rfl
@[simp] theorem State.respond_written : (s.respond ws).written = s.written := rfl
@[simp] theorem State.respond_draws : (s.respond ws).draws = s.draws := rfl
@[simp] theorem State.respond_cmd : (s.respond ws).cmd = s.cmd := rfl
@[simp] theorem State.respond_resp : (s.respond ws).resp = s.resp ++ statusOk :: ws := rfl

/-- A 64-bit response is a response of its two words, so the lemmas of `respond` cover it. -/
@[simp] theorem State.respond64_eq (d : BitVec 64) : s.respond64 d = s.respond (wordsOf64 d) := rfl

end Respond

section RejectHeader
variable (s : State) (rest : List Word)

@[simp] theorem State.rejectHeader_cmd : (s.rejectHeader rest).cmd = rest := rfl
@[simp] theorem State.rejectHeader_resp : (s.rejectHeader rest).resp = s.resp ++ [statusIllegal] := rfl

end RejectHeader

section SetParam
variable (s : State) (pid : Nat) (v : F64)

@[simp] theorem State.setParam_mode : (s.setParam pid v).mode = s.mode := by unfold State.setParam; split <;> rfl
@[simp] theorem State.setParam_cfgValid : (s.setParam pid v).cfgValid = s.cfgValid := by
  unfold State.setParam; split <;> rfl
@[simp] theorem State.setParam_sr : (s.setParam pid v).sr = s.sr := by unfold State.setParam; split <;> rfl
@[simp] theorem State.setParam_toneTag : (s.setParam pid v).toneTag = s.toneTag := by
  unfold State.setParam; split <;> rfl
@[simp] theorem State.setParam_smIn : (s.setParam pid v).smIn = s.smIn := by unfold State.setParam; split <;> rfl
@[simp] theorem State.setParam_smOut : (s.setParam pid v).smOut = s.smOut := by unfold State.setParam; split <;> rfl
@[simp] theorem State.setParam_smDrv : (s.setParam pid v).smDrv = s.smDrv := by unfold State.setParam; split <;> rfl
@[simp] theorem State.setParam_ef : (s.setParam pid v).ef = s.ef := by unfold State.setParam; split <;> rfl
@[simp] theorem State.setParam_bq : (s.setParam pid v).bq = s.bq := by unfold State.setParam; split <;> rfl
@[simp] theorem State.setParam_lastEnv : (s.setParam pid v).lastEnv = s.lastEnv := by
  unfold State.setParam; split <;> rfl
@[simp] theorem State.setParam_envSum : (s.setParam pid v).envSum = s.envSum := by
  unfold State.setParam; split <;> rfl
@[simp] theorem State.setParam_blk : (s.setParam pid v).blk = s.blk := by unfold State.setParam; split <;> rfl
@[simp] theorem State.setParam_prim : (s.setParam pid v).prim = s.prim := by unfold State.setParam; split <;> rfl
@[simp] theorem State.setParam_written : (s.setParam pid v).written = s.written := by
  unfold State.setParam; split <;> rfl
@[simp] theorem State.setParam_draws : (s.setParam pid v).draws = s.draws := by unfold State.setParam; split <;> rfl
@[simp] theorem State.setParam_cmd : (s.setParam pid v).cmd = s.cmd := by unfold State.setParam; split <;> rfl
@[simp] theorem State.setParam_resp : (s.setParam pid v).resp = s.resp := by unfold State.setParam; split <;> rfl

end SetParam

section Drew
variable (s : State) (known : Bool) (k : Nat)

/-- Draws move the draw counter and nothing else. -/
theorem State.drew_eq : s.drew known k = { s with draws := if known then s.draws else s.draws + k } := by
  cases known <;> rfl

@[simp] theorem State.drew_known : s.drew true k = s := rfl
@[simp] theorem State.drew_written : (s.drew known k).written = s.written := by cases known <;> rfl
@[simp] theorem State.drew_prim : (s.drew known k).prim = s.prim := by cases known <;> rfl
@[simp] theorem State.drew_resp : (s.drew known k).resp = s.resp := by cases known <;> rfl
@[simp] theorem State.drew_cmd : (s.drew known k).cmd = s.cmd := by cases known <;> rfl

end Drew

section FilterBankUpdates
variable (c : Cfg) (s : State) (dn : F64)

@[simp] theorem fbTone_toneTag : (fbTone c s).toneTag = tagOf c s.param := rfl
@[simp] theorem fbTone_written : (fbTone c s).written = { s.written with tone := true } := rfl
@[simp] theorem fbTone_left : (fbTone c s).bq.left = s.bq.left.setTone (designTone c s.sr (tagOf c s.param)) := rfl
@[simp] theorem fbTone_right : (fbTone c s).bq.right = s.bq.right.setTone (designTone c s.sr (tagOf c s.param)) := rfl
@[simp] theorem fbTone_mode : (fbTone c s).mode = s.mode := rfl
@[simp] theorem fbTone_cfgValid : (fbTone c s).cfgValid = s.cfgValid := rfl
@[simp] theorem fbTone_sr : (fbTone c s).sr = s.sr := rfl
@[simp] theorem fbTone_param : (fbTone c s).param = s.param := rfl
@[simp] theorem fbTone_smIn : (fbTone c s).smIn = s.smIn := rfl
@[simp] theorem fbTone_smOut : (fbTone c s).smOut = s.smOut := rfl
@[simp] theorem fbTone_smDrv : (fbTone c s).smDrv = s.smDrv := rfl
@[simp] theorem fbTone_ef : (fbTone c s).ef = s.ef := rfl
@[simp] theorem fbTone_lastEnv : (fbTone c s).lastEnv = s.lastEnv := rfl
@[simp] theorem fbTone_envSum : (fbTone c s).envSum = s.envSum := rfl
@[simp] theorem fbTone_blk : (fbTone c s).blk = s.blk := rfl
@[simp] theorem fbTone_prim : (fbTone c s).prim = s.prim := rfl
@[simp] theorem fbTone_draws : (fbTone c s).draws = s.draws := rfl
@[simp] theorem fbTone_cmd : (fbTone c s).cmd = s.cmd := rfl
@[simp] theorem fbTone_resp : (fbTone c s).resp = s.resp := rfl

end FilterBankUpdates

end Sys2Proof.Machine
end

