-- ==== Sys2Proof/Laws/Chain.lean ====
section
/-! SUPPORT. What the operations of the chain can do, said once: a filter step keeps coefficients, a frame changes
only running state, and what a sample loop keeps. -/

namespace Sys2Proof.Machine

/-! ## Filters -/

@[simp] theorem bqStep_coeffs (q : Biquad) (x : F64) : (bqStep q x).2.c = q.c := rfl
@[simp] theorem Biquad.retune_coeffs (q : Biquad) (c : Coeffs) : (q.retune c).c = c := rfl
@[simp] theorem Biquad.retune_z1 (q : Biquad) (c : Coeffs) : (q.retune c).z1 = q.z1 := rfl
@[simp] theorem Biquad.retune_z2 (q : Biquad) (c : Coeffs) : (q.retune c).z2 = q.z2 := rfl
@[simp] theorem Biquad.clear_coeffs (q : Biquad) : q.clear.c = q.c := rfl
@[simp] theorem Biquad.clear_z1 (q : Biquad) : q.clear.z1 = .zero := rfl
@[simp] theorem Biquad.clear_z2 (q : Biquad) : q.clear.z2 = .zero := rfl

/-- The ten coefficient sets of a bank, in slot order. -/
def Bank.coeffs (b : Bank) : List Coeffs :=
  [b.uloShelf.c, b.uloCut.c, b.uhiShelf.c, b.bass.c, b.mid.c, b.treble.c, b.tiltLo.c, b.tiltHi.c, b.cabHp.c, b.cabLp.c]

/-- The coefficients of slots 0 to 5 of a bank. -/
def Bank.toneCoeffs (b : Bank) : ToneCoeffs :=
  ⟨b.uloShelf.c, b.uloCut.c, b.uhiShelf.c, b.bass.c, b.mid.c, b.treble.c⟩

@[simp] theorem fbPre_coeffs (b : Bank) (x : F64) : (fbPre b x).2.coeffs = b.coeffs := rfl
@[simp] theorem fbPost_coeffs (b : Bank) (x : F64) : (fbPost b x).2.coeffs = b.coeffs := rfl
@[simp] theorem Bank.clear_coeffs (b : Bank) : b.clear.coeffs = b.coeffs := rfl
@[simp] theorem Bank.setTone_toneCoeffs (b : Bank) (t : ToneCoeffs) : (b.setTone t).toneCoeffs = t := rfl
@[simp] theorem Bank.setTilt_toneCoeffs (b : Bank) (c6 c7 : Coeffs) : (b.setTilt c6 c7).toneCoeffs = b.toneCoeffs := rfl
@[simp] theorem Bank.setCab_toneCoeffs (b : Bank) (c8 c9 : Coeffs) : (b.setCab c8 c9).toneCoeffs = b.toneCoeffs := rfl

/-- One channel of a frame keeps every coefficient of its filters. -/
@[simp] theorem channelFrame_coeffs (c : Cfg) (gi go dv : F64) (ef : Follower) (b : Bank) (x : F32) :
    (channelFrame c gi go dv ef b x).bank.coeffs = b.coeffs := rfl

/-- One channel of a frame keeps its follower's decay coefficient. -/
@[simp] theorem channelFrame_decay (c : Cfg) (gi go dv : F64) (ef : Follower) (b : Bank) (x : F32) :
    (channelFrame c gi go dv ef b x).ef.a = ef.a := rfl

/-! ## Frames -/

/-- What a sample loop keeps: everything but the running values of smoothers, followers and filters and the envelope
sum; and of those parts the coefficients. -/
structure LoopKeeps (s t : State) : Prop where
  rest   : t = { s with smIn := t.smIn, smOut := t.smOut, smDrv := t.smDrv, ef := t.ef, bq := t.bq, envSum := t.envSum }
  smIn   : t.smIn.a = s.smIn.a
  smOut  : t.smOut.a = s.smOut.a
  smDrv  : t.smDrv.a = s.smDrv.a
  efL    : t.ef.left.a = s.ef.left.a
  efR    : t.ef.right.a = s.ef.right.a
  left   : t.bq.left.coeffs = s.bq.left.coeffs
  right  : t.bq.right.coeffs = s.bq.right.coeffs

theorem LoopKeeps.refl (s : State) : LoopKeeps s s := ⟨rfl, rfl, rfl, rfl, rfl, rfl, rfl, rfl⟩

theorem LoopKeeps.trans {s t u : State} (h : LoopKeeps s t) (k : LoopKeeps t u) : LoopKeeps s u where
  rest := by rw [k.rest, h.rest]
  smIn := k.smIn.trans h.smIn
  smOut := k.smOut.trans h.smOut
  smDrv := k.smDrv.trans h.smDrv
  efL := k.efL.trans h.efL
  efR := k.efR.trans h.efR
  left := k.left.trans h.left
  right := k.right.trans h.right

/-- A frame keeps what a sample loop keeps. -/
theorem frame_keeps (c : Cfg) (s : State) (f : F32 × F32) : LoopKeeps s (frame c s f).1 :=
  ⟨rfl, rfl, rfl, rfl, rfl, rfl, rfl, rfl⟩

/-- A reflexive and transitive relation that every frame respects relates the ends of every sample loop. -/
theorem runFrames_induct {R : State → State → Prop} (c : Cfg) (refl : ∀ s, R s s)
    (trans : ∀ {s t u}, R s t → R t u → R s u) (one : ∀ s f, R s (frame c s f).1)
    (fs : List (F32 × F32)) (s : State) : R s (runFrames c fs s).1 := by
  induction fs generalizing s with
  | nil => exact refl s
  | cons f fs ih => exact trans (one s f) (ih _)

/-- What a whole sample loop keeps. -/
theorem runFrames_keeps (c : Cfg) (fs : List (F32 × F32)) (s : State) : LoopKeeps s (runFrames c fs s).1 :=
  runFrames_induct c LoopKeeps.refl LoopKeeps.trans (frame_keeps c) fs s

/-- Two output words a frame. -/
@[simp] theorem runFrames_length (c : Cfg) (fs : List (F32 × F32)) (s : State) :
    (runFrames c fs s).2.length = 2 * fs.length := by
  induction fs generalizing s with
  | nil => rfl
  | cons f fs ih => simp [runFrames, ih]; omega

/-- A well-formed payload of at least two channels gives as many frames as it announces. -/
theorem framesOf_length (nin k : Nat) (samples : List F32) (h : 2 ≤ nin) (hs : samples.length = nin * k) :
    (framesOf nin k samples).length = k := by
  induction k generalizing samples with
  | zero => simp [framesOf]
  | succ k ih =>
    obtain ⟨l, samples, rfl⟩ : ∃ l r, samples = l :: r := by
      cases samples with
      | nil => simp at hs; omega
      | cons l r => exact ⟨l, r, rfl⟩
    obtain ⟨r, more, rfl⟩ : ∃ r m, samples = r :: m := by
      cases samples with
      | nil => simp [Nat.mul_add] at hs; omega
      | cons l r => exact ⟨l, r, rfl⟩
    have : (more.drop (nin - 2)).length = nin * k := by
      simp [Nat.mul_add] at hs ⊢; omega
    simp [framesOf, ih _ this]

/-- Frame `i` of a payload of `nin` words a frame holds its words `nin * i` and `nin * i + 1`. -/
theorem framesOf_samples (nin : Nat) (h : 2 ≤ nin) (k : Nat) (samples : List F32) (i : Nat) (l r : F32)
    (hf : (framesOf nin k samples)[i]? = some (l, r)) :
    samples[nin * i]? = some l ∧ samples[nin * i + 1]? = some r := by
  induction k generalizing samples i with
  | zero => simp [framesOf] at hf
  | succ k ih =>
    match samples, i with
    | [], _ | [_], _ => simp [framesOf] at hf
    | a :: b :: more, 0 => simp [framesOf] at hf; simp [hf]
    | a :: b :: more, i + 1 =>
      have this := ih _ _ (by simpa [framesOf] using hf)
      simp only [List.getElem?_drop] at this
      have e0 : nin * (i + 1) = (nin - 2 + nin * i) + 2 := by rw [Nat.mul_succ]; omega
      have e1 : nin * (i + 1) + 1 = (nin - 2 + (nin * i + 1)) + 2 := by omega
      rw [e1, e0]
      simpa using this

/-- A sample loop over two lists of frames is the loop over the first and then the loop over the second. -/
theorem runFrames_append (c : Cfg) (fs gs : List (F32 × F32)) (s : State) :
    runFrames c (fs ++ gs) s =
      ((runFrames c gs (runFrames c fs s).1).1, (runFrames c fs s).2 ++ (runFrames c gs (runFrames c fs s).1).2) := by
  induction fs generalizing s with
  | nil => rfl
  | cons f fs ih => simp [runFrames, ih]

/-! ## Events -/

/-- An event changes nothing but the parameters. -/
theorem applyEvent_keeps (s : State) (e : Event) : applyEvent s e = { s with param := (applyEvent s e).param } := by
  unfold applyEvent State.setParam
  split
  · split <;> rfl
  · rfl

/-- Events change nothing but the parameters. -/
theorem applyEvents_keeps (events : List Event) (s : State) :
    applyEvents events s = { s with param := (applyEvents events s).param } := by
  induction events generalizing s with
  | nil => rfl
  | cons e es ih =>
    have h1 : applyEvents (e :: es) s = applyEvents es (applyEvent s e) := rfl
    rw [h1, ih, applyEvent_keeps s e]

/-! ## Steps 2 to 5 -/

/-- What the steps before the sample loop keep: everything but parameters, tag, filters, block registers, the
envelope sum and the written marks; and every `z1` and `z2`. -/
theorem targetStep_eq (c : Cfg) (s : State) :
    targetStep c s = { s with
      blk := blockRegsOf c s.param s.lastEnv
      bq := (targetStep c s).bq
      written.block := true } := rfl

/-- The tilt designs that the target step writes, and that it writes no other coefficient. -/
theorem targetStep_left (c : Cfg) (s : State) :
    (targetStep c s).bq.left = s.bq.left.setTilt
      (designLSH c.num s.sr (.lit 40) ((F64.lit (-3)).mul (blockRegsOf c s.param s.lastEnv).driveNorm2) c.qShelf)
      (designHSH c.num s.sr (.lit 4000) ((F64.lit (-4)).mul (blockRegsOf c s.param s.lastEnv).driveNorm2) c.qShelf) :=
  rfl

theorem targetStep_right (c : Cfg) (s : State) :
    (targetStep c s).bq.right = s.bq.right.setTilt
      (designLSH c.num s.sr (.lit 40) ((F64.lit (-3)).mul (blockRegsOf c s.param s.lastEnv).driveNorm2) c.qShelf)
      (designHSH c.num s.sr (.lit 4000) ((F64.lit (-4)).mul (blockRegsOf c s.param s.lastEnv).driveNorm2) c.qShelf) :=
  rfl

/-- The tone step keeps everything but the tag, the filters and the tone mark. -/
theorem toneStep_keeps (c : Cfg) (s : State) :
    toneStep c s = { s with
      toneTag := (toneStep c s).toneTag, bq := (toneStep c s).bq, written.tone := (toneStep c s).written.tone } := by
  unfold toneStep; split <;> rfl

/-- The two things the tone step can do. -/
theorem toneStep_cases (c : Cfg) (s : State) :
    ((tagOf c s.param).same s.toneTag = true ∧ toneStep c s = s) ∨
    ((tagOf c s.param).same s.toneTag = false ∧ toneStep c s = fbTone c s) := by
  unfold toneStep
  cases h : (tagOf c s.param).same s.toneTag
  · exact .inr ⟨rfl, rfl⟩
  · exact .inl ⟨rfl, rfl⟩

/-- What the start of a body writes: the parameters, the tag, the filters, the block registers, the written marks, and
`ENV_SUM`, which it zeroes. -/
theorem blockStart_keeps (c : Cfg) (events : List Event) (s : State) :
    ∃ p tag bq blk w, blockStart c events s =
      { s with param := p, toneTag := tag, bq := bq, blk := blk, written := w, envSum := .zero } := by
  unfold blockStart
  rw [targetStep_eq, toneStep_keeps, applyEvents_keeps]
  exact ⟨_, _, _, _, _, rfl⟩

/-! ## BLOCK -/

/-- What a BLOCK can do: nothing, run its body, or run its body over draws. -/
theorem block_cases (c : Cfg) (nin nout : BitVec 4) (n : Word) (events : List Event) (samples : List F32) (s : State) :
    ((s.mode = .inactive ∨ blockShape nin nout n = false) ∧ block c nin nout n events samples s = (s, [])) ∨
    (s.mode = .active ∧ blockShape nin nout n = true ∧ s.cfgValid = true ∧
      block c nin nout n events samples s = blockBody c nin n events samples s) ∨
    (s.mode = .active ∧ blockShape nin nout n = true ∧ s.cfgValid = false ∧
      block c nin nout n events samples s = blockBodyUnset c nin n events samples s) := by
  unfold block
  cases hm : s.mode
  · exact .inl ⟨.inl rfl, rfl⟩
  · cases hb : blockShape nin nout n
    · exact .inl ⟨.inr rfl, by simp⟩
    · cases hv : s.cfgValid
      · exact .inr (.inr ⟨rfl, rfl, rfl, by simp⟩)
      · exact .inr (.inl ⟨rfl, rfl, rfl, by simp⟩)

/-- The shape test in the terms of R165. -/
theorem blockShape_iff (nin nout : BitVec 4) (n : Word) :
    blockShape nin nout n = true ↔ 2 ≤ nin.toNat ∧ 2 ≤ nout.toNat ∧ 0 < n.toInt := by
  rw [blockShape, Bool.and_eq_true, Bool.and_eq_true, decide_eq_true_iff, decide_eq_true_iff, decide_eq_true_iff]
  exact and_assoc

end Sys2Proof.Machine
end

