-- ==== Sys2Proof/Laws/Encoding.lean ====
section
/-! SUPPORT. Fields of a header, words of a 64-bit datum, and what the payload readers answer: each said once, so
that statements about decoding need not unfold bit slices. -/

namespace Sys2Proof

/-! ## Header fields -/

/-- The bits of a header word, field by field. -/
theorem header_getLsbD (op a : BitVec 8) (b : BitVec 16) (j : Nat) :
    (header op a b).getLsbD j =
      if j < 16 then b.getLsbD j else if j - 16 < 8 then a.getLsbD (j - 16) else op.getLsbD (j - 16 - 8) := by
  have h1 := BitVec.getLsbD_append (x := op ++ a) (y := b) (i := j)
  rw [BitVec.getLsbD_append (x := op) (y := a) (i := j - 16)] at h1
  exact h1

@[simp] theorem opField_header (op a : BitVec 8) (b : BitVec 16) : opField (header op a b) = op := by
  ext i hi
  have h1 : ¬ 24 + i < 16 := by omega
  have h2 : ¬ 24 + i - 16 < 8 := by omega
  have h3 : 24 + i - 16 - 8 = i := by omega
  simp only [opField, BitVec.getElem_extractLsb', header_getLsbD, h1, h2, h3, if_false, BitVec.getLsbD_eq_getElem hi]

@[simp] theorem aField_header (op a : BitVec 8) (b : BitVec 16) : aField (header op a b) = a := by
  ext i hi
  have h1 : ¬ 16 + i < 16 := by omega
  have h3 : 16 + i - 16 = i := by omega
  simp only [aField, BitVec.getElem_extractLsb', header_getLsbD, h1, h3, hi, if_false, if_true,
    BitVec.getLsbD_eq_getElem hi]

@[simp] theorem bField_header (op a : BitVec 8) (b : BitVec 16) : bField (header op a b) = b := by
  ext i hi
  simp only [bField, BitVec.getElem_extractLsb', header_getLsbD, Nat.zero_add, hi, if_true,
    BitVec.getLsbD_eq_getElem hi]

/-- A header word is its three fields. -/
theorem header_fields (h : Word) : header (opField h) (aField h) (bField h) = h := by
  simp only [header, opField, aField, bField]
  ext i hi
  simp only [BitVec.getElem_append, BitVec.getElem_extractLsb']
  split
  · simp [BitVec.getLsbD_eq_getElem hi]
  · split
    · rename_i h1 h2
      have : 16 + (i - 16) = i := by omega
      simp [this, BitVec.getLsbD_eq_getElem hi]
    · rename_i h1 h2
      have : 24 + (i - 16 - 8) = i := by omega
      simp [this, BitVec.getLsbD_eq_getElem hi]

@[simp] theorem ninField_header (op : BitVec 8) (nin nout : BitVec 4) (b : BitVec 16) :
    ninField (header op (nin ++ nout) b) = nin := by
  ext i hi
  have h1 : ¬ 20 + i < 16 := by omega
  have h2 : 20 + i - 16 < 8 := by omega
  have h3 : ¬ 20 + i - 16 < 4 := by omega
  have h4 : 20 + i - 16 - 4 = i := by omega
  have ha := BitVec.getLsbD_append (x := nin) (y := nout) (i := 20 + i - 16)
  simp only [h3, h4, if_false] at ha
  simp only [ninField, BitVec.getElem_extractLsb', header_getLsbD, h1, h2, if_false, if_true]
  exact ha.trans (BitVec.getLsbD_eq_getElem hi)

@[simp] theorem noutField_header (op : BitVec 8) (nin nout : BitVec 4) (b : BitVec 16) :
    noutField (header op (nin ++ nout) b) = nout := by
  ext i hi
  have h1 : ¬ 16 + i < 16 := by omega
  have h2 : i < 8 := by omega
  have h3 : 16 + i - 16 = i := by omega
  have ha := BitVec.getLsbD_append (x := nin) (y := nout) (i := i)
  simp only [hi, if_true] at ha
  simp only [noutField, BitVec.getElem_extractLsb', header_getLsbD, h1, h3, h2, if_false, if_true]
  exact ha.trans (BitVec.getLsbD_eq_getElem hi)

/-- The two halves of the field `A` of a BLOCK header make the field. -/
theorem nin_append_nout (h : Word) : ninField h ++ noutField h = aField h := by
  simp only [ninField, noutField, aField]
  ext i hi
  simp only [BitVec.getElem_append, BitVec.getElem_extractLsb']
  split
  · rfl
  · rename_i h1
    have : 20 + (i - 4) = 16 + i := by omega
    rw [this]

/-! ## 64-bit data -/

/-- The words of a datum make the datum. -/
@[simp] theorem f64OfWords_words (x : F64) : f64OfWords (loWord x.bits) (hiWord x.bits) = x := by
  apply F64.ext_bits
  simp only [f64OfWords, loWord, hiWord]
  ext i hi
  simp only [BitVec.getElem_append, BitVec.getElem_extractLsb']
  split
  · simp [BitVec.getLsbD_eq_getElem hi]
  · rename_i h1
    have : 32 + (i - 32) = i := by omega
    simp [this, BitVec.getLsbD_eq_getElem hi]

@[simp] theorem loWord_f64OfWords (lo hi : Word) : loWord (f64OfWords lo hi).bits = lo := by
  ext i h
  have ha := BitVec.getLsbD_append (x := hi) (y := lo) (i := i)
  simp only [h, if_true] at ha
  simp only [loWord, f64OfWords, BitVec.getElem_extractLsb', Nat.zero_add]
  exact ha.trans (BitVec.getLsbD_eq_getElem h)

@[simp] theorem hiWord_f64OfWords (lo hi : Word) : hiWord (f64OfWords lo hi).bits = hi := by
  ext i h
  have h1 : ¬ 32 + i < 32 := by omega
  have h2 : 32 + i - 32 = i := by omega
  have ha := BitVec.getLsbD_append (x := hi) (y := lo) (i := 32 + i)
  simp only [h1, h2, if_false] at ha
  simp only [hiWord, f64OfWords, BitVec.getElem_extractLsb']
  exact ha.trans (BitVec.getLsbD_eq_getElem h)

/-- The words of a datum assembled from two words are those words. -/
@[simp] theorem wordsOf64_f64OfWords (lo hi : Word) : wordsOf64 (f64OfWords lo hi).bits = [lo, hi] := by
  simp [wordsOf64]

@[simp] theorem wordsOf64_length (d : BitVec 64) : (wordsOf64 d).length = 2 := rfl

@[simp] theorem operandWords_length (xs : List F64) : (operandWords xs).length = 2 * xs.length := by
  induction xs with
  | nil => rfl
  | cons x xs ih => simp_all [operandWords]; omega

@[simp] theorem Event.words_length (e : Event) : e.words.length = 3 := rfl

@[simp] theorem eventWords_length (es : List Event) : (es.flatMap Event.words).length = 3 * es.length := by
  induction es with
  | nil => rfl
  | cons e es ih => simp [ih]; omega

/-! ## The payload readers -/

/-- Reading so many event records answers exactly that many, and their words are the ones consumed. -/
theorem takeEvents_eq_some {k : Nat} {ws rest : List Word} {es : List Event} :
    takeEvents k ws = some (es, rest) ↔ es.length = k ∧ ws = es.flatMap Event.words ++ rest := by
  induction k generalizing ws es rest with
  | zero =>
    simp only [takeEvents, Option.some.injEq, Prod.mk.injEq, List.length_eq_zero_iff]
    constructor
    · rintro ⟨rfl, rfl⟩; simp
    · rintro ⟨rfl, h⟩; simpa using h
  | succ k ih =>
    match ws with
    | [] | [_] | [_, _] =>
      simp only [takeEvents, reduceCtorEq, false_iff, not_and]
      intro h1 h2
      have h3 := congrArg List.length h2
      simp [h1] at h3
      omega
    | tag :: lo :: hi :: ws =>
      simp only [takeEvents, Option.map_eq_some_iff, Prod.exists]
      constructor
      · rintro ⟨es', rest', h, he⟩
        obtain ⟨h1, h2⟩ := ih.mp h
        simp only [Prod.mk.injEq] at he
        obtain ⟨rfl, rfl⟩ := he
        simp [h1, h2, Event.words]
      · rintro ⟨h1, h2⟩
        cases es with
        | nil => simp at h1
        | cons e es =>
          simp only [List.flatMap_cons, Event.words, wordsOf64, List.cons_append, List.nil_append,
            List.cons.injEq] at h2
          obtain ⟨rfl, rfl, rfl, rfl⟩ := h2
          exact ⟨es, rest, ih.mpr ⟨by simpa using h1, rfl⟩, by simp⟩

/-- Reading event records fails exactly when too few words have arrived. -/
theorem takeEvents_eq_none {k : Nat} {ws : List Word} : takeEvents k ws = none ↔ ws.length < 3 * k := by
  induction k generalizing ws with
  | zero => simp [takeEvents]
  | succ k ih =>
    match ws with
    | [] => simp [takeEvents]
    | [a] => simp [takeEvents]; omega
    | [a, b] => simp [takeEvents]; omega
    | tag :: lo :: hi :: ws => simp [takeEvents, ih]; omega

/-- Reading so many samples answers exactly that many, and their words are the ones consumed. -/
theorem takeSamples_eq_some {k : Nat} {ws rest : List Word} {xs : List F32} :
    takeSamples k ws = some (xs, rest) ↔ xs.length = k ∧ ws = xs.map F32.bits ++ rest := by
  induction k generalizing ws xs rest with
  | zero =>
    simp only [takeSamples, Option.some.injEq, Prod.mk.injEq, List.length_eq_zero_iff]
    constructor
    · rintro ⟨rfl, rfl⟩; simp
    · rintro ⟨rfl, h⟩; simpa using h
  | succ k ih =>
    match ws with
    | [] =>
      simp only [takeSamples, reduceCtorEq, false_iff, not_and]
      intro h1 h2
      have h3 := congrArg List.length h2
      simp [h1] at h3
      omega
    | w :: ws =>
      simp only [takeSamples, Option.map_eq_some_iff, Prod.exists]
      constructor
      · rintro ⟨xs', rest', h, he⟩
        obtain ⟨h1, h2⟩ := ih.mp h
        simp only [Prod.mk.injEq] at he
        obtain ⟨rfl, rfl⟩ := he
        simp [h1, h2]
      · rintro ⟨h1, h2⟩
        cases xs with
        | nil => simp at h1
        | cons x xs =>
          simp only [List.map_cons, List.cons_append, List.cons.injEq] at h2
          obtain ⟨rfl, rfl⟩ := h2
          exact ⟨xs, rest, ih.mpr ⟨by simpa using h1, rfl⟩, by simp⟩

/-- Reading samples fails exactly when too few words have arrived. -/
theorem takeSamples_eq_none {k : Nat} {ws : List Word} : takeSamples k ws = none ↔ ws.length < k := by
  induction k generalizing ws with
  | zero => simp [takeSamples]
  | succ k ih =>
    cases ws with
    | nil => simp [takeSamples]
    | cons w ws => simp [takeSamples, ih]

end Sys2Proof
end

