-- ==== Sys2Proof/Laws/Float.lean ====
section
/-! SUPPORT. The fields of a packed number, and where a NaN comes from and goes to, each said once. -/

namespace Sys2Proof

/-! ## Packing -/

/-- Sign and magnitude of a packed number are what it was packed from. -/
theorem F64.pack_toNat (s : Bool) (m : Nat) (h : m < 2 ^ 63) :
    (F64.pack s m).bits.toNat = m + if s then 2 ^ 63 else 0 := by
  simp only [F64.pack, BitVec.toNat_ofNat]
  cases s <;> simp <;> omega

theorem F64.mag_pack (s : Bool) (m : Nat) (h : m < 2 ^ 63) : (F64.pack s m).mag = m := by
  rw [F64.mag, F64.pack_toNat s m h]
  cases s <;> simp <;> omega

theorem F64.sign_pack (s : Bool) (m : Nat) (h : m < 2 ^ 63) : (F64.pack s m).sign = s := by
  rw [F64.sign, BitVec.msb_eq_decide, F64.pack_toNat s m h]
  cases s
  · simp; omega
  · simp

theorem F32.pack_toNat (s : Bool) (m : Nat) (h : m < 2 ^ 31) :
    (F32.pack s m).bits.toNat = m + if s then 2 ^ 31 else 0 := by
  simp only [F32.pack, BitVec.toNat_ofNat]
  cases s <;> simp <;> omega

theorem F32.mag_pack (s : Bool) (m : Nat) (h : m < 2 ^ 31) : (F32.pack s m).mag = m := by
  rw [F32.mag, F32.pack_toNat s m h]
  cases s <;> simp <;> omega

theorem F32.sign_pack (s : Bool) (m : Nat) (h : m < 2 ^ 31) : (F32.pack s m).sign = s := by
  rw [F32.sign, BitVec.msb_eq_decide, F32.pack_toNat s m h]
  cases s
  · simp; omega
  · simp

/-- A number is its sign and its magnitude. -/
theorem F64.pack_sign_mag (x : F64) : F64.pack x.sign x.mag = x := by
  have hx := x.bits.isLt
  apply F64.ext_bits
  apply BitVec.eq_of_toNat_eq
  rw [F64.pack_toNat _ _ (by rw [F64.mag]; omega), F64.sign, BitVec.msb_eq_decide, F64.mag]
  by_cases h : 2 ^ 63 ≤ x.bits.toNat
  · simp only [show 2 ^ (64 - 1) ≤ x.bits.toNat from h, decide_true, if_true]; omega
  · simp only [show ¬ 2 ^ (64 - 1) ≤ x.bits.toNat from h, decide_false, Bool.false_eq_true, if_false]; omega

/-- Numbers of the same sign and magnitude are the same. -/
theorem F64.ext_sign_mag {x y : F64} (hs : x.sign = y.sign) (hm : x.mag = y.mag) : x = y := by
  rw [← x.pack_sign_mag, ← y.pack_sign_mag, hs, hm]

/-! ## Rounding -/

/-- A rounded magnitude is at most infinity. -/
theorem roundMag_le_inf (p : Nat) (qmin : Int) (inf m : Nat) (e : Int) : roundMag p qmin inf m e ≤ inf := by
  unfold roundMag
  split
  · exact Nat.zero_le _
  · exact Nat.min_le_left _ _

@[simp] theorem roundMag_zero (p : Nat) (qmin : Int) (inf : Nat) (e : Int) : roundMag p qmin inf 0 e = 0 := by
  simp only [roundMag, if_true]

/-- A rounded result is no NaN. -/
@[simp] theorem F64.isNaN_round (s : Bool) (m : Nat) (e : Int) : (F64.round s m e).isNaN = false := by
  have h := roundMag_le_inf 53 (-1074) F64.infMag m e
  have h' : F64.infMag < 2 ^ 63 := by decide
  simp only [F64.isNaN, F64.round, F64.mag_pack _ _ (Nat.lt_of_le_of_lt h h'), decide_eq_false_iff_not]
  omega

theorem F64.sign_round (s : Bool) (m : Nat) (e : Int) : (F64.round s m e).sign = s := by
  have h := roundMag_le_inf 53 (-1074) F64.infMag m e
  have h' : F64.infMag < 2 ^ 63 := by decide
  rw [F64.round, F64.sign_pack _ _ (Nat.lt_of_le_of_lt h h')]

/-! ## NaN results -/

/-- Every NaN the machine makes is one. -/
@[simp] theorem F64.isNaN_quietNaN (b : BitVec 52) : (F64.quietNaN b).isNaN = true := by
  have h1 := (b.extractLsb' 51 1).isLt
  have h2 := (b.extractLsb' 0 51).isLt
  have hb : (F64.quietNaN b).bits.toNat =
      ((b.extractLsb' 51 1).toNat <<< 12 ||| 0xFFF) <<< 51 ||| (b.extractLsb' 0 51).toNat := by
    have := BitVec.toNat_append (b.extractLsb' 51 1 ++ 0xFFF#12) (b.extractLsb' 0 51)
    rw [BitVec.toNat_append] at this
    exact this
  rw [← Nat.shiftLeft_add_eq_or_of_lt h2, ← Nat.shiftLeft_add_eq_or_of_lt (by decide : (0xFFF : Nat) < 2 ^ 12),
    Nat.shiftLeft_eq, Nat.shiftLeft_eq] at hb
  simp only [F64.isNaN, F64.mag, hb, F64.infMag, decide_eq_true_eq]
  omega

@[simp] theorem isNaN_nanResult (op : FOp) (x y : F64) : (nanResult op x y).isNaN = true := by
  simp only [nanResult, F64.isNaN_quietNaN]

theorem F64.add_isNaN_left {x y : F64} (h : x.isNaN = true) : (x.add y).isNaN = true := by simp [F64.add, h]
theorem F64.add_isNaN_right {x y : F64} (h : y.isNaN = true) : (x.add y).isNaN = true := by simp [F64.add, h]
theorem F64.sub_isNaN_left {x y : F64} (h : x.isNaN = true) : (x.sub y).isNaN = true := by simp [F64.sub, h]
theorem F64.sub_isNaN_right {x y : F64} (h : y.isNaN = true) : (x.sub y).isNaN = true := by simp [F64.sub, h]
theorem F64.mul_isNaN_left {x y : F64} (h : x.isNaN = true) : (x.mul y).isNaN = true := by simp [F64.mul, h]
theorem F64.mul_isNaN_right {x y : F64} (h : y.isNaN = true) : (x.mul y).isNaN = true := by simp [F64.mul, h]
theorem F64.div_isNaN_left {x y : F64} (h : x.isNaN = true) : (x.div y).isNaN = true := by simp [F64.div, h]
theorem F64.div_isNaN_right {x y : F64} (h : y.isNaN = true) : (x.div y).isNaN = true := by simp [F64.div, h]

/-! ## Finite operands -/

/-- A finite number is no NaN and no infinity. -/
theorem F64.isFinite_iff (x : F64) : x.isFinite = true ↔ x.isNaN = false ∧ x.isInf = false := by
  simp only [F64.isFinite, F64.isNaN, F64.isInf, decide_eq_true_eq, decide_eq_false_iff_not]
  omega

/-- The sum of finite numbers is the rounded exact sum. -/
theorem F64.add_of_finite {x y : F64} (hx : x.isFinite = true) (hy : y.isFinite = true) :
    x.add y = F64.addFinite x y := by
  obtain ⟨hx1, hx2⟩ := x.isFinite_iff.mp hx
  obtain ⟨hy1, hy2⟩ := y.isFinite_iff.mp hy
  simp [F64.add, F64.addNumber, hx1, hx2, hy1, hy2]

@[simp] theorem F64.isFinite_neg (x : F64) : x.neg.isFinite = x.isFinite := by
  simp only [F64.isFinite, F64.mag_neg]

@[simp] theorem F64.isInf_neg (x : F64) : x.neg.isInf = x.isInf := by
  simp only [F64.isInf, F64.mag_neg]

/-- The difference of finite numbers is the rounded exact sum of one and the other's negative. -/
theorem F64.sub_of_finite {x y : F64} (hx : x.isFinite = true) (hy : y.isFinite = true) :
    x.sub y = F64.addFinite x y.neg := by
  obtain ⟨hx1, hx2⟩ := x.isFinite_iff.mp hx
  obtain ⟨hy1, hy2⟩ := y.isFinite_iff.mp hy
  simp [F64.sub, F64.addNumber, hx1, hx2, hy1, hy2]

/-- A finite number that is zero has magnitude 0. -/
theorem F64.isZero_iff (x : F64) : x.isZero = true ↔ x.mag = 0 := by simp [F64.isZero]

theorem F64.isFinite_of_isZero {x : F64} (h : x.isZero = true) : x.isFinite = true := by
  simp only [F64.isZero, F64.isFinite, decide_eq_true_eq] at *
  have : 0 < F64.infMag := by decide
  omega

/-- The product of finite numbers is the rounded exact product. -/
theorem F64.mul_of_finite {x y : F64} (hx : x.isFinite = true) (hy : y.isFinite = true) :
    x.mul y = F64.round (x.sign != y.sign) (x.mant * y.mant) (x.expo + y.expo) := by
  obtain ⟨hx1, hx2⟩ := x.isFinite_iff.mp hx
  obtain ⟨hy1, hy2⟩ := y.isFinite_iff.mp hy
  simp [F64.mul, hx1, hx2, hy1, hy2]

end Sys2Proof
end

