-- ==== Sys2Proof/Laws/Ops.lean ====
section
/-! SUPPORT. For each shared operation over the state, once, everything it can do. -/

namespace Sys2Proof.Machine

/-! ## Parameter registers -/

/-- Writing a parameter register that exists changes that register alone. -/
theorem State.setParam_lt (s : State) (pid : Nat) (v : F64) (h : pid < 9) :
    s.setParam pid v = { s with param := s.param.set pid v h } := by
  simp only [State.setParam, dif_pos h]

/-- Writing a parameter register that does not exist does nothing. -/
theorem State.setParam_ge (s : State) (pid : Nat) (v : F64) (h : 9 ≤ pid) : s.setParam pid v = s := by
  simp only [State.setParam, dif_neg (Nat.not_lt.mpr h)]

/-- Writing a parameter register changes the parameters at most. -/
theorem State.setParam_eq (s : State) (pid : Nat) (v : F64) :
    s.setParam pid v = { s with param := (s.setParam pid v).param } := by
  unfold State.setParam; split <;> rfl

/-- A parameter register after a write: the value written, or what it held. -/
theorem State.setParam_param_get (s : State) (pid : Nat) (v : F64) (p : Fin 9) :
    (s.setParam pid v).param[p] = if pid = p.val then v else s.param[p] := by
  by_cases h : pid < 9
  · rw [s.setParam_lt pid v h]
    exact Vector.getElem_set h p.isLt
  · have hp : pid ≠ p.val := by have := p.isLt; omega
    rw [s.setParam_ge pid v (Nat.not_lt.mp h), if_neg hp]

/-- A read after a write of the same register gives the value written. -/
theorem State.getParam_setParam (s : State) (pid : Nat) (v : F64) (h : pid < 9) :
    (s.setParam pid v).getParam pid = v := by
  simp only [State.getParam, dif_pos h, s.setParam_lt pid v h]
  exact Vector.getElem_set_self h

theorem State.getParam_lt (s : State) (pid : Nat) (h : pid < 9) : s.getParam pid = s.param[pid] := by
  simp only [State.getParam, dif_pos h]

theorem State.getParam_ge (s : State) (pid : Nat) (h : 9 ≤ pid) : s.getParam pid = .zero := by
  simp only [State.getParam, dif_neg (Nat.not_lt.mpr h)]

/-! ## Unspecified registers -/

@[simp] theorem readOrDraw_true (v : F64) (d : Nat) : readOrDraw true v d = v := rfl
@[simp] theorem readOrDraw_false (v : F64) (d : Nat) : readOrDraw false v d = Config.anyF64 d := rfl

/-- A smoother both of whose registers have been written is read as it stands. -/
theorem State.readSm_known (s : State) (ha : s.written.smA = true) (hy : s.written.smY = true) :
    s.readSm = s.prim.sm := by simp [State.readSm, ha, hy]

theorem State.readEf_known (s : State) (ha : s.written.efA = true) (he : s.written.efEnv = true) :
    s.readEf = s.prim.ef := by simp [State.readEf, ha, he]

theorem State.readAr_known (s : State) (ha : s.written.arA = true) (he : s.written.arEnv = true) :
    s.readAr = s.prim.ar := by simp [State.readAr, ha, he]

theorem State.readBq_known (s : State) (hc : s.written.bqC = true) (hz : s.written.bqZ = true) :
    s.readBq = s.prim.bq := by simp [State.readBq, hc, hz]

/-- What a float register of the register space reads as. -/
theorem readF64_cases (written : Bool) (v : F64) :
    (written = true ∧ readF64 written v = .known v.bits) ∨ (written = false ∧ readF64 written v = .anyF64) := by
  cases written
  · exact .inr ⟨rfl, rfl⟩
  · exact .inl ⟨rfl, rfl⟩

/-- A known reading takes no draw and is its value. -/
@[simp] theorem Reading.bits_known (d : Nat) (v : BitVec 64) : (Reading.known v).bits d = v := rfl
@[simp] theorem Reading.isKnown_known (v : BitVec 64) : (Reading.known v).isKnown = true := rfl

/-! ## The ports -/

/-- The outcome of an illegal header, whole. -/
theorem State.rejectHeader_eq (s : State) (rest : List Word) :
    s.rejectHeader rest = { s with cmd := rest, resp := s.resp ++ [0x00000001#32] } := rfl

/-- A response, whole. -/
theorem State.respond_eq (s : State) (ws : List Word) :
    s.respond ws = { s with resp := s.resp ++ 0x00000000#32 :: ws } := rfl

end Sys2Proof.Machine
end

