-- ==== Sys2Proof/Laws/PerInstr.lean ====
section
/-! SUPPORT. A statement made of every instruction, one lemma for each constructor: the number of words of a command is
one plus the payload length that its header, and for BLOCK its first payload word, announce (30_encoding.md R76). -/

namespace Sys2Proof

/-- A mask over a header acts field by field. -/
theorem header_and (op a op' a' : BitVec 8) (b b' : BitVec 16) :
    header op a b &&& header op' a' b' = header (op &&& op') (a &&& a') (b &&& b') := by
  apply BitVec.eq_of_getLsbD_eq
  intro i hi
  simp only [BitVec.getLsbD_and, header_getLsbD]
  split
  · rfl
  · split <;> rfl

/-- Headers are equal exactly when their fields are. -/
theorem header_inj (op a op' a' : BitVec 8) (b b' : BitVec 16) :
    header op a b = header op' a' b' ↔ op = op' ∧ a = a' ∧ b = b' := by
  constructor
  · intro h
    exact ⟨by simpa using congrArg opField h, by simpa using congrArg aField h, by simpa using congrArg bField h⟩
  · rintro ⟨rfl, rfl, rfl⟩; rfl

/-- Which headers a row of the opcode table covers, field by field. -/
theorem Row.covers_header (r : Row) (op a : BitVec 8) (b : BitVec 16) :
    r.covers (header op a b) =
      decide (op &&& opField r.mask = opField r.pattern ∧ a &&& aField r.mask = aField r.pattern ∧
        b &&& bField r.mask = bField r.pattern) := by
  have h : r.covers (header op a b) =
      decide (header op a b &&& header (opField r.mask) (aField r.mask) (bField r.mask) =
        header (opField r.pattern) (aField r.pattern) (bField r.pattern)) := by
    rw [header_fields, header_fields]; rfl
  rw [h, header_and]
  exact decide_eq_decide.mpr (header_inj ..)

/-- The payload of a command whose header some row other than BLOCK's covers. -/
theorem payloadLength_of_find {h n : Word} {r : Row} (hr : opcodeRows.find? (fun r => r.covers h) = some r)
    (hb : opField h ≠ 0x05#8) : payloadLength h n = r.payload := by
  simp only [payloadLength, hr, if_neg hb]

/-- The payload of a BLOCK (R73). -/
theorem payloadLength_block (nin nout : BitVec 4) (b : BitVec 16) (n : Word) :
    payloadLength (header 0x05#8 (nin ++ nout) b) n = 1 + 3 * b.toNat + nin.toNat * frameCount n := by
  have hr : opcodeRows.find? (fun r => r.covers (header 0x05#8 (nin ++ nout) b)) =
      some ⟨"BLOCK", 0x05000000, 0xFF000000, 1⟩ := by
    simp [opcodeRows, Row.covers_header, opField, aField, bField]
  simp only [payloadLength, hr, opField_header, if_true, bField_header, ninField_header]

end Sys2Proof

namespace Sys2Proof.Laws.EncodedLength

/-- The words of a well-formed command are its header and as many payload words as R76 counts. -/
def Statement (i : Instr) : Prop :=
  i.WellFormed → (encode i).length = 1 + payloadLength ((encode i).headD 0#32) ((encode i).tail.headD 0#32)

/-- A command whose fields `A` and `B` are zero, from the row that covers its header. -/
theorem of_find {op : BitVec 8} {xs : List F64} {r : Row}
    (hr : opcodeRows.find? (fun r => r.covers (header op 0#8 0#16)) = some r) (hb : op ≠ 0x05#8)
    (hx : r.payload = 2 * xs.length) :
    (encodeU op xs).length =
      1 + payloadLength ((encodeU op xs).headD 0#32) ((encodeU op xs).tail.headD 0#32) := by
  simp only [encodeU, List.headD_cons, List.length_cons, operandWords_length,
    payloadLength_of_find hr (by rwa [opField_header]), hx]
  omega

theorem setup (sr : F64) : Statement (.setup sr) := fun _ => of_find (op := 0x01#8) (xs := [sr]) rfl (by decide) rfl

theorem setact (active : Bool) : Statement (.setact active) := fun _ => by cases active <;> decide

theorem pset (pid : BitVec 8) (value : F64) : Statement (.pset pid value) := fun _ => by
  have hr : opcodeRows.find? (fun r => r.covers (header 0x03#8 pid 0#16)) =
      some ⟨"PSET", 0x03000000, 0xFF00FFFF, 2⟩ := by
    simp [opcodeRows, Row.covers_header, opField, aField, bField]
  simp only [encode, List.headD_cons, payloadLength_of_find hr (by simp)]
  rfl

theorem pget (pid : BitVec 8) : Statement (.pget pid) := fun _ => by
  have hr : opcodeRows.find? (fun r => r.covers (header 0x04#8 pid 0#16)) =
      some ⟨"PGET", 0x04000000, 0xFF00FFFF, 0⟩ := by
    simp [opcodeRows, Row.covers_header, opField, aField, bField]
  simp only [encode, List.headD_cons, payloadLength_of_find hr (by simp)]
  rfl

theorem block (nin nout : BitVec 4) (n : Word) (events : List Event) (samples : List F32) :
    Statement (.block nin nout n events samples) := fun h => by
  simp only [Instr.WellFormed, Instr.wellFormed, blockWellFormed, Bool.and_eq_true, decide_eq_true_eq] at h
  simp only [encode, List.headD_cons, List.tail_cons, payloadLength_block, BitVec.toNat_ofNat,
    Nat.mod_eq_of_lt h.1, List.length_cons, List.length_append, eventWords_length, List.length_map, h.2]
  omega

theorem rd (addr : BitVec 16) : Statement (.rd addr) := fun _ => by
  have hr : opcodeRows.find? (fun r => r.covers (header 0x06#8 0#8 addr)) =
      some ⟨"RD", 0x06000000, 0xFFFF0000, 0⟩ := by
    simp [opcodeRows, Row.covers_header, opField, aField, bField]
  simp only [encode, List.headD_cons, payloadLength_of_find hr (by simp)]
  rfl

theorem smCfg (ms sr : F64) : Statement (.smCfg ms sr) := fun _ =>
  of_find (op := 0x10#8) (xs := [ms, sr]) rfl (by decide) rfl
theorem smRst (v : F64) : Statement (.smRst v) := fun _ =>
  of_find (op := 0x11#8) (xs := [v]) rfl (by decide) rfl
theorem smStep (x : F64) : Statement (.smStep x) := fun _ =>
  of_find (op := 0x12#8) (xs := [x]) rfl (by decide) rfl
theorem efCfg (ms sr : F64) : Statement (.efCfg ms sr) := fun _ =>
  of_find (op := 0x14#8) (xs := [ms, sr]) rfl (by decide) rfl
theorem efRst : Statement .efRst := fun _ =>
  of_find (op := 0x15#8) (xs := []) rfl (by decide) rfl
theorem efStep (x : F64) : Statement (.efStep x) := fun _ =>
  of_find (op := 0x16#8) (xs := [x]) rfl (by decide) rfl
theorem arCfg (attackMs releaseMs sr : F64) : Statement (.arCfg attackMs releaseMs sr) := fun _ =>
  of_find (op := 0x18#8) (xs := [attackMs, releaseMs, sr]) rfl (by decide) rfl
theorem arRst : Statement .arRst := fun _ =>
  of_find (op := 0x19#8) (xs := []) rfl (by decide) rfl
theorem arStep (x : F64) : Statement (.arStep x) := fun _ =>
  of_find (op := 0x1A#8) (xs := [x]) rfl (by decide) rfl
theorem bqLsh (sr f0 gainDb q : F64) : Statement (.bqLsh sr f0 gainDb q) := fun _ =>
  of_find (op := 0x20#8) (xs := [sr, f0, gainDb, q]) rfl (by decide) rfl
theorem bqHsh (sr f0 gainDb q : F64) : Statement (.bqHsh sr f0 gainDb q) := fun _ =>
  of_find (op := 0x21#8) (xs := [sr, f0, gainDb, q]) rfl (by decide) rfl
theorem bqPk (sr f0 gainDb q : F64) : Statement (.bqPk sr f0 gainDb q) := fun _ =>
  of_find (op := 0x22#8) (xs := [sr, f0, gainDb, q]) rfl (by decide) rfl
theorem bqHpf (sr f0 q : F64) : Statement (.bqHpf sr f0 q) := fun _ =>
  of_find (op := 0x23#8) (xs := [sr, f0, q]) rfl (by decide) rfl
theorem bqLpf (sr f0 q : F64) : Statement (.bqLpf sr f0 q) := fun _ =>
  of_find (op := 0x24#8) (xs := [sr, f0, q]) rfl (by decide) rfl
theorem bqRst : Statement .bqRst := fun _ =>
  of_find (op := 0x25#8) (xs := []) rfl (by decide) rfl
theorem bqStep (x : F64) : Statement (.bqStep x) := fun _ =>
  of_find (op := 0x26#8) (xs := [x]) rfl (by decide) rfl
theorem sat (x drive : F64) : Statement (.sat x drive) := fun _ =>
  of_find (op := 0x28#8) (xs := [x, drive]) rfl (by decide) rfl

end Sys2Proof.Laws.EncodedLength
end

