-- ==== Sys2Proof/Tests/Slice0.lean ====
section
/-! SUPPORT. Tests. Expected values come from the spec's own vectors (95_test_vectors.md, named in each comment), from
its encoding tables, or from hand calculation; and for every statement that has hypotheses, a concrete input that meets
them (`wit_…`). -/

namespace Sys2Proof.Tests

open Sys2Proof.Machine

/-! One test after another: checked all at once, they would need a thread each. -/
set_option Elab.async false

/-! ## Well-formedness: the check of BLOCK refuses what the port cannot carry (R73) -/

/-- One frame of two channels. -/
def someBlock : Instr := .block 2#4 2#4 1#32 [⟨2#32, .half⟩] [⟨0x3F000000#32⟩, ⟨0x3F000000#32⟩]

theorem test_wf_block : someBlock.WellFormed := by decide
theorem test_wf_block_negative_count : (Instr.block 2#4 2#4 0xFFFFFFFF#32 [] []).WellFormed := by decide
theorem test_illformed_missing_sample : ¬ (Instr.block 2#4 2#4 1#32 [] [⟨0#32⟩]).WellFormed := by decide
theorem test_illformed_extra_sample : ¬ (Instr.block 2#4 2#4 0#32 [] [⟨0#32⟩]).WellFormed := by decide
theorem test_illformed_negative_count : ¬ (Instr.block 2#4 2#4 0xFFFFFFFF#32 [] [⟨0#32⟩]).WellFormed := by decide

theorem test_wf_most_events : (Instr.block 2#4 2#4 0#32 (List.replicate 65535 ⟨0#32, .zero⟩) []).WellFormed := by
  simp only [Instr.WellFormed, Instr.wellFormed, blockWellFormed, List.length_replicate]; decide

theorem test_illformed_too_many_events :
    ¬ (Instr.block 2#4 2#4 0#32 (List.replicate 65536 ⟨0#32, .zero⟩) []).WellFormed := by
  simp only [Instr.WellFormed, Instr.wellFormed, blockWellFormed, List.length_replicate]; decide

/-! ## Decoding: for every constructor a word written out from R70 to R75 -/

theorem test_decode_setup :
    decode [0x01000000, 0x00000000, 0x40E77000] = .command (.setup ⟨0x40E7700000000000#64⟩) [] := by decide
theorem test_decode_setact : decode [0x02000001] = .command (.setact true) [] := by decide
theorem test_decode_setact_off : decode [0x02000000, 0x99] = .command (.setact false) [0x99] := by decide
theorem test_decode_pset :
    decode [0x03070000, 0x00000000, 0x3FF00000] = .command (.pset 7#8 .one) [] := by decide
theorem test_decode_pget : decode [0x04C80000] = .command (.pget 200#8) [] := by decide
theorem test_decode_block :
    decode [0x05220001, 0x00000001, 0x00000002, 0x00000000, 0x3FE00000, 0x3F000000, 0x3F000000] =
      .command someBlock [] := by decide
/-- V-ENC 12: a negative count carries no samples. -/
theorem test_decode_block_negative :
    decode [0x05220000, 0xFFFFFFFF, 7] = .command (.block 2#4 2#4 0xFFFFFFFF#32 [] []) [7] := by decide
/-- V-ENC 13: one channel, three samples. -/
theorem test_decode_block_one_channel :
    decode [0x05120000, 0x00000003, 0x3F000000, 0x3F000000, 0x3F000000] =
      .command (.block 1#4 2#4 3#32 [] [⟨0x3F000000#32⟩, ⟨0x3F000000#32⟩, ⟨0x3F000000#32⟩]) [] := by decide
theorem test_decode_rd : decode [0x060001A4] = .command (.rd 0x01A4#16) [] := by decide
theorem test_decode_smCfg : decode [0x10000000, 0x00000000, 0x40340000, 0x00000000, 0x40E77000] =
    .command (.smCfg ⟨0x4034000000000000#64⟩ ⟨0x40E7700000000000#64⟩) [] := by decide
theorem test_decode_smRst : decode [0x11000000, 1, 2] = .command (.smRst ⟨0x0000000200000001#64⟩) [] := by decide
theorem test_decode_smStep : decode [0x12000000, 1, 2] = .command (.smStep ⟨0x0000000200000001#64⟩) [] := by decide
theorem test_decode_efCfg : decode [0x14000000, 1, 2, 3, 4] =
    .command (.efCfg ⟨0x0000000200000001#64⟩ ⟨0x0000000400000003#64⟩) [] := by decide
theorem test_decode_efRst : decode [0x15000000] = .command .efRst [] := by decide
theorem test_decode_efStep : decode [0x16000000, 1, 2] = .command (.efStep ⟨0x0000000200000001#64⟩) [] := by decide
theorem test_decode_arCfg : decode [0x18000000, 1, 2, 3, 4, 5, 6] =
    .command (.arCfg ⟨0x0000000200000001#64⟩ ⟨0x0000000400000003#64⟩ ⟨0x0000000600000005#64⟩) [] := by decide
theorem test_decode_arRst : decode [0x19000000] = .command .arRst [] := by decide
theorem test_decode_arStep : decode [0x1A000000, 1, 2] = .command (.arStep ⟨0x0000000200000001#64⟩) [] := by decide
theorem test_decode_bqLsh : decode [0x20000000, 1, 2, 3, 4, 5, 6, 7, 8] =
    .command (.bqLsh ⟨0x0000000200000001#64⟩ ⟨0x0000000400000003#64⟩ ⟨0x0000000600000005#64⟩
      ⟨0x0000000800000007#64⟩) [] := by decide
theorem test_decode_bqHsh : decode [0x21000000, 1, 2, 3, 4, 5, 6, 7, 8] =
    .command (.bqHsh ⟨0x0000000200000001#64⟩ ⟨0x0000000400000003#64⟩ ⟨0x0000000600000005#64⟩
      ⟨0x0000000800000007#64⟩) [] := by decide
theorem test_decode_bqPk : decode [0x22000000, 1, 2, 3, 4, 5, 6, 7, 8] =
    .command (.bqPk ⟨0x0000000200000001#64⟩ ⟨0x0000000400000003#64⟩ ⟨0x0000000600000005#64⟩
      ⟨0x0000000800000007#64⟩) [] := by decide
/-- P1's first and second lines have these shapes. -/
theorem test_decode_bqLpf :
    decode [0x24000000, 0x00000000, 0x40E77000, 0x00000000, 0x40B45000, 0x76C8B439, 0x3FE69FBE] =
      .command (.bqLpf ⟨0x40E7700000000000#64⟩ ⟨0x40B4500000000000#64⟩ .q707) [] := by decide
theorem test_decode_bqHpf : decode [0x23000000, 1, 2, 3, 4, 5, 6] =
    .command (.bqHpf ⟨0x0000000200000001#64⟩ ⟨0x0000000400000003#64⟩ ⟨0x0000000600000005#64⟩) [] := by decide
theorem test_decode_bqRst : decode [0x25000000] = .command .bqRst [] := by decide
theorem test_decode_bqStep : decode [0x26000000, 0, 0x3FE00000] = .command (.bqStep .half) [] := by decide
theorem test_decode_sat :
    decode [0x28000000, 0x00000000, 0x3FE00000, 0x00000000, 0x3FF00000] = .command (.sat .half .one) [] := by decide

/-! Illegal headers at the edges of the opcode ranges of R77, and nonzero reserved fields. -/

theorem test_illegal_opcodes :
    ([0x00, 0x07, 0x0F, 0x13, 0x17, 0x1B, 0x1F, 0x27, 0x29, 0xFF] : List (BitVec 8)).all
      (fun op => decode (header op 0#8 0#16 :: [5]) = .illegal .unknownOpcode [5]) = true := by decide
theorem test_illegal_fields :
    ([0x01000001, 0x01010000, 0x02000002, 0x02010001, 0x03070001, 0x04020001, 0x06010000, 0x25008000, 0x28800000] :
      List Word).all (fun h => decode (h :: [5]) = .illegal .nonzeroReserved [5]) = true := by decide
theorem test_incomplete :
    ([[], [0x01000000], [0x01000000, 0], [0x05220000], [0x05220001, 0, 2, 0], [0x05220000, 1, 0]] :
      List (List Word)).all (fun ws => decode ws = .incomplete) = true := by decide
theorem test_table_word : decodeTableWord 32 0x02000001 = some (.setact true) := by decide
theorem test_table_word_zero_operands : decodeTableWord 32 0x20000000 = some (.bqLsh .zero .zero .zero .zero) := by
  decide

/-! ## Arithmetic: IEEE results by hand, and the decimal constants -/

/-- 0.1 + 0.2 = 0.30000000000000004. -/
theorem test_add : (⟨0x3FB999999999999A#64⟩ : F64).add ⟨0x3FC999999999999A#64⟩ = ⟨0x3FD3333333333334#64⟩ := by
  decide +kernel
/-- 2^53 + 1 ties to even; 2^53 + 3 ties upwards. -/
theorem test_add_ties_even : (F64.ofNat (2 ^ 53)).add .one = F64.ofNat (2 ^ 53) ∧
    (F64.ofNat (2 ^ 53 + 2)).add .one = F64.ofNat (2 ^ 53 + 4) := by decide +kernel
/-- x - x is +0; -0 + -0 is -0. -/
theorem test_add_zeros : F64.one.sub .one = .zero ∧ F64.zero.neg.add F64.zero.neg = F64.zero.neg := by decide +kernel
/-- The largest number doubled is infinity; the least subnormal halved ties to zero. -/
theorem test_mul_extremes : (⟨0x7FEFFFFFFFFFFFFF#64⟩ : F64).mul .two = .posInf ∧
    (⟨1#64⟩ : F64).mul .half = .zero ∧ (⟨3#64⟩ : F64).mul .half = ⟨2#64⟩ := by decide +kernel
/-- 1/3, and a finite number over a zero. -/
theorem test_div : F64.one.div (.lit 3) = ⟨0x3FD5555555555555#64⟩ ∧ F64.one.neg.div .zero = .negInf := by
  decide +kernel
/-- sqrt 2; the root of a zero is that zero. -/
theorem test_sqrt : F64.two.sqrt = ⟨0x3FF6A09E667F3BCD#64⟩ ∧ F64.zero.neg.sqrt = F64.zero.neg := by decide +kernel
theorem test_invalid_is_nan : (F64.posInf.sub .posInf).isNaN = true ∧ (F64.zero.div .zero).isNaN = true ∧
    (F64.zero.mul .posInf).isNaN = true ∧ F64.one.neg.sqrt.isNaN = true := by
  refine ⟨?_, ?_, ?_, ?_⟩
  · rw [F64.sub, F64.addNumber]; exact isNaN_nanResult ..
  · rw [F64.div]; exact isNaN_nanResult ..
  · rw [F64.mul]; exact isNaN_nanResult ..
  · rw [F64.sqrt]; exact isNaN_nanResult ..
/-- 0.1 narrowed; half an f32 unit past 1 ties to even; 2^128 overflows. -/
theorem test_narrow : (⟨0x3FB999999999999A#64⟩ : F64).narrow = ⟨0x3DCCCCCD#32⟩ ∧
    (⟨0x3FF0000010000000#64⟩ : F64).narrow = ⟨0x3F800000#32⟩ ∧
    (F64.ofNat (2 ^ 128)).narrow = ⟨0x7F800000#32⟩ := by decide +kernel
/-- R11 at its edges: `2^128 - 2^103` is the least magnitude that overflows, `-2^-150` ties to a negative zero. -/
theorem test_narrow_edges : (⟨0x47EFFFFFF0000000#64⟩ : F64).narrow = ⟨0x7F800000#32⟩ ∧
    (⟨0x47EFFFFFEFFFFFFF#64⟩ : F64).narrow = ⟨0x7F7FFFFF#32⟩ ∧
    (⟨0xB690000000000000#64⟩ : F64).narrow = ⟨0x80000000#32⟩ := by decide +kernel
/-- The least subnormal sample widened is 2^-149. -/
theorem test_widen : (⟨1#32⟩ : F32).widen = ⟨0x36A0000000000000#64⟩ ∧ (⟨0x3F000000#32⟩ : F32).widen = .half := by
  decide +kernel
theorem test_floor : (⟨0xBFE0000000000000#64⟩ : F64).floor = -1 ∧ (⟨0x400FFFFFFFFFFFFF#64⟩ : F64).floor = 3 := by
  decide +kernel
/-- `max` and `clamp` with a NaN (R12). -/
theorem test_clamp_nan : (⟨0x7FF8000000000000#64⟩ : F64).clamp .zero .one = .zero ∧
    F64.one.max ⟨0x7FF8000000000000#64⟩ = ⟨0x7FF8000000000000#64⟩ := by decide +kernel

/-- The constants of the rules from their decimal numbers. -/
theorem test_constants : f64Lit "0.707".toList = some .q707 ∧ f64Lit "0.001".toList = some minSmootherMs ∧
    f64Lit "0.7".toList = some defaultParams[1] ∧ f64Lit "0.3".toList = some defaultParams[2] ∧
    f64Lit "10.0".toList = some .ten ∧ f64Lit "0.5".toList = some .half := by decide +kernel
theorem test_literals : F64.lit (-24) = ⟨0xC038000000000000#64⟩ ∧ F64.lit 0 = .zero ∧
    F64.lit 5200 = ⟨0x40B4500000000000#64⟩ ∧ F64.lit 1 = .one ∧ F64.lit 2 = .two ∧ F64.lit 10 = .ten := by
  decide +kernel

/-! ## The assembler (R79, R80): the worked examples of R81 -/

theorem test_asm_block :
    assemble "BLOCK nin=2 nout=2 n=1 ev=[(2,0.5)] in=[(0.5,0.5)]" =
      some [0x05220001, 0x00000001, 0x00000002, 0x00000000, 0x3FE00000, 0x3F000000, 0x3F000000] := by decide +kernel
theorem test_asm_lines :
    assemble "SETUP 48000.0 ; rate\n\nPSET P_ULO, 1.0\nRD 0x01A4\nREACTIVATE" =
      some [0x01000000, 0x00000000, 0x40E77000, 0x03070000, 0x00000000, 0x3FF00000, 0x060001A4, 0x02000000,
        0x02000001] := by decide +kernel
/-- Log entry 17: the two ways to write frames that carry no sample; a tuple with a trailing comma is refused. -/
theorem test_asm_no_channels :
    assemble "BLOCK nin=0 nout=2 n=2 in=[(),()]" = some [0x05020000, 0x00000002] ∧
    assemble "BLOCK nin=0 nout=2 n=2" = some [0x05020000, 0x00000002] ∧
    assemble "BLOCK nin=1 nout=2 n=1 in=[(0.5,)]" = none := by decide +kernel
/-- Log entry 17: no comma after the last tuple of a list, no hex exponent; a signed decimal exponent is read. -/
theorem test_asm_strict :
    assemble "BLOCK nin=1 nout=2 n=1 ev=[(2,0.5),] in=[(0.5)]" = none ∧
    assemble "BLOCK nin=1 nout=2 n=2 in=[(0.5),(0.5),]" = none ∧
    assemble "BLOCK nin=1 nout=2 n=2 in=[(0.5),(0.5)]" = some [0x05120000, 2, 0x3F000000, 0x3F000000] ∧
    f64Lit "1e0x10".toList = none ∧ f64Lit "5E-1".toList = some .half ∧ f64Lit "+5.e-1".toList = some .half := by
  decide +kernel
theorem test_asm_refuses : assemble "BLOCK nin=2 nout=2 n=1" = none ∧ assemble "EF.RST 1.0" = none := by decide +kernel
theorem test_quarters : (List.finRange 5).map quarter =
    [.zero, ⟨0x3FD0000000000000#64⟩, .half, ⟨0x3FE8000000000000#64⟩, .one] := by decide +kernel

/-! ## Parameter mappings (V-MAP) -/

theorem test_gainDb : gainDb .zero = ⟨0xC038000000000000#64⟩ ∧ gainDb .half = .zero ∧
    f64Lit "9.599999999999994".toList = some (gainDb defaultParams[1]) ∧
    gainDb .one = ⟨0x4038000000000000#64⟩ := by decide +kernel
theorem test_baseDrive : baseDriveOf .zero = .one ∧ baseDriveOf defaultParams[2] = ⟨0x401ACCCCCCCCCCCD#64⟩ ∧
    baseDriveOf .one = .lit 20 := by decide +kernel
theorem test_toneDb : toneDb .zero (.lit 12) = .lit (-12) ∧ toneDb .half (.lit 12) = .zero ∧
    toneDb .one (.lit 12) = .lit 12 := by decide +kernel
/-- 0.19 and 0.2, 0.8 and 1.0. -/
theorem test_midIdx : (["0.0", "0.19", "0.2", "0.4", "0.6", "0.75", "0.8", "1.0"].map fun v =>
    (f64Lit v.toList).map fun v => Min.min 4 ((F64.lit 5).mul v).floor) =
      [some 0, some 0, some 1, some 2, some 3, some 3, some 4, some 4] := by decide +kernel
theorem test_toggle : toggle Config.sampleCfg .half = false ∧
    toggle { Config.sampleCfg with toggleHalfOn := true } .half = true ∧
    toggle Config.sampleCfg ⟨0x3FE0000000000001#64⟩ = true ∧
    toggle { Config.sampleCfg with toggleHalfOn := true } ⟨0x3FDFFFFFFFFFFFFF#64⟩ = false := by decide +kernel
/-- Base 6.7 at rest, and the feedback value of P5's second block. -/
theorem test_dynamic_drive :
    driveNorm2Of ⟨0x401ACCCCCCCCCCCD#64⟩ = ⟨0x3FDE666666666667#64⟩ ∧
    f64Lit "0.12418784687973583".toList = some (envClampedOf ⟨0x3FA531D98DF07D70#64⟩) ∧
    envClampedOf .half = .one ∧ dynDriveOf .one = .lit 9 ∧
    envClampedOf ⟨0x7FF8000000000000#64⟩ = .zero := by
  refine ⟨by decide +kernel, by decide +kernel, by decide +kernel, by decide +kernel, ?_⟩
  have h : (F64.mul ⟨0x7FF8000000000000#64⟩ (.lit 3)).isNaN = true := F64.mul_isNaN_left (by decide)
  simp [envClampedOf, F64.clamp, F64.max, F64.lt, h]
  decide

/-! ## Smoothing (V-SM): the steps from the spec's decay coefficients -/

/-- V-SM2, the first two steps. -/
theorem test_smStep :
    smStep ⟨0x3FEFF7789AA2FCB2#64⟩ .zero .one = ⟨0x3F510ECABA069C00#64⟩ ∧
    smStep ⟨0x3FEFF7789AA2FCB2#64⟩ ⟨0x3F510ECABA069C00#64⟩ .one = ⟨0x3F610C84CA779879#64⟩ := by decide +kernel
/-- V-SM3: the input is rectified. -/
theorem test_efStep :
    f64Lit "0.002081164700700744".toList = some (efStep ⟨0x3FEFEEF37B358867#64⟩ .zero F64.one.neg) := by
  decide +kernel
/-- V-SM4: attack on -1.0, release on 0.0. -/
theorem test_arStep :
    (f64Lit "0.02061781866875989".toList).map (fun e =>
      arStep ⟨⟨0x3FEF57194CE34A49#64⟩, ⟨0x3FEFFE4B238B1A37#64⟩, e⟩ F64.one.neg) =
        f64Lit "0.04081054289086192".toList ∧
    (f64Lit "0.04512357318495445".toList).map (fun e =>
      arStep ⟨⟨0x3FEF57194CE34A49#64⟩, ⟨0x3FEFFE4B238B1A37#64⟩, e⟩ .zero) =
        f64Lit "0.04511417341971713".toList := by decide +kernel

/-! ## Biquad -/

/-- V-BQ4, the first and the last step: outputs and states. -/
theorem test_bqStep :
    let k : Coeffs := ⟨.half, ⟨0x3FD0000000000000#64⟩, ⟨0xBFC0000000000000#64⟩, F64.half.neg, ⟨0x3FD0000000000000#64⟩⟩
    bqStep ⟨k, .zero, .zero⟩ .one = (.half, ⟨k, .half, ⟨0xBFD0000000000000#64⟩⟩) ∧
    bqStep ⟨k, ⟨0xBFC0000000000000#64⟩, F64.zero.neg⟩ (.lit (-2)) =
      (⟨0xBFF2000000000000#64⟩, ⟨k, ⟨0xBFF1000000000000#64⟩, ⟨0x3FE1000000000000#64⟩⟩) := by decide +kernel

/-- A coefficient set from decimal numbers. -/
def coeffs (a b c d e : String) : Option Coeffs := do
  some ⟨← f64Lit a.toList, ← f64Lit b.toList, ← f64Lit c.toList, ← f64Lit d.toList, ← f64Lit e.toList⟩

/-! The five shapes by hand, at `A = 4`, `c = 0.5` and an `alpha` that makes `A0` a power of two. -/

theorem test_shelfLow : some (shelfLow (.lit 4) .half ⟨0x3FD8000000000000#64⟩) =
    coeffs "2.5" "0.5" "1" "-1.375" "0.625" := by decide +kernel
theorem test_shelfHigh : some (shelfHigh (.lit 4) .half ⟨0x3FC0000000000000#64⟩) =
    coeffs "7" "-11" "6" "0.25" "0.75" := by decide +kernel
theorem test_peaking : some (peaking (.lit 4) .half (.lit 4)) = coeffs "8.5" "-0.5" "-7.5" "-0.5" "0" := by
  decide +kernel
theorem test_highPass : some (highPass .half .one) = coeffs "0.375" "-0.75" "0.375" "-0.5" "0" := by decide +kernel
theorem test_lowPass : some (lowPass .half .one) = coeffs "0.125" "0.25" "0.125" "-0.5" "0" := by decide +kernel
/-- The prelude: `2 * PI * 800 / 48000` and the sine over twice the Q, with a sine of one half. -/
theorem test_prelude : f64Lit "0.10471975511965978".toList = some (designW0 ⟨0x40E7700000000000#64⟩ (.lit 800)) ∧
    designAlpha { Config.sampleNum with sin := fun _ => .half } .one .one .two = ⟨0x3FC0000000000000#64⟩ := by
  decide +kernel

/-! ## Saturation (V-SAT 2 and 3): the argument of `tanh` -/

/-- `ASYM = 0.1`, and a `tanh` that gives its argument back, so that the result shows the argument. -/
def linearCfg : Cfg :=
  { Config.sampleCfg with asym := ⟨0x3FB999999999999A#64⟩, num := { Config.sampleNum with tanh := fun x => x } }

theorem test_sat : some (sat linearCfg .half .one) = f64Lit "0.525".toList ∧
    some (sat linearCfg F64.half.neg .one) = f64Lit "-0.475".toList := by decide +kernel

/-! ## A frame (P2, frame 0)

The coefficients, the smoother's decay and the targets are the spec's; `tanh` is replaced by the identity, which for
arguments of 10^-7 differs from it only far below the last bit of a sample. -/

def ident (b1 b2 : BitVec 64) : Biquad := ⟨⟨.one, ⟨b1⟩, ⟨b2⟩, ⟨b1⟩, ⟨b2⟩⟩, .zero, .zero⟩

def p2Bank : Bank where
  uloShelf := ident 0xBFFFE1AA5EDB579A#64 0x3FEFC38E05FFF440#64
  uloCut := ident 0xBFFE85131261330C#64 0x3FED2BAD753C9778#64
  uhiShelf := ident 0xBFE3D86BAB94F68F#64 0x3FCEC35D5CA7B469#64
  bass := ident 0xBFFFE1AA5EDB579A#64 0x3FEFC38E05FFF440#64
  mid := ident 0xBFFDA2502A37F419#64 0x3FEB98338C0C5EB1#64
  treble := ident 0xBFF4792AEAC784E1#64 0x3FDE8FEA998BE764#64
  tiltLo := ident 0xBFFFE1AA5EDB579A#64 0x3FEFC38E05FFF440#64
  tiltHi := ident 0xBFF4792AEAC784E1#64 0x3FDE8FEA998BE764#64
  cabHp := ⟨⟨⟨0x3FEFD6655827A05D#64⟩, ⟨0xBFFFD6655827A05D#64⟩, ⟨0x3FEFD6655827A05D#64⟩, ⟨0xBFFFD64A4E93FDFB#64⟩,
    ⟨0x3FEFAD00C376857E#64⟩⟩, .zero, .zero⟩
  cabLp := ⟨⟨⟨0x3FB3BD6587D5B0D8#64⟩, ⟨0x3FC3BD6587D5B0D8#64⟩, ⟨0x3FB3BD6587D5B0D8#64⟩, ⟨0xBFF1359AAD8ECB51#64⟩,
    ⟨0x3FD893D03E10DE1B#64⟩⟩, .zero, .zero⟩

def p2State : State :=
  let sm : Smoother := ⟨⟨0x3FEFF7789AA2FCB2#64⟩, .zero⟩
  let ef : Follower := ⟨⟨0x3FEFEEF37B358867#64⟩, .zero⟩
  { State.reset with
    smIn := sm, smOut := sm, smDrv := sm, ef := ⟨ef, ef⟩, bq := ⟨p2Bank, p2Bank⟩
    blk := ⟨.one, ⟨0x400828DC72950134#64⟩, .one, .zero, .one, .one, .zero⟩ }

theorem test_frame :
    (frame linearCfg p2State (⟨0x3F000000#32⟩, ⟨0xBF000000#32⟩)).2 = (⟨0x2F0FBCC7#32⟩, ⟨0xAF0FBCC6#32⟩) := by
  decide +kernel

theorem test_frame_second :
    let s := (frame linearCfg p2State (⟨0x3F000000#32⟩, ⟨0xBF000000#32⟩)).1
    let r := frame linearCfg s (⟨0x3F000000#32⟩, ⟨0x3E800000#32⟩)
    r.2 = (⟨0x30FD9BEB#32⟩, ⟨0xAF995B92#32⟩) ∧ (blockEnd 2 r.1).lastEnv = ⟨0x3EBFC8338474A516#64⟩ ∧
      r.1.ef.left.env = ⟨0x3ECB3C547B18FBC4#64⟩ ∧ r.1.smOut.y = ⟨0x3F79BE5161E7679F#64⟩ := by decide +kernel

/-! ## Steps and commands -/

/-- The reset state with these words at the command port. -/
def withCmd (ws : List Word) : State := { State.reset with cmd := ws }

/-- The answer is this next state. -/
def answers (r : Result) (t : State) : Bool :=
  match r with
  | .next u => decide (u = t)
  | .fault _ | .refused _ => false

/-- V-ENC 4 and 5: PGET 1 after power-on, and PGET 200. -/
theorem test_step_pget : answers (step (withCmd [0x04010000])) { State.reset with resp := [0, 0x66666666, 0x3FE66666] } = true ∧
    answers (step (withCmd [0x04C80000])) { State.reset with resp := [0, 0, 0] } = true := by decide
/-- V-ENC 6: RD 0x0000 after power-on; an unlisted address. -/
theorem test_step_rd : answers (step (withCmd [0x06000000])) { State.reset with resp := [0, 0, 0] } = true ∧
    answers (step (withCmd [0x060001E0])) { State.reset with resp := [0, 0, 0] } = true := by decide +kernel
/-- V-ENC 9: SETACT with a reserved bit set. -/
theorem test_step_illegal : answers (step (withCmd [0x02000002, 7])) { State.reset with cmd := [7], resp := [1] } = true := by
  decide
theorem test_step_waits : answers (step (withCmd [0x01000000, 0])) (withCmd [0x01000000, 0]) = true := by decide
/-- V-ENC 7: `CFG_VALID` is bit 1 and `MODE` bit 0 of register 0. -/
theorem test_flags : ({ State.reset with cfgValid := true, mode := .active } : State).flags = 3#64 ∧
    ({ State.reset with cfgValid := true } : State).flags = 2#64 := by decide
/-- P3 line 7: PSET 9 has no effect; PSET 8 has. -/
theorem test_pset : answers (exec (.pset 9#8 .one) State.reset) { State.reset with resp := [0] } = true ∧
    answers (exec (.pset 8#8 .one) State.reset) { State.reset with
      param := #v[.half, ⟨0x3FE6666666666666#64⟩, ⟨0x3FD3333333333333#64⟩, .half, .half, .half, .half, .zero, .one]
      resp := [0] } = true := by decide
/-- R166: events apply in order and the last one for a parameter wins; a record with a reserved bit is skipped. -/
theorem test_events :
    (applyEvents [⟨2#32, .one⟩, ⟨2#32, .half⟩, ⟨0x102#32, .ten⟩, ⟨9#32, .ten⟩] State.reset).param[2] = .half := by decide
/-- R53: of three channels the third is ignored. -/
theorem test_frames_of_three : framesOf 3 2 [⟨1#32⟩, ⟨2#32⟩, ⟨3#32⟩, ⟨4#32⟩, ⟨5#32⟩, ⟨6#32⟩] =
    [(⟨1#32⟩, ⟨2#32⟩), (⟨4#32⟩, ⟨5#32⟩)] := by decide
/-- R55: the addresses of P6, `BQ[0][9].a2` at 0x014C and `BQ[1][0].b0` at 0x0180. -/
theorem test_window : readReg { p2State with cfgValid := true } 0x014C = .known 0x3FD893D03E10DE1B#64 ∧
    readReg { p2State with written := { Written.reset with tone := true } } 0x0180 = .known F64.one.bits := by
  decide +kernel
/-- R33: a unit STEP on a written instance uses it (V-SM2 through the command). -/
theorem test_smStep_command :
    answers
      (exec (.smStep .one) { State.reset with
        prim.sm := ⟨⟨0x3FEFF7789AA2FCB2#64⟩, .zero⟩, written.smA := true, written.smY := true })
      { State.reset with
        prim.sm := ⟨⟨0x3FEFF7789AA2FCB2#64⟩, ⟨0x3F510ECABA069C00#64⟩⟩, written.smA := true, written.smY := true
        resp := [0, 0xBA069C00, 0x3F510ECA] } = true := by decide +kernel

/-! ## States for the witnesses -/

def f48k : F64 := ⟨0x40E7700000000000#64⟩

/-- Active and set up, everything else as at reset: enough for what needs no invariant. -/
def onState : State := { State.reset with mode := .active, cfgValid := true }

/-- Active without SETUP. -/
def unsetState : State := { State.reset with mode := .active }

/-- The machine after `SETUP 48000.0`. -/
def setUpState : State := setup Config.cfg f48k State.reset

/-- The machine after `SETUP 48000.0; SETACT 1`. -/
def activeState : State := setActive Config.cfg true setUpState

theorem setUpState_inv : setUpState.Inv where
  ordered := ⟨fun h => (nomatch h), fun _ => rfl⟩
  symmetric := ⟨fun _ => rfl, fun _ => ⟨rfl, rfl, rfl, rfl, rfl, rfl⟩, fun h => (nomatch h), fun _ => ⟨rfl, rfl⟩⟩
  tuned := ⟨fun _ => ⟨rfl, rfl, rfl, rfl, rfl, rfl⟩, fun _ => rfl, fun _ => rfl, fun _ => rfl, fun _ => rfl,
    fun _ => rfl, fun _ => rfl⟩

theorem activeState_inv : activeState.Inv where
  ordered := ⟨fun _ => rfl, fun _ => rfl⟩
  symmetric := ⟨fun _ => rfl, fun _ => ⟨rfl, rfl, rfl, rfl, rfl, rfl⟩, fun h => (nomatch h), fun _ => ⟨rfl, rfl⟩⟩
  tuned := ⟨fun _ => ⟨rfl, rfl, rfl, rfl, rfl, rfl⟩, fun _ => rfl, fun _ => rfl, fun _ => rfl, fun _ => rfl,
    fun _ => rfl, fun _ => rfl⟩

/-! ## Witnesses: for every statement with hypotheses, an input that meets them, one for each clause -/

theorem wit_DecodeOfEncode : someBlock.WellFormed ∧ (Instr.sat .one .two).WellFormed := by decide
theorem wit_EncodeOfDecode : decode [0x04020000, 9] = .command (.pget 2#8) [9] := by decide
theorem wit_IllegalHeaders : decode [0x07000000, 5] = .illegal .unknownOpcode [5] ∧
    decode [0x02000002, 5] = .illegal .nonzeroReserved [5] ∧ decode [0x02000001, 5] = .command (.setact true) [5] := by
  decide
theorem wit_WaitsExactly : decode [0x28000000, 1, 2, 3] = .incomplete ∧
    decode [0x28000000, 1, 2, 3, 4] = .command (.sat ⟨0x0000000200000001#64⟩ ⟨0x0000000400000003#64⟩) [] := by decide
theorem wit_StepRuns : decode (withCmd [0x02000001, 9]).cmd = .command (.setact true) [9] := by decide
theorem wit_IllegalHeaderOnly : decode (withCmd [0xFF000000, 9]).cmd = .illegal .unknownOpcode [9] := by decide
theorem wit_IncompleteCommand : decode (withCmd []).cmd = .incomplete ∧ decode (withCmd [0x03000000, 0]).cmd = .incomplete :=
  by decide
theorem wit_StreamsAdvance : ∃ t, step (withCmd [0x02000001, 9]) = .next t ∧ t.cmd = [9] ∧ t.resp = [0#32] :=
  ⟨_, rfl, rfl, rfl⟩
theorem wit_ResponseIsStatusAndResults :
    someBlock.WellFormed ∧ (∃ t, exec someBlock onState = .next t) ∧ resultWords someBlock onState = 2 ∧
      (∃ t, exec (.pget 0#8) onState = .next t) ∧ resultWords (.setact true) onState = 0 :=
  ⟨by decide, ⟨_, rfl⟩, by decide, ⟨_, rfl⟩, rfl⟩
theorem wit_StepKeepsInvariant : ∃ t, ({ setUpState with cmd := [0x02000001] } : State).Inv ∧
    step { setUpState with cmd := [0x02000001] } = .next t :=
  ⟨_, ⟨⟨setUpState_inv.ordered.running, setUpState_inv.ordered.tone⟩,
    ⟨setUpState_inv.symmetric.follower, setUpState_inv.symmetric.tone, setUpState_inv.symmetric.tilt,
      setUpState_inv.symmetric.cab⟩,
    ⟨setUpState_inv.tuned.tone, setUpState_inv.tuned.cabHp, setUpState_inv.tuned.cabLp, setUpState_inv.tuned.smIn,
      setUpState_inv.tuned.smOut, setUpState_inv.tuned.smDrv, setUpState_inv.tuned.ef⟩⟩, rfl⟩
theorem wit_OnlySetactChangesMode :
    ∃ t, exec (.setact true) State.reset = .next t ∧ t.mode ≠ State.reset.mode := ⟨_, rfl, by decide⟩
theorem wit_OnlySetup : (∃ t, exec (.setup f48k) State.reset = .next t ∧ t.cfgValid ≠ State.reset.cfgValid ∧
      t.sr ≠ State.reset.sr) ∧ (∃ t, exec (.pget 0#8) onState = .next t ∧ onState.cfgValid = true) :=
  ⟨⟨_, rfl, nofun, by decide⟩, ⟨_, rfl, rfl⟩⟩
theorem wit_OnlyPsetAndBlock :
    (∃ t, exec (.pset 8#8 .one) State.reset = .next t ∧ t.param[(8 : Fin 9)] ≠ State.reset.param[(8 : Fin 9)]) ∧
    (∃ t, exec (.pset 0#8 .one) State.reset = .next t ∧ t.param[(0 : Fin 9)] ≠ State.reset.param[(0 : Fin 9)]) :=
  ⟨⟨_, rfl, by decide⟩, ⟨_, rfl, by decide⟩⟩
theorem wit_BankAndChain : ((Instr.sat .one .one).isUnit = true ∧ ∃ t, exec (.sat .one .one) State.reset = .next t) ∧
    ((Instr.rd 0#16).isUnit = false ∧ ∃ t, exec (.rd 0#16) State.reset = .next t) :=
  ⟨⟨rfl, _, rfl⟩, ⟨rfl, _, rfl⟩⟩
theorem wit_ToneDesigns : (ToneTag.mk .half .half .half 0 false true).midIdx = (0 : Fin 5).val ∧
    (ToneTag.mk .half .half .half 4 true false).midIdx = (4 : Fin 5).val := by decide
theorem wit_SetactTransitions : State.reset.mode = .inactive ∧ activeState.mode = .active := ⟨rfl, rfl⟩
theorem wit_PsetPget : (8#8).toNat < 9 ∧ 9 ≤ (9#8).toNat ∧ 9 ≤ (255#8).toNat := by decide
theorem wit_BlockThatDoesNotRun : State.reset.mode = .inactive ∧ (1#4).toNat < 2 ∧ (0x00000000#32).toInt ≤ 0 ∧
    (0x80000000#32).toInt ≤ 0 := by decide

/-- The shape hypotheses of the BLOCK statements at their boundary, on a machine that was set up. -/
theorem wit_BlockRuns : onState.mode = .active ∧ onState.cfgValid = true ∧ 2 ≤ (2#4).toNat ∧ 0 < (1#32).toInt ∧
    someBlock.WellFormed ∧
    (framesOf (2#4).toNat (frameCount 1#32) [⟨0x3F000000#32⟩, ⟨0x3F000000#32⟩])[0]? =
      some (⟨0x3F000000#32⟩, ⟨0x3F000000#32⟩) := by decide
/-- The same on a machine that was not. -/
theorem wit_BlockBeforeSetup : unsetState.mode = .active ∧ unsetState.cfgValid = false ∧ 2 ≤ (2#4).toNat ∧
    0 < (1#32).toInt ∧ someBlock.WellFormed ∧ unsetState.written.tone = false := by decide

theorem same_default : (tagOf Config.cfg defaultParams).same (tagOf Config.cfg defaultParams) = true := by
  have h : defaultParams[3].eq defaultParams[3] = true ∧ defaultParams[4].eq defaultParams[4] = true ∧
      defaultParams[5].eq defaultParams[5] = true := by decide
  simp [ToneTag.same, tagOf, h.1, h.2.1, h.2.2]

/-- The clauses of `BlockBeforeSetupRunsOverDraws` on the tag: after an earlier such BLOCK the tag may be the parameters', and
with a NaN for `P_BASS` no tag is. -/
theorem wit_BlockBeforeSetup_tag :
    (∃ s : State, s.mode = .active ∧ s.cfgValid = false ∧ s.written.tone = true ∧
      (tagOf Config.cfg s.param).same s.drawUnset.toneTag = true) ∧
    (tagOf Config.cfg (applyEvents [⟨3#32, ⟨0x7FF8000000000000#64⟩⟩] unsetState).param).same
      unsetState.drawUnset.toneTag = false := by
  refine ⟨⟨{ unsetState with toneTag := tagOf Config.cfg defaultParams, written := { Written.reset with tone := true } },
    rfl, rfl, rfl, same_default⟩, ?_⟩
  have h : (tagOf Config.cfg (applyEvents [⟨3#32, ⟨0x7FF8000000000000#64⟩⟩] unsetState).param).bass =
      ⟨0x7FF8000000000000#64⟩ := rfl
  have hn : (⟨0x7FF8000000000000#64⟩ : F64).isNaN = true := by decide
  simp [ToneTag.same, h, F64.eq, hn]

/-- Both clauses of `ToneRedesignedExactlyOnChange`: a BLOCK without events after SETUP finds its tag, and one with a
NaN for `P_BASS` does not. -/
theorem wit_ToneRedesigned :
    (activeState.mode = .active ∧ activeState.cfgValid = true ∧
      (tagOf Config.cfg activeState.param).same activeState.toneTag = true) ∧
    (tagOf Config.cfg (applyEvents [⟨3#32, ⟨0x7FF8000000000000#64⟩⟩] activeState).param).same activeState.toneTag =
      false := by
  refine ⟨⟨rfl, rfl, same_default⟩, ?_⟩
  have h : (tagOf Config.cfg (applyEvents [⟨3#32, ⟨0x7FF8000000000000#64⟩⟩] activeState).param).bass =
      ⟨0x7FF8000000000000#64⟩ := rfl
  have hn : (⟨0x7FF8000000000000#64⟩ : F64).isNaN = true := by decide
  simp [ToneTag.same, h, F64.eq, hn]
theorem wit_BlockNeverRetunes : ∃ t, exec someBlock onState = .next t := ⟨_, rfl⟩
/-- The clauses of `RegisterMapReadsEveryAddress` where they meet: the last address of each listed run and the first of the
unlisted run after it. -/
theorem wit_RegisterMap :
    let s : State := { p2State with
      cfgValid := true, written := { Written.reset with tone := true, smY := true, bqZ := true } }
    s.toneTag.midIdx = (0 : Fin 5).val ∧ s.bq.left.slot 9 = some p2Bank.cabLp ∧
    readReg s 0x000A = .known F64.zero.bits ∧ readReg s 0x000B = .known 0#64 ∧
    readReg s 0x0018 = .anyF64 ∧ readReg s 0x0019 = .known 0#64 ∧ readReg s 0x0025 = .anyF64 ∧
    readReg s 0x0026 = .known 0#64 ∧ readReg s 0x002B = .anyF64 ∧ readReg s 0x002C = .known 0#64 ∧
    readReg s 0x0034 = .known 0#64 ∧ readReg s 0x0035 = .known 0#64 ∧ readReg s 0x00FF = .known 0#64 ∧
    readReg s 0x0100 = .known p2Bank.uloShelf.c.b0.bits ∧ readReg s 0x014E = .anyF64 ∧
    readReg s 0x014F = .known 0#64 ∧ readReg s 0x0150 = .known 0#64 ∧ readReg s 0x017F = .known 0#64 ∧
    readReg s 0x0180 = .known p2Bank.uloShelf.c.b0.bits ∧ readReg s 0x01CF = .known 0#64 ∧
    readReg s 0x01D0 = .known 0#64 ∧ readReg s 0x01FF = .known 0#64 ∧ readReg s 0x0200 = .anyF64 ∧
    readReg s 0x0201 = .known F64.zero.bits ∧ readReg s 0x0202 = .known 0#64 ∧ readReg s 0x0209 = .anyF64 ∧
    readReg s 0x020A = .known 0#64 ∧ readReg s 0x0212 = .anyF64 ∧ readReg s 0x0213 = .known 0#64 ∧
    readReg s 0x0218 = .anyF64 ∧ readReg s 0x021E = .known F64.zero.bits ∧ readReg s 0x021F = .known 0#64 ∧
    readReg s 0xFFFF = .known 0#64 ∧ State.reset.written.tone = false := by decide +kernel
theorem wit_RdReads : readReg State.reset (0x0000#16).toNat = .known 0#64 ∧
    readReg State.reset (0x0033#16).toNat = .anyIndex ∧ readReg State.reset (0x0034#16).toNat = .anyBits ∧
    readReg State.reset (0x0001#16).toNat = .anyF64 := by decide
theorem wit_DecayLies : Config.sampleNum.Lawful ∧ F64.zero.isFinite = true ∧ F64.zero.lt f48k = true :=
  ⟨Config.sampleNum_lawful, by decide, by decide⟩
theorem wit_UnitSteps : ∃ s : State, s.written.smA = true ∧ s.written.smY = true ∧ s.written.efA = true ∧
    s.written.efEnv = true ∧ s.written.arA = true ∧ s.written.arEnv = true ∧ s.written.bqC = true ∧
    s.written.bqZ = true :=
  ⟨{ State.reset with written := ⟨true, true, true, true, true, true, true, true, true, true, true⟩ },
    rfl, rfl, rfl, rfl, rfl, rfl, rfl, rfl⟩
theorem wit_FollowerStays : F64.one.InUnit ∧ F64.zero.InUnit ∧ F64.zero.isFinite = true ∧
    F64.zero.le .zero = true := ⟨⟨by decide, by decide⟩, ⟨by decide, by decide⟩, by decide, by decide⟩

/-- A lawful record whose cosine is 1 and whose sine is 0. -/
def unitNum : Numerics :=
  { Config.sampleNum with
    cos := fun x => if x.isNaN then x else .one }

theorem unitNum_lawful : unitNum.Lawful :=
  { Config.sampleNum_lawful with
    cos_range := fun x h => by
      have : x.isNaN = false := (x.isFinite_iff.mp h).1
      simp only [unitNum, this, Bool.false_eq_true, ↓reduceIte]; decide
    cos_nan := fun x h => by simp [unitNum, h] }

theorem wit_ZeroDecibel :
    unitNum.Lawful ∧ F64.zero.neg.isZero = true ∧
    (let c := designCos unitNum f48k (.lit 40)
     let alpha := designAlpha unitNum f48k (.lit 40) .q707
     c.isFinite = true ∧ c.isZero = false ∧ alpha.isFinite = true ∧
     (F64.one.add alpha).isFinite = true ∧ (F64.one.add alpha).isZero = false ∧
     (F64.two.add (F64.two.mul alpha)).isFinite = true ∧ (F64.two.add (F64.two.mul alpha)).isZero = false) :=
  ⟨unitNum_lawful, by decide, by decide +kernel⟩
theorem wit_IdentityFilter :
    let q := p2Bank.mid
    q.c.b0 = .one ∧ q.c.b1 = q.c.a1 ∧ q.c.b2 = q.c.a2 ∧ q.AtRest ∧ F64.one.isFinite = true ∧
      (q.c.b1.mul .one).isFinite = true ∧ (q.c.b2.mul .one).isFinite = true :=
  ⟨rfl, rfl, rfl, ⟨by decide, by decide⟩, by decide, by decide +kernel, by decide +kernel⟩
theorem wit_SatOfZero : Config.sampleCfg.Admissible ∧ Config.sampleCfg.biasOffset.isNaN = false ∧
    F64.zero.neg.isZero = true ∧ (F64.lit 20).isFinite = true :=
  ⟨Config.sampleCfg_admissible, by decide, by decide, by decide +kernel⟩
theorem wit_SatStays : Config.sampleCfg.Admissible ∧ Config.sampleCfg.biasOffset = .zero ∧
    (let u := F64.one.mul (.lit 20)
     (u.add (Config.sampleCfg.asym.mul (u.mul u))).isNaN = false) :=
  ⟨Config.sampleCfg_admissible, rfl, by decide +kernel⟩
theorem wit_Arithmetic : (⟨0x7FEFFFFFFFFFFFFF#64⟩ : F64).isFinite = true ∧ (⟨1#64⟩ : F64).isFinite = true ∧
    (⟨1#64⟩ : F64).isZero = false ∧ F64.zero.le (⟨0x7FEFFFFFFFFFFFFF#64⟩ : F64) = true := by decide
theorem wit_Conversions : (⟨0x7F7FFFFF#32⟩ : F32).isFinite = true ∧ (⟨0x7F800000#32⟩ : F32).isNaN = false ∧
    (⟨0xFF800000#32⟩ : F32).isInf = true ∧ (⟨0x7F800001#32⟩ : F32).isNaN = true ∧
    (⟨0x47EFFFFFF0000000#64⟩ : F64).isFinite = true ∧ F64.negInf.isInf = true ∧ F64.negInf.isNaN = false ∧
    (⟨0x7FF0000000000001#64⟩ : F64).isNaN = true ∧ 2 ^ 31 - 1 < 2 ^ 31 := by decide
theorem wit_Clamp : (⟨0x7FF8000000000000#64⟩ : F64).isNaN = true ∧ (⟨0x8000000000000001#64⟩ : F64).lt .zero = true ∧
    F64.one.lt ⟨0x3FF0000000000001#64⟩ = true ∧ F64.zero.neg.isZero = true ∧
    (F64.one.isZero = false ∧ F64.one.le .one = true ∧ F64.zero.le .one = true) ∧
    (F64.zero.neg.le .one = true ∧ F64.zero.le F64.zero.neg = true) := by decide
theorem wit_MidIndex : F64.zero.InUnit ∧ F64.one.InUnit := ⟨⟨by decide, by decide⟩, ⟨by decide, by decide⟩⟩

/-- A silent state: p2's coefficients, smoothers on their way. -/
theorem wit_Silence :
    Config.sampleCfg.Admissible ∧ Config.sampleCfg.biasOffset = .zero ∧
    (∀ f ∈ [((⟨0#32⟩ : F32), (⟨0x80000000#32⟩ : F32))], f.1.isZero = true ∧ f.2.isZero = true) ∧
    p2State.Silent ∧ p2State.FiniteCoeffs ∧
    (∀ k, k < [((⟨0#32⟩ : F32), (⟨0x80000000#32⟩ : F32))].length → (smoothStep^[k + 1] p2State).FiniteGains) := by
  refine ⟨Config.sampleCfg_admissible, rfl, ?_, ?_, ?_, ?_⟩
  · intro f hf
    rw [List.mem_singleton.mp hf]; decide
  · have h : ∀ q : Biquad, q.z1 = .zero → q.z2 = .zero → q.AtRest := by
      rintro ⟨c, z1, z2⟩ rfl rfl; exact ⟨rfl, rfl⟩
    exact ⟨⟨h _ rfl rfl, h _ rfl rfl, h _ rfl rfl, h _ rfl rfl, h _ rfl rfl, h _ rfl rfl, h _ rfl rfl, h _ rfl rfl,
      h _ rfl rfl, h _ rfl rfl⟩, ⟨h _ rfl rfl, h _ rfl rfl, h _ rfl rfl, h _ rfl rfl, h _ rfl rfl, h _ rfl rfl,
      h _ rfl rfl, h _ rfl rfl, h _ rfl rfl, h _ rfl rfl⟩, by decide, by decide, by decide⟩
  · refine ⟨?_, ?_, by decide, by decide⟩ <;> (simp only [Bank.All, Coeffs.Finite]; decide +kernel)
  · intro k hk
    have hk : k = 0 := by simpa using hk
    subst hk
    simp only [State.FiniteGains]
    decide +kernel
theorem wit_Channels :
    (LeftAgree p2State { p2State with ef := ⟨p2State.ef.left, .reset⟩ } ∧
      ([(⟨1#32⟩, ⟨2#32⟩)] : List (F32 × F32)).map Prod.fst = [((⟨1#32⟩ : F32), (⟨3#32⟩ : F32))].map Prod.fst) ∧
    (RightAgree p2State { p2State with ef := ⟨.reset, p2State.ef.right⟩ } ∧
      ([(⟨1#32⟩, ⟨2#32⟩)] : List (F32 × F32)).map Prod.snd = [((⟨3#32⟩ : F32), (⟨2#32⟩ : F32))].map Prod.snd) :=
  ⟨⟨⟨rfl, rfl, rfl, rfl, rfl, rfl⟩, rfl⟩, ⟨⟨rfl, rfl, rfl, rfl, rfl, rfl⟩, rfl⟩⟩
theorem wit_Reactivation : ∃ s1 s2 s3 t1 t2,
    activeState.Inv ∧ setUpState.Inv ∧ activeState.cfgValid = true ∧ setUpState.cfgValid = true ∧
    activeState.sr = setUpState.sr ∧ activeState.param = setUpState.param ∧ setUpState.mode = .inactive ∧
    exec (.setact false) activeState = .next s1 ∧ exec (.setact true) s1 = .next s2 ∧
    exec (.setact true) setUpState = .next t1 ∧ exec someBlock s2 = .next s3 ∧ exec someBlock t1 = .next t2 :=
  ⟨_, _, _, _, _, activeState_inv, setUpState_inv, rfl, rfl, rfl, rfl, rfl, rfl, rfl, rfl, rfl, rfl⟩
theorem wit_Redesign : (ToneTag.mk .zero .half .one 2 true false).same
    (ToneTag.mk F64.zero.neg .half .one 2 true false) = true := by decide
theorem wit_Toggle : activeState.Inv ∧ activeState.mode = .active ∧ activeState.cfgValid = true ∧
    (tagOf Config.cfg activeState.param).same activeState.toneTag = true ∧
    (∃ t, exec (.block 2#4 2#4 1#32 [⟨7#32, .one⟩] [⟨0#32⟩, ⟨0#32⟩]) activeState = .next t) ∧
    (∃ t, exec (.block 2#4 2#4 1#32 [⟨8#32, .one⟩] [⟨0#32⟩, ⟨0#32⟩]) activeState = .next t) :=
  ⟨activeState_inv, rfl, rfl, same_default, ⟨_, rfl⟩, ⟨_, rfl⟩⟩
theorem wit_NanPersists :
    ({ State.reset with ef := ⟨⟨.half, ⟨0x7FF8000000000000#64⟩⟩, .reset⟩ } : State).ef.left.env.isNaN = true ∧
    ({ State.reset with ef := ⟨.reset, ⟨.half, ⟨0x7FF8000000000000#64⟩⟩⟩ } : State).ef.right.env.isNaN = true := by
  decide

end Sys2Proof.Tests
end

namespace Sys2Proof

/-! # The step and the operations it stands on (00_scope.md)

The step runs what the decoder reads (R13, R51), `clamp` keeps the unit interval (R12), and the arithmetic of R9 and R11
rounds correctly. -/

/-! ## The step -/

section Step
open Machine

/-- Settles O6: the branch of `step` for a decoded command. -/
theorem stepRunsDecodedCommand : Obligations.StepRunsDecodedCommand := by
  intro s i rest hdecode
  rw [step, hdecode]

end Step

/-! ## Comparison and `clamp` (R12) -/

section Clamp

theorem F64.lt_iff (x y : F64) : x.lt y = true ↔ x.isNaN = false ∧ y.isNaN = false ∧ x.key < y.key := by
  simp [F64.lt, and_assoc]

theorem F64.le_iff (x y : F64) : x.le y = true ↔ x.isNaN = false ∧ y.isNaN = false ∧ x.key ≤ y.key := by
  simp [F64.le, and_assoc]

theorem F64.eq_iff (x y : F64) : x.eq y = true ↔ x.isNaN = false ∧ y.isNaN = false ∧ x.key = y.key := by
  simp [F64.eq, and_assoc]

theorem F64.zero_lt_iff (v : F64) : F64.zero.lt v = true ↔ v.isNaN = false ∧ 0 < v.key := by
  rw [F64.lt_iff]; exact and_iff_right (by decide)

theorem F64.lt_zero_iff (v : F64) : v.lt .zero = true ↔ v.isNaN = false ∧ v.key < 0 := by
  rw [F64.lt_iff]; exact and_congr_right' (and_iff_right (by decide))

theorem F64.one_lt_iff (v : F64) : F64.one.lt v = true ↔ v.isNaN = false ∧ F64.one.key < v.key := by
  rw [F64.lt_iff]; exact and_iff_right (by decide)

theorem F64.lt_one_iff (v : F64) : v.lt .one = true ↔ v.isNaN = false ∧ v.key < F64.one.key := by
  rw [F64.lt_iff]; exact and_congr_right' (and_iff_right (by decide))

theorem F64.inUnit_iff (v : F64) : v.InUnit ↔ v.isNaN = false ∧ 0 ≤ v.key ∧ v.key ≤ F64.one.key := by
  have hzero : F64.zero.isNaN = false ∧ F64.zero.key = 0 := by decide
  have hone : F64.one.isNaN = false := by decide
  simp only [F64.InUnit, F64.le_iff, hzero, hone, true_and]
  exact and_and_left.symm

/-- Equal places on the integer line are equal numbers, but for the two zeros. -/
theorem F64.eq_of_key_eq {x y : F64} (h : x.key = y.key) (hx : x.isZero = false) : x = y := by
  have hmag : x.mag ≠ 0 := by simpa [F64.isZero] using hx
  unfold F64.key at h
  apply F64.ext_sign_mag
  · cases hxs : x.sign <;> cases hys : y.sign <;> simp [hxs, hys] at h ⊢ <;> omega
  · split_ifs at h <;> omega

/-- `clamp(v, 0, 1)` by two comparisons, of which a NaN fails the first. -/
theorem F64.clamp_unit_eq (v : F64) :
    v.clamp .zero .one = if F64.zero.lt v then if v.lt .one then v else .one else .zero := by
  have h01 : F64.zero.lt .one = true := by decide
  unfold F64.clamp F64.max F64.min
  split_ifs <;> simp_all

theorem F64.clamp_unit_of_not_pos {v : F64} (h : ¬ F64.zero.lt v = true) : v.clamp .zero .one = .zero := by
  rw [F64.clamp_unit_eq, if_neg h]

theorem F64.clamp_unit_of_one_le {v : F64} (hn : v.isNaN = false) (h : F64.one.key ≤ v.key) :
    v.clamp .zero .one = .one := by
  have hone : 0 < F64.one.key := by decide
  rw [F64.clamp_unit_eq, if_pos ((F64.zero_lt_iff v).mpr ⟨hn, by omega⟩),
    if_neg fun hlt => by have := ((F64.lt_one_iff v).mp hlt).2; omega]

theorem F64.clamp_unit_of_between {v : F64} (hn : v.isNaN = false) (hpos : 0 < v.key) (h : v.key < F64.one.key) :
    v.clamp .zero .one = v := by
  rw [F64.clamp_unit_eq, if_pos ((F64.zero_lt_iff v).mpr ⟨hn, hpos⟩), if_pos ((F64.lt_one_iff v).mpr ⟨hn, h⟩)]

/-- Settles O52: a NaN or at most 0, between 0 and 1, or from 1 on. -/
theorem clampLiesInUnitInterval : Obligations.ClampLiesInUnitInterval := by
  intro v
  have hone : 0 < F64.one.key := by decide
  by_cases hpos : F64.zero.lt v = true
  · obtain ⟨hn, hv⟩ := (F64.zero_lt_iff v).mp hpos
    rcases lt_or_ge v.key F64.one.key with h | h
    · rw [F64.clamp_unit_of_between hn hv h, F64.inUnit_iff, F64.lt_zero_iff, F64.one_lt_iff, F64.eq_iff]
      exact ⟨⟨hn, by omega, by omega⟩, by simp [hn], by omega, by omega, fun _ => ⟨⟨hn, hn, rfl⟩, fun _ => rfl⟩⟩
    · rw [F64.clamp_unit_of_one_le hn h, F64.inUnit_iff v, F64.lt_zero_iff, F64.eq_iff]
      refine ⟨⟨by decide, by decide⟩, by simp [hn], by omega, fun _ => rfl, fun ⟨_, _, hle⟩ => ?_⟩
      have hk : F64.one.key = v.key := le_antisymm h hle
      exact ⟨⟨by decide, hn, hk⟩, fun _ => F64.eq_of_key_eq hk (by decide)⟩
  · have hle : v.isNaN = false → v.key ≤ 0 := fun hn => not_lt.mp fun h => hpos ((F64.zero_lt_iff v).mpr ⟨hn, h⟩)
    rw [F64.clamp_unit_of_not_pos hpos, F64.inUnit_iff v, F64.one_lt_iff, F64.eq_iff]
    refine ⟨⟨by decide, by decide⟩, fun _ => rfl, fun _ => rfl, fun ⟨hn, h⟩ => ?_, fun ⟨hn, h, _⟩ => ?_⟩
    · have := hle hn; omega
    · have hk : v.key = F64.zero.key := le_antisymm (hle hn) h
      exact ⟨⟨by decide, hn, hk.symm⟩, fun hz => (F64.eq_of_key_eq hk hz).symm⟩

end Clamp

/-! ## The values of a binary format by their magnitude bits -/

section Grid

/-- The value that magnitude bits `k` stand for in a format of `P` fraction bits and least exponent `qmin`: exponent
field `k / 2^P`, where 0 and 1 share the least quantum. Magnitudes from infinity on are read as if the exponents
went on, so that rounding can be described before overflow is. -/
noncomputable def magVal (P : ℕ) (qmin : ℤ) (k : ℕ) : ℝ :=
  (k - (k / 2 ^ P - 1) * 2 ^ P : ℕ) * (2 : ℝ) ^ (qmin + (k / 2 ^ P - 1 : ℕ))

variable {P : ℕ} {qmin : ℤ}

/-- The multiples of the quantum `2^(qmin + t)` from one power of two to the next are the values from magnitude
`t * 2^P` on. -/
theorem magVal_mul_add {t n : ℕ} (hn : n ≤ 2 * 2 ^ P) (ht : t = 0 ∨ 2 ^ P ≤ n) :
    magVal P qmin (t * 2 ^ P + n) = n * (2 : ℝ) ^ (qmin + t) := by
  have hB : 0 < 2 ^ P := by positivity
  rcases hn.lt_or_eq with hlt | rfl
  · have hdiv : (t * 2 ^ P + n) / 2 ^ P - 1 = t := by
      rw [Nat.mul_comm, Nat.mul_add_div hB]
      rcases ht with rfl | ht
      · have : n / 2 ^ P < 2 := (Nat.div_lt_iff_lt_mul hB).mpr hlt
        omega
      · have h1 : 1 ≤ n / 2 ^ P := (Nat.le_div_iff_mul_le hB).mpr (by omega)
        have h2 : n / 2 ^ P < 2 := (Nat.div_lt_iff_lt_mul hB).mpr hlt
        omega
    simp only [magVal, hdiv, Nat.add_sub_cancel_left]
  · have hdiv : (t * 2 ^ P + 2 * 2 ^ P) / 2 ^ P - 1 = t + 1 := by
      rw [← Nat.add_mul, Nat.mul_div_cancel _ hB]; omega
    have hsub : t * 2 ^ P + 2 * 2 ^ P - (t + 1) * 2 ^ P = 2 ^ P := by
      rw [← Nat.add_mul, ← Nat.sub_mul, show t + 2 - (t + 1) = 1 by omega, Nat.one_mul]
    simp only [magVal, hdiv, hsub]
    push_cast
    rw [← add_assoc, zpow_add_one₀ two_ne_zero]
    ring

/-- Every magnitude has the shape of `magVal_mul_add`. -/
theorem exists_quantum (P k : ℕ) :
    ∃ t n : ℕ, k = t * 2 ^ P + n ∧ n < 2 * 2 ^ P ∧ (t = 0 ∨ 2 ^ P ≤ n) := by
  have hB : 0 < 2 ^ P := by positivity
  have hdm := Nat.div_add_mod' k (2 ^ P)
  have hmod := Nat.mod_lt k hB
  rcases Nat.eq_zero_or_pos (k / 2 ^ P) with h0 | hpos
  · exact ⟨0, k, by omega, by rw [h0] at hdm; omega, .inl rfl⟩
  · obtain ⟨t, ht⟩ : ∃ t, k / 2 ^ P = t + 1 := ⟨k / 2 ^ P - 1, by omega⟩
    rw [ht, Nat.add_mul, Nat.one_mul] at hdm
    exact ⟨t, 2 ^ P + k % 2 ^ P, by omega, by omega, .inr (by omega)⟩

theorem magVal_strictMono : StrictMono (magVal P qmin) := by
  refine strictMono_nat_of_lt_succ fun k => ?_
  obtain ⟨t, n, rfl, hn, ht⟩ := exists_quantum P k
  rw [add_assoc, magVal_mul_add hn.le ht, magVal_mul_add (by omega) (ht.imp_right (by omega))]
  push_cast
  gcongr
  linarith

theorem magVal_nonneg (k : ℕ) : 0 ≤ magVal P qmin k := by
  unfold magVal; positivity

@[simp] theorem magVal_zero : magVal P qmin 0 = 0 := by simp [magVal]

/-- Seen from the quantum `2^(qmin + t)`, a value is a multiple of it or lies below the binade that the quantum belongs
to. -/
theorem magVal_multiple_or_lt (t k : ℕ) :
    (∃ j : ℕ, magVal P qmin k = j * (2 : ℝ) ^ (qmin + t)) ∨
      (t ≠ 0 ∧ magVal P qmin k < 2 ^ P * (2 : ℝ) ^ (qmin + t)) := by
  obtain ⟨u, n, rfl, hn, hu⟩ := exists_quantum P k
  rcases Nat.lt_or_ge u t with hlt | hge
  · refine .inr ⟨by omega, ?_⟩
    have hk : u * 2 ^ P + n < t * 2 ^ P + 2 ^ P := by
      have := Nat.mul_le_mul_right (2 ^ P) (show u + 1 ≤ t from hlt)
      rw [Nat.add_mul, Nat.one_mul] at this
      omega
    calc magVal P qmin (u * 2 ^ P + n) < magVal P qmin (t * 2 ^ P + 2 ^ P) := magVal_strictMono hk
      _ = 2 ^ P * (2 : ℝ) ^ (qmin + t) := by
        rw [magVal_mul_add (by omega) (.inr le_rfl)]; push_cast; rfl
  · obtain ⟨i, rfl⟩ := Nat.exists_eq_add_of_le hge
    refine .inl ⟨n * 2 ^ i, ?_⟩
    rw [magVal_mul_add hn.le hu]
    push_cast
    rw [← add_assoc, zpow_add₀ two_ne_zero, zpow_natCast]
    ring

/-- Magnitude `N` is the exact `a`, not negative, rounded to nearest among the values of the format, of either sign and
without a largest one; on a tie `N` is even. -/
def MagNearest (P : ℕ) (qmin : ℤ) (N : ℕ) (a : ℝ) : Prop :=
  ∀ (z : ℝ) (k : ℕ), |z| = magVal P qmin k →
    |magVal P qmin N - a| ≤ |z - a| ∧
    (|magVal P qmin N - a| = |z - a| → z ≠ magVal P qmin N → N % 2 = 0)

/-- A signed value, seen from the quantum `2^(qmin + t)`: a multiple of it, or below the binade it belongs to. -/
theorem multiple_or_lt_of_abs_eq (t : ℕ) {k : ℕ} {z : ℝ} (hz : |z| = magVal P qmin k) :
    (∃ j : ℤ, z = j * (2 : ℝ) ^ (qmin + t)) ∨ (t ≠ 0 ∧ z < 2 ^ P * (2 : ℝ) ^ (qmin + t)) := by
  rcases magVal_multiple_or_lt (P := P) (qmin := qmin) t k with ⟨j, hj⟩ | ⟨h0, hj⟩
  · rw [hj] at hz
    rcases abs_choice z with h | h
    · exact .inl ⟨j, by rw [← h, hz, Int.cast_natCast]⟩
    · exact .inl ⟨-j, by rw [← neg_neg z, ← h, hz, Int.cast_neg, Int.cast_natCast, neg_mul]⟩
  · exact .inr ⟨h0, (le_abs_self z).trans_lt (hz ▸ hj)⟩

/-- Where one multiple of `u` is within half of `u`, every other is at least half of `u` away. -/
theorem half_le_abs_sub {n z : ℤ} {x u : ℝ} (hx : |n * u - x| ≤ u / 2) (hz : z ≠ n) : u / 2 ≤ |z * u - x| := by
  have hu : 0 ≤ u := by linarith [abs_nonneg (n * u - x)]
  have hone : (1 : ℝ) ≤ |(z : ℝ) - n| := by
    exact_mod_cast Int.one_le_abs (sub_ne_zero.mpr hz)
  have hapart : u ≤ |z * u - n * u| := by
    rw [← sub_mul, abs_mul, abs_of_nonneg hu]
    exact le_mul_of_one_le_left hu hone
  have htriangle := abs_sub_le ((z : ℝ) * u) x (n * u)
  rw [abs_sub_comm x] at htriangle
  linarith

/-- A multiple of `u` within half of `u` is at least as near as any multiple that lies below. -/
theorem abs_sub_le_of_multiple_le {n b : ℤ} {a u : ℝ} (hhalf : |n * u - a| ≤ u / 2) (hb : b * u ≤ a) :
    |n * u - a| ≤ a - b * u := by
  by_cases hbn : b = n
  · rw [hbn] at hb ⊢
    rw [abs_of_nonpos (by linarith), neg_sub]
  · have hfar := half_le_abs_sub hhalf hbn
    rw [abs_of_nonpos (by linarith : b * u - a ≤ 0), neg_sub] at hfar
    exact hhalf.trans hfar

/-- Rounding to nearest even in the quantum of a binade rounds to nearest even in the whole format. -/
theorem magNearest_of_half {t n : ℕ} {a : ℝ} (hP : P ≠ 0) (hlow : t = 0 ∨ 2 ^ P * (2 : ℝ) ^ (qmin + t) ≤ a)
    (hhigh : a ≤ 2 * 2 ^ P * (2 : ℝ) ^ (qmin + t))
    (hhalf : |n * (2 : ℝ) ^ (qmin + t) - a| ≤ (2 : ℝ) ^ (qmin + t) / 2)
    (heven : |n * (2 : ℝ) ^ (qmin + t) - a| = (2 : ℝ) ^ (qmin + t) / 2 → n % 2 = 0) :
    MagNearest P qmin (t * 2 ^ P + n) a := by
  have hmultiple := fun (z : ℝ) (k : ℕ) => multiple_or_lt_of_abs_eq (P := P) (qmin := qmin) t (k := k) (z := z)
  have hval := magVal_mul_add (P := P) (qmin := qmin) (t := t) (n := n)
  have hupos : (0 : ℝ) < 2 ^ (qmin + t) := by positivity
  generalize (2 : ℝ) ^ (qmin + t) = u at *
  have hn : n ≤ 2 * 2 ^ P := by
    by_contra hlt
    have : (2 * 2 ^ P + 1 : ℝ) ≤ n := by exact_mod_cast Nat.not_le.mp hlt
    nlinarith [(abs_le.mp hhalf).2]
  have ht : t = 0 ∨ 2 ^ P ≤ n := hlow.imp_right fun hlow => by
    by_contra hlt
    have : (n + 1 : ℝ) ≤ 2 ^ P := by exact_mod_cast Nat.not_le.mp hlt
    nlinarith [(abs_le.mp hhalf).1]
  have hparity : (t * 2 ^ P + n) % 2 = n % 2 := by
    obtain ⟨i, rfl⟩ := Nat.exists_eq_succ_of_ne_zero hP
    rw [pow_succ, ← Nat.mul_assoc]; omega
  rw [MagNearest, hval hn ht, hparity]
  intro z k hz
  rcases hmultiple z k hz with ⟨j, rfl⟩ | ⟨h0, hlt⟩
  · by_cases hj : j = n
    · subst hj; simp
    · have hfar := half_le_abs_sub (n := n) (by exact_mod_cast hhalf) hj
      exact ⟨hhalf.trans hfar, fun htie _ => heven (le_antisymm hhalf (htie ▸ hfar))⟩
  · have hnear := abs_sub_le_of_multiple_le (n := n) (b := 2 ^ P) (by exact_mod_cast hhalf)
      (by exact_mod_cast hlow.resolve_left h0)
    push_cast at hnear
    have hz : |z - a| = a - z := by rw [abs_of_nonpos (by linarith [hlow.resolve_left h0]), neg_sub]
    exact ⟨by linarith, fun htie => by linarith⟩

end Grid

/-! ## Rounding to nearest even -/

section Rounding
variable {P : ℕ} {qmin : ℤ}

/-- The integer `m` stands for the exact `x`: it is `x`, or it is odd, has two bits more than the format's significand,
and `x` lies strictly between its even neighbours, so that `x` is no tie and rounds as `m` does. -/
def StandsFor (P m : ℕ) (x : ℝ) : Prop :=
  x = m ∨ (m % 2 = 1 ∧ 2 ^ (P + 2) ≤ m ∧ (m - 1 : ℝ) < x ∧ x < m + 1)

theorem standsFor_self (P m : ℕ) : StandsFor P m m := .inl rfl

/-- An integer part of enough bits with a rest bit after it stands for twice the number. -/
theorem standsFor_two_mul_add {j rest : ℕ} {y : ℝ} (hj : (j : ℝ) ≤ y) (hj' : y < j + 1)
    (hrest : y = j ∧ rest = 0 ∨ y ≠ j ∧ rest = 1) (hbits : y ≠ j → 2 ^ (P + 1) ≤ j) :
    StandsFor P (2 * j + rest) (2 * y) := by
  rcases hrest with ⟨rfl, rfl⟩ | ⟨hne, rfl⟩
  · exact .inl (by push_cast; ring)
  · have hlt : (j : ℝ) < y := lt_of_le_of_ne hj hne.symm
    have := hbits hne
    refine .inr ⟨by omega, by rw [pow_succ]; omega, ?_, ?_⟩ <;> push_cast <;> linarith

/-- A shift to the left, or none, is exact. -/
theorem shiftRightEven_of_nonpos (m : ℕ) {d : ℤ} (hd : d ≤ 0) : (shiftRightEven m d : ℝ) * 2 ^ d = m := by
  obtain ⟨k, rfl⟩ : ∃ k : ℕ, d = -k := ⟨d.natAbs, by omega⟩
  simp [shiftRightEven]

/-- A shift to the right by `k + 1` places compares the bits that leave with their half, `2^k`. -/
theorem shiftRightEven_succ (m k : ℕ) :
    shiftRightEven m (k + 1) =
      if 2 ^ k < m % (2 * 2 ^ k) ∨ (m % (2 * 2 ^ k) = 2 ^ k ∧ m / (2 * 2 ^ k) % 2 = 1)
      then m / (2 * 2 ^ k) + 1 else m / (2 * 2 ^ k) := by
  have hnat : ((k : ℤ) + 1).toNat = k + 1 := by omega
  simp only [shiftRightEven, if_neg (show ¬ (k : ℤ) + 1 ≤ 0 by omega), hnat, pow_succ' 2 k]
  congr 1
  simp

/-- What `m` stands for lies on the same side of the middle between two multiples of `2^(k+1)` as `m` itself. -/
theorem side_of_middle {m k : ℕ} {x : ℝ}
    (hx : x = m ∨ (m % 2 = 1 ∧ 1 ≤ k ∧ (m - 1 : ℝ) < x ∧ x < m + 1)) :
    let low : ℝ := 2 * 2 ^ k * (m / (2 * 2 ^ k) : ℕ)
    (m % (2 * 2 ^ k) < 2 ^ k ∧ low ≤ x ∧ x < low + 2 ^ k) ∨
    (m % (2 * 2 ^ k) = 2 ^ k ∧ x = low + 2 ^ k) ∨
    (2 ^ k < m % (2 * 2 ^ k) ∧ low + 2 ^ k < x ∧ x ≤ low + 2 * 2 ^ k) := by
  intro low
  have hm : (m : ℝ) = low + (m % (2 * 2 ^ k) : ℕ) := by
    unfold low
    exact_mod_cast (Nat.div_add_mod m (2 * 2 ^ k)).symm
  have hr := Nat.mod_lt m (show 0 < 2 * 2 ^ k by positivity)
  have hodd : m % (2 * 2 ^ k) % 2 = m % 2 := Nat.mod_mul_right_mod m 2 _
  generalize m % (2 * 2 ^ k) = r at *
  rw [hm] at hx
  rcases hx with rfl | ⟨hm1, hk, hlo, hhi⟩
  · have hr' : (r : ℝ) < 2 * 2 ^ k := by exact_mod_cast hr
    rcases lt_trichotomy r (2 ^ k) with h | h | h
    · exact .inl ⟨h, by simp, by gcongr; exact_mod_cast h⟩
    · exact .inr (.inl ⟨h, by rw [h]; push_cast; rfl⟩)
    · exact .inr (.inr ⟨h, by gcongr; exact_mod_cast h, by linarith⟩)
  · obtain ⟨i, rfl⟩ := Nat.exists_eq_add_of_le' hk
    have heven : 2 ^ (i + 1) % 2 = 0 := by rw [pow_succ]; omega
    have hr' : (r + 1 : ℝ) ≤ 2 * 2 ^ (i + 1) := by exact_mod_cast hr
    rcases lt_trichotomy r (2 ^ (i + 1)) with h | h | h
    · have h1 : (1 : ℝ) ≤ r := by exact_mod_cast (show 1 ≤ r by omega)
      have h2 : (r + 1 : ℝ) ≤ 2 ^ (i + 1) := by exact_mod_cast h
      exact .inl ⟨h, by linarith, by linarith⟩
    · omega
    · have h2 : (2 ^ (i + 1) + 1 : ℝ) ≤ r := by exact_mod_cast h
      exact .inr (.inr ⟨h, by linarith, by linarith⟩)

/-- `shiftRightEven` is within half a unit of what its argument stands for, and even at exactly a half. -/
theorem shiftRightEven_half {m : ℕ} {d : ℤ} {x : ℝ}
    (hx : x = m ∨ (m % 2 = 1 ∧ 2 ≤ d ∧ (m - 1 : ℝ) < x ∧ x < m + 1)) :
    |shiftRightEven m d * (2 : ℝ) ^ d - x| ≤ (2 : ℝ) ^ d / 2 ∧
    (|shiftRightEven m d * (2 : ℝ) ^ d - x| = (2 : ℝ) ^ d / 2 → shiftRightEven m d % 2 = 0) := by
  have hpos : (0 : ℝ) < 2 ^ d := by positivity
  rcases le_or_gt d 0 with hd | hd
  · obtain rfl : x = m := hx.resolve_right fun h => by omega
    rw [shiftRightEven_of_nonpos m hd, sub_self, abs_zero]
    exact ⟨by positivity, fun h => by linarith⟩
  · obtain ⟨k, rfl⟩ : ∃ k : ℕ, d = k + 1 := ⟨(d - 1).toNat, by omega⟩
    have hunit : (2 : ℝ) ^ ((k : ℤ) + 1) = 2 * 2 ^ k := by exact_mod_cast pow_succ' (2 : ℝ) k
    have hhalf : (0 : ℝ) < 2 ^ k := by positivity
    have hside := side_of_middle (k := k) (hx.imp_right fun ⟨h1, h2, h3⟩ => ⟨h1, by omega, h3⟩)
    rw [shiftRightEven_succ, hunit]
    generalize m / (2 * 2 ^ k) = n at *
    rcases hside with ⟨hr, hlo, hhi⟩ | ⟨hr, heq⟩ | ⟨hr, hlo, hhi⟩
    · rw [if_neg (by omega), abs_of_nonpos (by linarith)]
      exact ⟨by linarith, fun h => by linarith⟩
    · split_ifs with hup
      · refine ⟨?_, fun _ => by omega⟩
        rw [abs_of_nonneg] <;> push_cast <;> linarith
      · refine ⟨?_, fun _ => by omega⟩
        rw [abs_of_nonpos] <;> linarith
    · rw [if_pos (.inl hr), abs_of_nonneg (by push_cast; linarith)]
      push_cast
      exact ⟨by linarith, fun h => by linarith⟩

/-- What `m` stands for lies between the same powers of two as `m`. -/
theorem StandsFor.between_powers {m L : ℕ} {x : ℝ} (hx : StandsFor P m x) (hlo : 2 ^ L ≤ m)
    (hhi : m < 2 ^ (L + 1)) : (2 : ℝ) ^ L ≤ x ∧ x ≤ 2 ^ (L + 1) := by
  have hlo' : (2 ^ L : ℝ) ≤ m := by exact_mod_cast hlo
  have hhi' : (m + 1 : ℝ) ≤ 2 ^ (L + 1) := by exact_mod_cast hhi
  rcases hx with rfl | ⟨hodd, hbits, hx1, hx2⟩
  · exact ⟨hlo', by linarith⟩
  · have hL : P + 2 ≤ L := by
      have := (Nat.pow_lt_pow_iff_right one_lt_two).mp (hbits.trans_lt hhi)
      omega
    obtain ⟨i, rfl⟩ := Nat.exists_eq_add_of_le' (show 1 ≤ L by omega)
    have hne : (2 ^ (i + 1) + 1 : ℝ) ≤ m := by
      have : 2 ^ (i + 1) % 2 = 0 := by rw [pow_succ]; omega
      exact_mod_cast (show 2 ^ (i + 1) + 1 ≤ m by omega)
    exact ⟨by linarith, by linarith⟩

/-- Rounding in the quantum `2^q` that `roundMag` chooses is rounding in the whole format. -/
theorem magNearest_shiftRightEven {m t : ℕ} {x : ℝ} {e q : ℤ} (hP : P ≠ 0) (hm : m ≠ 0) (hx : StandsFor P m x)
    (hq : q = max qmin (e + (m.log2 + 1 : ℕ) - (P + 1 : ℕ))) (ht : q = qmin + t) :
    MagNearest P qmin (t * 2 ^ P + shiftRightEven m (q - e)) (x * 2 ^ e) := by
  have hlog : m < 2 ^ (m.log2 + 1) := Nat.lt_log2_self
  obtain ⟨hlo, hhi⟩ := hx.between_powers (Nat.log2_self_le hm) hlog
  have hbits : x = m ∨ (m % 2 = 1 ∧ 2 ≤ q - e ∧ (m - 1 : ℝ) < x ∧ x < m + 1) :=
    hx.imp_right fun ⟨hodd, hbits, hx⟩ => by
      have := (Nat.pow_lt_pow_iff_right one_lt_two).mp (hbits.trans_lt hlog)
      exact ⟨hodd, by omega, hx⟩
  obtain ⟨hhalf, heven⟩ := shiftRightEven_half hbits
  generalize shiftRightEven m (q - e) = n at *
  have hpos : (0 : ℝ) < 2 ^ e := by positivity
  have hscale : (2 : ℝ) ^ q = 2 ^ (q - e) * 2 ^ e := by
    rw [← zpow_add₀ two_ne_zero, sub_add_cancel]
  have hdist : |n * (2 : ℝ) ^ q - x * 2 ^ e| = |n * (2 : ℝ) ^ (q - e) - x| * 2 ^ e := by
    rw [hscale, ← mul_assoc, ← sub_mul, abs_mul, abs_of_pos hpos]
  refine magNearest_of_half hP ?low ?high ?half ?even <;> rw [← ht]
  case low =>
    refine or_iff_not_imp_left.mpr fun h0 => ?_
    calc (2 : ℝ) ^ P * 2 ^ q = 2 ^ m.log2 * 2 ^ e := by
          rw [← zpow_natCast, ← zpow_natCast, ← zpow_add₀ two_ne_zero, ← zpow_add₀ two_ne_zero]
          congr 1; omega
      _ ≤ x * 2 ^ e := by gcongr
  case high =>
    calc x * 2 ^ e ≤ 2 ^ (m.log2 + 1) * 2 ^ e := by gcongr
      _ = 2 ^ ((m.log2 + 1 : ℕ) + e) := by rw [zpow_add₀ two_ne_zero, zpow_natCast]
      _ ≤ 2 ^ ((P + 1 : ℕ) + q) := zpow_le_zpow_right₀ one_le_two (by omega)
      _ = 2 * 2 ^ P * 2 ^ q := by rw [zpow_add₀ two_ne_zero, zpow_natCast, pow_succ']
  case half =>
    rw [hdist, hscale, mul_div_right_comm]
    gcongr
  case even =>
    rw [hdist, hscale, mul_div_right_comm]
    exact fun h => heven (mul_right_cancel₀ hpos.ne' h)

/-- `roundMag` is round-to-nearest-even in a format without a largest number, cut off at infinity. -/
theorem roundMag_eq_min {m : ℕ} {x : ℝ} (hP : P ≠ 0) (hx : StandsFor P m x) (inf : ℕ) (e : ℤ) :
    ∃ N, MagNearest P qmin N (x * 2 ^ e) ∧ roundMag (P + 1) qmin inf m e = min inf N := by
  rcases eq_or_ne m 0 with rfl | hm
  · obtain rfl : x = 0 := by simpa using hx.resolve_right fun h => by omega
    exact ⟨0, fun z k _ => by simp, by simp⟩
  · set q : ℤ := max qmin (e + (m.log2 + 1 : ℕ) - (P + 1 : ℕ)) with hq
    have ht : q = qmin + (q - qmin).toNat := by omega
    exact ⟨_, magNearest_shiftRightEven hP hm hx hq ht, by simp only [roundMag, if_neg hm, ← hq, Nat.add_sub_cancel]⟩

/-! Exact numbers that are values, and overflow: from the middle between the largest number and what would follow it. -/

/-- A nearest magnitude of an exact number that is a value is that value's. -/
theorem MagNearest.eq_of_value {N k : ℕ} (h : MagNearest P qmin N (magVal P qmin k)) : N = k := by
  obtain ⟨hle, -⟩ := h _ k (abs_of_nonneg (magVal_nonneg k))
  rw [sub_self, abs_zero, abs_nonpos_iff, sub_eq_zero] at hle
  exact magVal_strictMono.injective hle

/-- The nearest magnitude lies beyond an odd `k` exactly from the middle between `k` and the magnitude after it on. -/
theorem MagNearest.lt_succ_iff {N k : ℕ} {a : ℝ} (h : MagNearest P qmin N a) (hk : k % 2 = 1) :
    N < k + 1 ↔ a < (magVal P qmin k + magVal P qmin (k + 1)) / 2 := by
  have hstep : magVal P qmin k < magVal P qmin (k + 1) := magVal_strictMono k.lt_succ_self
  constructor
  · intro hN
    have hle : magVal P qmin N ≤ magVal P qmin k := magVal_strictMono.monotone (Nat.le_of_lt_succ hN)
    obtain ⟨hnear, htie⟩ := h _ (k + 1) (abs_of_nonneg (magVal_nonneg _))
    by_contra hge
    have hup : |magVal P qmin (k + 1) - a| = magVal P qmin (k + 1) - a := by
      cases abs_cases (magVal P qmin (k + 1) - a) <;> cases abs_cases (magVal P qmin N - a) <;> linarith
    rw [abs_of_nonpos (by linarith), hup] at hnear htie
    have hNk : N = k := magVal_strictMono.injective (le_antisymm hle (by linarith))
    have := htie (by rw [hNk]; linarith) (hle.trans_lt hstep).ne'
    omega
  · intro ha
    obtain ⟨hnear, -⟩ := h _ k (abs_of_nonneg (magVal_nonneg _))
    by_contra hge
    have hle : magVal P qmin (k + 1) ≤ magVal P qmin N := magVal_strictMono.monotone (Nat.not_lt.mp hge)
    rw [abs_of_nonneg (by linarith)] at hnear
    cases abs_cases (magVal P qmin k - a) <;> linarith

end Rounding

/-! ## The two formats -/

section Values

/-- A sign as a factor. -/
def signFactor (s : Bool) : ℝ := if s then -1 else 1

@[simp] theorem abs_signFactor (s : Bool) : |signFactor s| = 1 := by cases s <;> simp [signFactor]

@[simp] theorem signFactor_mul_self (s : Bool) : signFactor s * signFactor s = 1 := by
  cases s <;> simp [signFactor]

@[simp] theorem signFactor_bne (s t : Bool) : signFactor (s != t) = signFactor s * signFactor t := by
  cases s <;> cases t <;> simp [signFactor]

@[simp] theorem signFactor_not (s : Bool) : signFactor (!s) = -signFactor s := by cases s <;> simp [signFactor]

/-- A sign moves from one side of a distance to the other. -/
theorem abs_sub_signFactor_mul (s : Bool) (z a : ℝ) : |z - signFactor s * a| = |signFactor s * z - a| := by
  calc |z - signFactor s * a| = |signFactor s| * |z - signFactor s * a| := by simp
    _ = |signFactor s * z - a| := by rw [← abs_mul, mul_sub, ← mul_assoc, signFactor_mul_self, one_mul]

/-- A finite number's value is its significand times a power of two, with its sign. -/
theorem F64.val_cast (x : F64) : (x.val : ℝ) = signFactor x.sign * (x.mant * 2 ^ x.expo) := by
  unfold F64.val signFactor; push_cast; split_ifs <;> ring

theorem F32.val_cast (x : F32) : (x.val : ℝ) = signFactor x.sign * (x.mant * 2 ^ x.expo) := by
  unfold F32.val signFactor; push_cast; split_ifs <;> ring

theorem F64.magVal_mag (x : F64) : magVal 52 (-1074) x.mag = x.mant * (2 : ℝ) ^ x.expo := by
  have hm : x.mag - (x.mag / 2 ^ 52 - 1) * 2 ^ 52 = x.mant := by unfold F64.mant; split_ifs <;> omega
  have he : -1074 + ((x.mag / 2 ^ 52 - 1 : ℕ) : ℤ) = x.expo := by unfold F64.expo; split_ifs <;> omega
  rw [magVal, hm, he]

theorem F32.magVal_mag (x : F32) : magVal 23 (-149) x.mag = x.mant * (2 : ℝ) ^ x.expo := by
  have hm : x.mag - (x.mag / 2 ^ 23 - 1) * 2 ^ 23 = x.mant := by unfold F32.mant; split_ifs <;> omega
  have he : -149 + ((x.mag / 2 ^ 23 - 1 : ℕ) : ℤ) = x.expo := by unfold F32.expo; split_ifs <;> omega
  rw [magVal, hm, he]

theorem F64.val_eq (x : F64) : (x.val : ℝ) = signFactor x.sign * magVal 52 (-1074) x.mag := by
  rw [x.val_cast, x.magVal_mag]

theorem F32.val_eq (x : F32) : (x.val : ℝ) = signFactor x.sign * magVal 23 (-149) x.mag := by
  rw [x.val_cast, x.magVal_mag]

theorem F64.abs_val (x : F64) : |(x.val : ℝ)| = magVal 52 (-1074) x.mag := by
  rw [x.val_eq, abs_mul, abs_signFactor, one_mul, abs_of_nonneg (magVal_nonneg _)]

theorem F32.abs_val (x : F32) : |(x.val : ℝ)| = magVal 23 (-149) x.mag := by
  rw [x.val_eq, abs_mul, abs_signFactor, one_mul, abs_of_nonneg (magVal_nonneg _)]

/-- The parity of the significand is that of the magnitude bits. -/
theorem F64.mant_mod_two (x : F64) : x.mant % 2 = x.mag % 2 := by unfold F64.mant; split_ifs <;> omega

theorem F32.mant_mod_two (x : F32) : x.mant % 2 = x.mag % 2 := by unfold F32.mant; split_ifs <;> omega

/-- The middle between a number whose significand is all ones and the power of two after it. -/
theorem magVal_middle {P t i j : ℕ} {qmin : ℤ} (hi : qmin + t + P + 1 = i) (hj : qmin + t - 1 = j) :
    (magVal P qmin (t * 2 ^ P + (2 * 2 ^ P - 1)) + magVal P qmin (t * 2 ^ P + 2 * 2 ^ P)) / 2 = 2 ^ i - 2 ^ j := by
  have hB : 1 ≤ 2 ^ P := Nat.one_le_two_pow
  have hj' : (2 : ℝ) ^ (qmin + t) = 2 * 2 ^ j := by
    rw [show qmin + t = (j : ℤ) + 1 by omega, zpow_add_one₀ two_ne_zero, zpow_natCast, mul_comm]
  have hi' : (2 : ℝ) ^ i = 4 * 2 ^ P * 2 ^ j := by
    rw [show i = 2 + P + j by omega, pow_add, pow_add]; norm_num
  rw [magVal_mul_add (by omega) (.inr (by omega)), magVal_mul_add le_rfl (.inr (by omega)), hj', hi']
  push_cast [Nat.cast_sub (show 1 ≤ 2 * 2 ^ P by omega)]
  ring

/-- Nearest for magnitudes is nearest for signed numbers. -/
theorem MagNearest.signed {P N k : ℕ} {qmin : ℤ} {a z : ℝ} (h : MagNearest P qmin N a) (s : Bool)
    (hz : |z| = magVal P qmin k) :
    |signFactor s * magVal P qmin N - signFactor s * a| ≤ |z - signFactor s * a| ∧
    (|signFactor s * magVal P qmin N - signFactor s * a| = |z - signFactor s * a| →
      z ≠ signFactor s * magVal P qmin N → N % 2 = 0) := by
  obtain ⟨hle, htie⟩ := h (signFactor s * z) k (by rw [abs_mul, abs_signFactor, one_mul, hz])
  rw [abs_sub_signFactor_mul, ← mul_assoc, signFactor_mul_self, one_mul, abs_sub_signFactor_mul]
  refine ⟨hle, fun heq hne => htie heq fun h' => hne ?_⟩
  rw [← h', ← mul_assoc, signFactor_mul_self, one_mul]

/-- The middle between the largest binary64 number and what would follow it, from where R9 overflows. -/
theorem F64.overflow_middle :
    (magVal 52 (-1074) (F64.infMag - 1) + magVal 52 (-1074) (F64.infMag - 1 + 1)) / 2 = 2 ^ 1024 - 2 ^ 970 :=
  magVal_middle (t := 2045) (by norm_num) (by norm_num)

/-- The same middle of binary32, from where R11 overflows. -/
theorem F32.overflow_middle :
    (magVal 23 (-149) (F32.infMag - 1) + magVal 23 (-149) (F32.infMag - 1 + 1)) / 2 = 2 ^ 128 - 2 ^ 103 :=
  magVal_middle (t := 253) (by norm_num) (by norm_num)

/-- A nearest magnitude stays below infinity exactly where the exact number stays below the middle. -/
theorem MagNearest.overflow_iff {P N k i j : ℕ} {qmin : ℤ} {a : ℝ} {v : ℚ} {s : Bool}
    (h : MagNearest P qmin N a) (hk : k % 2 = 1) (hmid : (magVal P qmin k + magVal P qmin (k + 1)) / 2 = 2 ^ i - 2 ^ j)
    (ha : 0 ≤ a) (hv : (v : ℝ) = signFactor s * a) : |v| < 2 ^ i - 2 ^ j ↔ N < k + 1 := by
  have habs : |(v : ℝ)| = a := by rw [hv, abs_mul, abs_signFactor, one_mul, abs_of_nonneg ha]
  rw [h.lt_succ_iff hk, hmid, ← habs]
  exact_mod_cast Iff.rfl

/-- An overflowing number is not zero, so that its sign is that of the comparison with zero. -/
theorem neg_iff_of_overflow {i j : ℕ} {a : ℝ} {v : ℚ} {s : Bool} (hij : j < i) (ha : 0 ≤ a)
    (hv : (v : ℝ) = signFactor s * a) (hover : ¬ |v| < 2 ^ i - 2 ^ j) : v < 0 ↔ s = true := by
  have hv0 : v ≠ 0 := abs_pos.mp ((sub_pos.mpr (pow_lt_pow_right₀ one_lt_two hij)).trans_le (not_lt.mp hover))
  have hpos : 0 < a := ha.lt_of_ne fun h0 => hv0 (by rw [← h0, mul_zero] at hv; exact_mod_cast hv)
  rw [← Rat.cast_lt (K := ℝ), hv, Rat.cast_zero]
  cases s
  · simp [signFactor, hpos.le]
  · simp [signFactor, hpos]

/-- A magnitude below infinity is packed as it is. -/
theorem F64.pack_min {N : ℕ} (s : Bool) (hN : N < F64.infMag) :
    (F64.pack s (Min.min F64.infMag N)).mag = N ∧ (F64.pack s (Min.min F64.infMag N)).isFinite = true ∧
    ((F64.pack s (Min.min F64.infMag N)).val : ℝ) = signFactor s * magVal 52 (-1074) N := by
  have hlt : N < 2 ^ 63 := hN.trans (by decide)
  rw [Nat.min_eq_right hN.le, F64.val_eq, F64.isFinite, F64.mag_pack s N hlt, F64.sign_pack s N hlt]
  exact ⟨rfl, by simpa using hN, rfl⟩

/-- The `F64` number of a sign and a nearest magnitude, cut off at infinity, is the exact number rounded (R9). -/
theorem F64.roundsTo_of_magNearest {N : ℕ} {a : ℝ} {v : ℚ} {s : Bool} (h : MagNearest 52 (-1074) N a)
    (ha : 0 ≤ a) (hv : (v : ℝ) = signFactor s * a) : RoundsTo (F64.pack s (Min.min F64.infMag N)) v := by
  have hover : |v| < 2 ^ 1024 - 2 ^ 970 ↔ N < F64.infMag := h.overflow_iff (by decide) F64.overflow_middle ha hv
  by_cases hlt : |v| < 2 ^ 1024 - 2 ^ 970
  · obtain ⟨hmag, hfin, hval⟩ := F64.pack_min s (hover.mp hlt)
    rw [RoundsTo, if_pos hlt]
    refine ⟨hfin, fun z _ => ?_⟩
    have hz := h.signed s z.abs_val
    rw [F64.mant_mod_two, hmag]
    rw [← hval, ← hv] at hz
    exact_mod_cast hz
  · rw [RoundsTo, if_neg hlt, Nat.min_eq_left (not_lt.mp (mt hover.mpr hlt)),
      if_congr (neg_iff_of_overflow (by decide) ha hv hlt) rfl rfl]
    cases s <;> rfl

/-- A magnitude below infinity is packed as it is. -/
theorem F32.pack_min {N : ℕ} (s : Bool) (hN : N < F32.infMag) :
    (F32.pack s (Min.min F32.infMag N)).mag = N ∧ (F32.pack s (Min.min F32.infMag N)).isFinite = true ∧
    ((F32.pack s (Min.min F32.infMag N)).val : ℝ) = signFactor s * magVal 23 (-149) N := by
  have hlt : N < 2 ^ 31 := hN.trans (by decide)
  rw [Nat.min_eq_right hN.le, F32.val_eq, F32.isFinite, F32.mag_pack s N hlt, F32.sign_pack s N hlt]
  exact ⟨rfl, by simpa using hN, rfl⟩

/-- The `F32` number of a sign and a nearest magnitude, cut off at infinity, is the exact number rounded (R11). -/
theorem F32.roundsTo_of_magNearest {N : ℕ} {a : ℝ} {v : ℚ} {s : Bool} (h : MagNearest 23 (-149) N a)
    (ha : 0 ≤ a) (hv : (v : ℝ) = signFactor s * a) : RoundsTo32 (F32.pack s (Min.min F32.infMag N)) v := by
  have hover : |v| < 2 ^ 128 - 2 ^ 103 ↔ N < F32.infMag := h.overflow_iff (by decide) F32.overflow_middle ha hv
  by_cases hlt : |v| < 2 ^ 128 - 2 ^ 103
  · obtain ⟨hmag, hfin, hval⟩ := F32.pack_min s (hover.mp hlt)
    rw [RoundsTo32, if_pos hlt]
    refine ⟨hfin, fun z _ => ?_⟩
    have hz := h.signed s z.abs_val
    rw [F32.mant_mod_two, hmag]
    rw [← hval, ← hv] at hz
    exact_mod_cast hz
  · rw [RoundsTo32, if_neg hlt, Nat.min_eq_left (not_lt.mp (mt hover.mpr hlt)),
      if_congr (neg_iff_of_overflow (by decide) ha hv hlt) rfl rfl]
    cases s <;> rfl

/-- `F64.round` rounds the exact number its significand stands for (R9). -/
theorem F64.roundsTo_round {m : ℕ} {x : ℝ} {e : ℤ} {v : ℚ} {s : Bool} (hm : StandsFor 52 m x) (hx : 0 ≤ x)
    (hv : (v : ℝ) = signFactor s * (x * 2 ^ e)) : RoundsTo (F64.round s m e) v := by
  obtain ⟨N, hN, heq⟩ := roundMag_eq_min (qmin := -1074) (by decide) hm F64.infMag e
  rw [F64.round, heq]
  exact F64.roundsTo_of_magNearest hN (by positivity) hv

/-- `F32.round` rounds the exact number of its significand (R11). -/
theorem F32.roundsTo_round {m : ℕ} {e : ℤ} {v : ℚ} {s : Bool}
    (hv : (v : ℝ) = signFactor s * (m * 2 ^ e)) : RoundsTo32 (F32.round s m e) v := by
  obtain ⟨N, hN, heq⟩ := roundMag_eq_min (qmin := -149) (by decide) (standsFor_self 23 m) F32.infMag e
  rw [F32.round, heq]
  exact F32.roundsTo_of_magNearest hN (by positivity) hv

end Values

/-! ## The operations of R9 -/

section Arithmetic

theorem F64.val_eq_smant (x : F64) : (x.val : ℝ) = x.smant * 2 ^ x.expo := by
  rw [x.val_cast, F64.smant, signFactor]; split_ifs <;> push_cast <;> ring

@[simp] theorem F64.val_neg (x : F64) : x.neg.val = -x.val := by
  have h : (x.neg.val : ℝ) = -x.val := by rw [x.neg.val_eq, x.val_eq, x.mag_neg, x.sign_neg, signFactor_not, neg_mul]
  exact_mod_cast h

/-- An integer as a sign and a size. -/
theorem signFactor_mul_natAbs (z : ℤ) : signFactor (decide (z < 0)) * z.natAbs = z := by
  rw [Nat.cast_natAbs, Int.cast_abs]
  by_cases h : z < 0
  · have : (z : ℝ) < 0 := by exact_mod_cast h
    simp [signFactor, h, abs_of_neg this]
  · have : (0 : ℝ) ≤ z := by exact_mod_cast not_lt.mp h
    simp [signFactor, h, abs_of_nonneg this]

/-- The sum of finite numbers: both significands are brought to the lower exponent and added exactly. -/
theorem F64.roundsTo_addFinite (x y : F64) : RoundsTo (F64.addFinite x y) (x.val + y.val) := by
  set e := Min.min x.expo y.expo with he
  set z := x.smant * (2 ^ (x.expo - e).toNat : ℕ) + y.smant * (2 ^ (y.expo - e).toNat : ℕ) with hz
  have hshift : ∀ i : ℤ, e ≤ i → (2 : ℝ) ^ i = 2 ^ (i - e).toNat * 2 ^ e := fun i hi => by
    rw [← zpow_natCast, ← zpow_add₀ two_ne_zero, Int.toNat_of_nonneg (by omega), sub_add_cancel]
  have hsum : ((x.val + y.val : ℚ) : ℝ) = z * 2 ^ e := by
    push_cast [hz]
    rw [x.val_eq_smant, y.val_eq_smant, hshift _ (min_le_left x.expo y.expo), hshift _ (min_le_right x.expo y.expo)]
    ring
  have hround (s : Bool) (hs : signFactor s * z.natAbs = z) : RoundsTo (F64.round s z.natAbs e) (x.val + y.val) :=
    F64.roundsTo_round (.inl rfl) (by positivity) (by rw [hsum, ← mul_assoc, hs])
  by_cases h0 : z = 0
  · have hpack : F64.addFinite x y = F64.round (x.sign && y.sign) z.natAbs e := by
      simp only [F64.addFinite, ← he, ← hz, if_pos h0]
      rw [h0, Int.natAbs_zero, F64.round, roundMag_zero]
    rw [hpack]
    exact hround _ (by simp [h0])
  · have hpack : F64.addFinite x y = F64.round (decide (z < 0)) z.natAbs e := by
      simp only [F64.addFinite, ← he, ← hz, if_neg h0]
    rw [hpack]
    exact hround _ (signFactor_mul_natAbs z)

theorem F64.roundsTo_mul {x y : F64} (hx : x.isFinite = true) (hy : y.isFinite = true) :
    RoundsTo (x.mul y) (x.val * y.val) := by
  rw [F64.mul_of_finite hx hy]
  refine F64.roundsTo_round (.inl rfl) (by positivity) ?_
  push_cast
  rw [x.val_cast, y.val_cast, signFactor_bne, zpow_add₀ two_ne_zero]
  ring

/-- The quotient of finite numbers, the divisor not zero, in `divGuard` extra bits and a rest bit. -/
theorem F64.div_of_finite {x y : F64} (hx : x.isFinite = true) (hy : y.isFinite = true) (hy0 : y.isZero = false) :
    x.div y = F64.round (x.sign != y.sign)
      (2 * (x.mant * 2 ^ divGuard / y.mant) + if x.mant * 2 ^ divGuard % y.mant = 0 then 0 else 1)
      (x.expo - y.expo - divGuard - 1) := by
  obtain ⟨hx1, hx2⟩ := x.isFinite_iff.mp hx
  obtain ⟨hy1, hy2⟩ := y.isFinite_iff.mp hy
  simp [F64.div, hx1, hx2, hy1, hy2, hy0]

theorem F64.mant_lt (x : F64) : x.mant < 2 ^ 53 := by unfold F64.mant; split_ifs <;> omega

theorem F64.mant_eq_zero_iff (x : F64) : x.mant = 0 ↔ x.isZero = true := by
  rw [x.isZero_iff, F64.mant]
  by_cases h : x.mag / 2 ^ 52 = 0
  · rw [if_pos h]
  · rw [if_neg h]
    exact iff_of_false (Nat.add_pos_right _ (by positivity)).ne' fun h0 => h (by rw [h0, Nat.zero_div])

/-- The integer quotient in extra bits, with its rest bit, stands for twice the exact quotient. -/
theorem standsFor_quotient {m n : ℕ} (hn : n ≠ 0) (hn' : n < 2 ^ 53) :
    StandsFor 52 (2 * (m * 2 ^ divGuard / n) + if m * 2 ^ divGuard % n = 0 then 0 else 1)
      (2 * (m * 2 ^ divGuard / n : ℝ)) := by
  have hpos : (0 : ℝ) < n := by positivity
  have hdm : (n : ℝ) * (m * 2 ^ divGuard / n : ℕ) + (m * 2 ^ divGuard % n : ℕ) = m * 2 ^ divGuard := by
    exact_mod_cast Nat.div_add_mod (m * 2 ^ divGuard) n
  have hmod : ((m * 2 ^ divGuard % n : ℕ) : ℝ) < n := by exact_mod_cast Nat.mod_lt _ (Nat.pos_of_ne_zero hn)
  have hexact : (m * 2 ^ divGuard / n : ℝ) = (m * 2 ^ divGuard / n : ℕ) ↔ m * 2 ^ divGuard % n = 0 := by
    rw [div_eq_iff hpos.ne', ← hdm, mul_comm, add_eq_left, Nat.cast_eq_zero]
  apply standsFor_two_mul_add
  · rw [le_div_iff₀ hpos, ← hdm, mul_comm]
    exact le_add_of_nonneg_right (Nat.cast_nonneg _)
  · rw [div_lt_iff₀ hpos, ← hdm, add_mul, one_mul, mul_comm]
    gcongr
  · split_ifs with h
    · exact .inl ⟨hexact.mpr h, rfl⟩
    · exact .inr ⟨mt hexact.mp h, rfl⟩
  · intro hne
    have hm : 1 ≤ m := Nat.one_le_iff_ne_zero.mpr fun h0 => hne (by simp [h0])
    rw [Nat.le_div_iff_mul_le (Nat.pos_of_ne_zero hn)]
    calc 2 ^ (52 + 1) * n ≤ 2 ^ 53 * 2 ^ 53 := by gcongr
      _ ≤ 1 * 2 ^ divGuard := by decide
      _ ≤ m * 2 ^ divGuard := by gcongr

theorem F64.roundsTo_div {x y : F64} (hx : x.isFinite = true) (hy : y.isFinite = true) (hy0 : y.isZero = false) :
    RoundsTo (x.div y) (x.val / y.val) := by
  have hmant : y.mant ≠ 0 := fun h => by simp [y.mant_eq_zero_iff.mp h] at hy0
  have hmant' : (y.mant : ℝ) ≠ 0 := by exact_mod_cast hmant
  rw [F64.div_of_finite hx hy hy0]
  refine F64.roundsTo_round (standsFor_quotient hmant y.mant_lt) (by positivity) ?_
  have hsign : signFactor x.sign * signFactor y.sign = signFactor x.sign / signFactor y.sign := by
    cases y.sign <;> simp [signFactor, div_neg]
  push_cast
  rw [x.val_cast, y.val_cast, signFactor_bne, hsign, zpow_sub₀ two_ne_zero, zpow_sub₀ two_ne_zero,
    zpow_sub₀ two_ne_zero, zpow_natCast, zpow_one]
  have hpow := zpow_ne_zero y.expo (two_ne_zero (α := ℝ))
  field_simp

end Arithmetic

/-- Settles O49: each operation hands `F64.round` a significand that stands for the exact result. -/
theorem arithmeticRoundsToNearestEven : Obligations.ArithmeticRoundsToNearestEven := by
  intro x y hx hy
  refine ⟨?_, ?_, F64.roundsTo_mul hx hy, F64.roundsTo_div hx hy⟩
  · rw [F64.add_of_finite hx hy]
    exact F64.roundsTo_addFinite x y
  · rw [F64.sub_of_finite hx hy, sub_eq_add_neg, ← y.val_neg]
    exact F64.roundsTo_addFinite x y.neg

/-! ## The square root -/

section SquareRoot

/-- The search keeps a lower bound of the root that is short of it by less than the bits still to come. -/
theorem isqrtFrom_eq_sqrt {m : ℕ} (i r : ℕ) (hlo : r * r ≤ m) (hhi : m < (r + 2 ^ i) * (r + 2 ^ i)) :
    isqrtFrom m i r = Nat.sqrt m := by
  induction i generalizing r with
  | zero => exact Nat.eq_sqrt.mpr ⟨hlo, hhi⟩
  | succ i ih =>
    rw [isqrtFrom]
    split_ifs with h
    · exact ih _ h (by rwa [add_assoc, ← two_mul, ← pow_succ'])
    · exact ih _ hlo (not_le.mp h)

theorem isqrt_eq_sqrt {m : ℕ} (hm : m < 2 ^ 180) : isqrt m = Nat.sqrt m := by
  rw [isqrt]
  exact isqrtFrom_eq_sqrt 90 0 (Nat.zero_le m) (hm.trans_eq (by decide))

/-- The integer root of enough bits, with its rest bit, stands for twice the root. -/
theorem standsFor_sqrt {m : ℕ} (hm : 2 ^ 120 ≤ m) :
    StandsFor 52 (2 * Nat.sqrt m + if Nat.sqrt m * Nat.sqrt m = m then 0 else 1) (2 * √m) := by
  have hexact : √(m : ℝ) = Nat.sqrt m ↔ Nat.sqrt m * Nat.sqrt m = m := by
    rw [Real.sqrt_eq_iff_mul_self_eq (Nat.cast_nonneg _) (Nat.cast_nonneg _)]
    exact_mod_cast eq_comm
  refine standsFor_two_mul_add Real.nat_sqrt_le_real_sqrt Real.real_sqrt_lt_nat_sqrt_succ ?_ fun _ => ?_
  · split_ifs with h
    · exact .inl ⟨hexact.mpr h, rfl⟩
    · exact .inr ⟨mt hexact.mp h, rfl⟩
  · exact Nat.le_sqrt.mpr (le_trans (by decide) hm)

/-- The significand whose integer root `F64.sqrt` takes: 120 more bits, and one more where the exponent is odd. -/
def F64.rootMant (x : F64) : ℕ := x.mant * 2 ^ (x.expo % 2).toNat * 2 ^ 120

/-- Half the exponent that goes with `F64.rootMant`. -/
def F64.rootExpo (x : F64) : ℤ := (x.expo - x.expo % 2 - 120) / 2

theorem F64.rootMant_ge {x : F64} (h0 : x.isZero = false) : 2 ^ 120 ≤ x.rootMant := by
  have hmant : 0 < x.mant := Nat.pos_of_ne_zero fun h => by simp [x.mant_eq_zero_iff.mp h] at h0
  exact Nat.le_mul_of_pos_left _ (by positivity)

theorem F64.rootMant_lt (x : F64) : x.rootMant < 2 ^ 180 := by
  have hodd : 2 ^ (x.expo % 2).toNat ≤ 2 ^ 1 := Nat.pow_le_pow_right two_pos (by omega)
  calc x.rootMant ≤ x.mant * 2 ^ 1 * 2 ^ 120 := Nat.mul_le_mul_right _ (Nat.mul_le_mul_left _ hodd)
    _ < 2 ^ 53 * 2 ^ 1 * 2 ^ 120 :=
      Nat.mul_lt_mul_of_pos_right (Nat.mul_lt_mul_of_pos_right x.mant_lt (by decide)) (by decide)
    _ ≤ 2 ^ 180 := by decide

/-- The root of a number, from the root of its lengthened significand. -/
theorem F64.sqrt_val {x : F64} (hs : x.sign = false) : √(x.val : ℝ) = √x.rootMant * 2 ^ x.rootExpo := by
  have hexpo : x.expo = (x.expo % 2).toNat + ((120 : ℕ) + x.rootExpo * (2 : ℕ)) := by
    unfold F64.rootExpo; omega
  have hval : (x.val : ℝ) = x.rootMant * (2 ^ x.rootExpo) ^ 2 := by
    calc (x.val : ℝ) = x.mant * 2 ^ x.expo := by rw [x.val_cast, hs, signFactor, if_neg Bool.false_ne_true, one_mul]
      _ = x.mant * (2 ^ (x.expo % 2).toNat * (2 ^ 120 * (2 ^ x.rootExpo) ^ 2)) := by
        conv_lhs => rw [hexpo]
        rw [zpow_add₀ two_ne_zero, zpow_add₀ two_ne_zero, zpow_mul, zpow_natCast, zpow_natCast, zpow_natCast]
      _ = x.rootMant * (2 ^ x.rootExpo) ^ 2 := by push_cast [F64.rootMant]; ring
  rw [hval, Real.sqrt_mul (Nat.cast_nonneg _), Real.sqrt_sq (by positivity)]

/-- The model's root of a finite number above zero. -/
theorem F64.sqrt_eq_round {x : F64} (hx : x.isFinite = true) (h0 : x.isZero = false) (hs : x.sign = false) :
    x.sqrt = F64.round false
      (2 * Nat.sqrt x.rootMant + if Nat.sqrt x.rootMant * Nat.sqrt x.rootMant = x.rootMant then 0 else 1)
      (x.rootExpo - 1) := by
  obtain ⟨hn, hi⟩ := x.isFinite_iff.mp hx
  simp only [F64.sqrt, hn, h0, hs, hi, Bool.false_eq_true, if_false]
  rw [← F64.rootMant, isqrt_eq_sqrt x.rootMant_lt, F64.rootExpo]

/-- The root of a finite number above zero rounds the real root. -/
theorem F64.magNearest_sqrt {x : F64} (hx : x.isFinite = true) (h0 : x.isZero = false) (hs : x.sign = false) :
    ∃ N, MagNearest 52 (-1074) N √(x.val : ℝ) ∧ x.sqrt = F64.pack false (Min.min F64.infMag N) := by
  have hroot : √(x.val : ℝ) = 2 * √x.rootMant * 2 ^ (x.rootExpo - 1) := by
    rw [F64.sqrt_val hs, zpow_sub_one₀ two_ne_zero]; ring
  obtain ⟨N, hN, heq⟩ :=
    roundMag_eq_min (qmin := -1074) (by decide) (standsFor_sqrt (F64.rootMant_ge h0)) F64.infMag (x.rootExpo - 1)
  exact ⟨N, hroot ▸ hN, by rw [F64.sqrt_eq_round hx h0 hs, F64.round, heq]⟩

/-- A number that is not zero and not below it has no sign. -/
theorem F64.sign_of_zero_le {x : F64} (hle : F64.zero.le x = true) (h0 : x.isZero = false) : x.sign = false := by
  obtain ⟨-, -, hkey⟩ := (F64.le_iff _ x).mp hle
  have hmag : x.mag ≠ 0 := by simpa [F64.isZero] using h0
  rw [show F64.zero.key = 0 from rfl, F64.key] at hkey
  by_contra hs
  rw [if_pos (by simpa using hs)] at hkey
  omega

theorem F64.magVal_infMag : magVal 52 (-1074) F64.infMag = 2 ^ 1024 := by
  have hpow : (2 : ℝ) ^ ((-1074 : ℤ) + (2045 : ℕ)) = 2 ^ 971 := by
    rw [← zpow_natCast]; norm_num
  rw [show F64.infMag = 2045 * 2 ^ 52 + 2 * 2 ^ 52 from rfl, magVal_mul_add le_rfl (.inr (by decide)), hpow,
    show 1024 = 53 + 971 from rfl, pow_add]
  norm_num

theorem F64.abs_val_lt {x : F64} (hx : x.isFinite = true) : |(x.val : ℝ)| < 2 ^ 1024 := by
  rw [x.abs_val, ← F64.magVal_infMag]
  exact magVal_strictMono (by simpa [F64.isFinite] using hx)

/-- A root is far from overflow. -/
theorem F64.sqrt_val_lt {x : F64} (hx : x.isFinite = true) : √(x.val : ℝ) < 2 ^ 1024 - 2 ^ 970 := by
  have hhalf : (2 : ℝ) ^ 1024 = (2 ^ 512) ^ 2 := by rw [← pow_mul]
  have h1024 : (2 : ℝ) ^ 1024 = 2 ^ 54 * 2 ^ 970 := by rw [← pow_add]
  calc √(x.val : ℝ) < 2 ^ 512 := by
        rw [Real.sqrt_lt' (by positivity), ← hhalf]
        exact (le_abs_self _).trans_lt (F64.abs_val_lt hx)
    _ ≤ 2 ^ 970 := pow_le_pow_right₀ one_le_two (by decide)
    _ ≤ 2 ^ 1024 - 2 ^ 970 := by
        have hpos : (0 : ℝ) < 2 ^ 970 := by positivity
        rw [h1024]
        generalize (2 : ℝ) ^ 970 = u at hpos ⊢
        linarith

/-- Settles O50: the model's root of a zero is that zero; of another number it rounds the real root, which cannot
overflow. -/
theorem sqrtRoundsToNearest : Obligations.SqrtRoundsToNearest := by
  intro x hx hle
  by_cases h0 : x.isZero = true
  · have hroot : x.sqrt = x := by simp [F64.sqrt, (x.isFinite_iff.mp hx).1, h0]
    have hval : (x.val : ℝ) = 0 := by rw [x.val_eq, x.isZero_iff.mp h0, magVal_zero, mul_zero]
    rw [hroot]
    exact ⟨hx, fun z _ => by simp [hval]⟩
  · rw [Bool.not_eq_true] at h0
    have hs := F64.sign_of_zero_le hle h0
    obtain ⟨N, hN, heq⟩ := F64.magNearest_sqrt hx h0 hs
    have hlt : N < F64.infMag := by
      rw [show F64.infMag = F64.infMag - 1 + 1 from rfl, hN.lt_succ_iff (by decide), F64.overflow_middle]
      exact F64.sqrt_val_lt hx
    obtain ⟨-, hfin, hval⟩ := F64.pack_min false hlt
    rw [heq]
    refine ⟨hfin, fun z _ => ?_⟩
    have hz := (hN.signed false z.abs_val).1
    rw [← hval] at hz
    simpa [signFactor] using hz

end SquareRoot

/-! ## The conversions (R11) -/

section Exact
variable {P : ℕ} {qmin : ℤ}

/-- Every integer of the format's significand, at an exponent not below the least, is a value of the format. -/
theorem exists_magVal_eq (t : ℕ) {m : ℕ} (hm : m < 2 * 2 ^ P) :
    ∃ k, magVal P qmin k = m * (2 : ℝ) ^ (qmin + t) := by
  induction t generalizing m with
  | zero => exact ⟨0 * 2 ^ P + m, magVal_mul_add hm.le (.inl rfl)⟩
  | succ t ih =>
    rcases Nat.lt_or_ge m (2 ^ P) with hlt | hge
    · obtain ⟨k, hk⟩ := ih (m := 2 * m) (by omega)
      refine ⟨k, hk.trans ?_⟩
      push_cast
      rw [← add_assoc, zpow_add_one₀ two_ne_zero]
      ring
    · exact ⟨(t + 1) * 2 ^ P + m, magVal_mul_add hm.le (.inr hge)⟩

/-- Rounding to binary64 is exact on integers of 53 bits between the least and the largest exponent. -/
theorem F64.round_exact (s : Bool) {m : ℕ} {e : ℤ} (hm : m < 2 ^ 53) (hlo : -1074 ≤ e) (hhi : e ≤ 971) :
    (F64.round s m e).isFinite = true ∧ ((F64.round s m e).val : ℝ) = signFactor s * (m * 2 ^ e) := by
  obtain ⟨N, hN, heq⟩ := roundMag_eq_min (qmin := -1074) (by decide) (standsFor_self 52 m) F64.infMag e
  obtain ⟨k, hk⟩ := exists_magVal_eq (P := 52) (qmin := -1074) (e + 1074).toNat (m := m) (hm.trans_eq (by decide))
  rw [show -1074 + ((e + 1074).toNat : ℤ) = e by omega] at hk
  rw [← hk] at hN
  obtain rfl := hN.eq_of_value
  have hlt : N < F64.infMag := by
    have hval : magVal 52 (-1074) N < magVal 52 (-1074) F64.infMag :=
      calc magVal 52 (-1074) N = m * 2 ^ e := hk
        _ < 2 ^ 53 * 2 ^ e := by gcongr; exact_mod_cast hm
        _ ≤ 2 ^ 53 * 2 ^ ((971 : ℕ) : ℤ) := by gcongr; exacts [one_le_two, hhi]
        _ = magVal 52 (-1074) F64.infMag := by rw [F64.magVal_infMag, zpow_natCast, ← pow_add]
    exact magVal_strictMono.lt_iff_lt.mp hval
  obtain ⟨-, hfin, hval⟩ := F64.pack_min s hlt
  rw [F64.round, heq, ← hk]
  exact ⟨hfin, hval⟩

end Exact

section Conversions

theorem F32.isFinite_iff (x : F32) : x.isFinite = true ↔ x.isNaN = false ∧ x.isInf = false := by
  simp only [F32.isFinite, F32.isNaN, F32.isInf, decide_eq_true_eq, decide_eq_false_iff_not]
  omega

/-- A sample is a finite number, an infinity or a NaN. -/
theorem F32.isFinite_or_isInf {x : F32} (h : x.isNaN = false) : x.isFinite = true ∨ x.isInf = true := by
  rw [x.isFinite_iff, h]; cases x.isInf <;> simp

theorem F32.pack_sign_mag (x : F32) : F32.pack x.sign x.mag = x := by
  have hx := x.bits.isLt
  apply F32.ext_bits
  apply BitVec.eq_of_toNat_eq
  rw [F32.pack_toNat _ _ (by rw [F32.mag]; omega), F32.sign, BitVec.msb_eq_decide, F32.mag]
  by_cases h : 2 ^ (32 - 1) ≤ x.bits.toNat
  · simp only [h, decide_true, if_true]; omega
  · simp only [h, decide_false, Bool.false_eq_true, if_false]; omega

theorem F32.mant_lt (x : F32) : x.mant < 2 ^ 24 := by unfold F32.mant; split_ifs <;> omega

theorem F32.expo_ge (x : F32) : -149 ≤ x.expo := by unfold F32.expo; split_ifs <;> omega

theorem F32.expo_le {x : F32} (hx : x.isFinite = true) : x.expo ≤ 104 := by
  have hmag : x.mag < 0x7F800000 := of_decide_eq_true hx
  unfold F32.expo; split_ifs <;> omega

theorem F32.sign_round (s : Bool) (m : ℕ) (e : ℤ) : (F32.round s m e).sign = s := by
  have h := roundMag_le_inf 24 (-149) F32.infMag m e
  rw [F32.round, F32.sign_pack _ _ (h.trans_lt (by decide))]

/-- Bits put in front count by what stands behind them. -/
theorem toNat_append_eq {m n : ℕ} (x : BitVec m) (y : BitVec n) : (x ++ y).toNat = x.toNat * 2 ^ n + y.toNat := by
  rw [BitVec.toNat_append, ← Nat.shiftLeft_add_eq_or_of_lt y.isLt, Nat.shiftLeft_eq]

/-- Every binary32 NaN the machine makes is one. -/
@[simp] theorem F32.isNaN_quietNaN (b : BitVec 23) : (F32.quietNaN b).isNaN = true := by
  have h2 := (b.extractLsb' 0 22).isLt
  have hb : (F32.quietNaN b).bits.toNat =
      ((b.extractLsb' 22 1).toNat * 2 ^ 9 + 0x1FF) * 2 ^ 22 + (b.extractLsb' 0 22).toNat :=
    (toNat_append_eq (b.extractLsb' 22 1 ++ 0x1FF#9) (b.extractLsb' 0 22)).trans
      (by rw [toNat_append_eq]; rfl)
  simp only [F32.isNaN, F32.mag, hb, F32.infMag, decide_eq_true_eq]
  omega

theorem F32.widen_of_isNaN {x : F32} (h : x.isNaN = true) : x.widen = F64.quietNaN (Config.widenNan x) := by
  simp [F32.widen, h]

theorem F32.widen_of_isInf {x : F32} (h : x.isInf = true) : x.widen = F64.pack x.sign F64.infMag := by
  have hn : x.isNaN = false := by simp_all [F32.isNaN, F32.isInf]
  simp [F32.widen, h, hn]

theorem F32.widen_of_finite {x : F32} (h : x.isFinite = true) : x.widen = F64.round x.sign x.mant x.expo := by
  obtain ⟨hn, hi⟩ := x.isFinite_iff.mp h
  simp [F32.widen, hn, hi]

theorem F64.narrow_of_isNaN {x : F64} (h : x.isNaN = true) : x.narrow = F32.quietNaN (Config.narrowNan x) := by
  simp [F64.narrow, h]

theorem F64.narrow_of_isInf {x : F64} (h : x.isInf = true) : x.narrow = F32.pack x.sign F32.infMag := by
  have hn : x.isNaN = false := by simp_all [F64.isNaN, F64.isInf]
  simp [F64.narrow, h, hn]

theorem F64.narrow_of_finite {x : F64} (h : x.isFinite = true) : x.narrow = F32.round x.sign x.mant x.expo := by
  obtain ⟨hn, hi⟩ := x.isFinite_iff.mp h
  simp [F64.narrow, hn, hi]

/-- An infinity packed: an infinity of the sign given. -/
theorem F64.pack_infMag (s : Bool) : (F64.pack s F64.infMag).isInf = true ∧ (F64.pack s F64.infMag).sign = s := by
  cases s <;> decide

theorem F32.pack_infMag (s : Bool) : (F32.pack s F32.infMag).isInf = true ∧ (F32.pack s F32.infMag).sign = s := by
  cases s <;> decide

theorem F32.sign_widen {x : F32} (h : x.isNaN = false) : x.widen.sign = x.sign := by
  rcases F32.isFinite_or_isInf h with hf | hi
  · rw [F32.widen_of_finite hf, F64.sign_round]
  · rw [F32.widen_of_isInf hi, (F64.pack_infMag _).2]

theorem F64.sign_narrow {x : F64} (h : x.isNaN = false) : x.narrow.sign = x.sign := by
  by_cases hi : x.isInf = true
  · rw [F64.narrow_of_isInf hi, (F32.pack_infMag _).2]
  · rw [F64.narrow_of_finite (x.isFinite_iff.mpr ⟨h, by simpa using hi⟩), F32.sign_round]

/-- Widening a finite sample is exact. -/
theorem F32.widen_exact {x : F32} (hx : x.isFinite = true) : x.widen.isFinite = true ∧ x.widen.val = x.val := by
  have hge := x.expo_ge
  have hle := F32.expo_le hx
  obtain ⟨hfin, hval⟩ := F64.round_exact x.sign (x.mant_lt.trans (by decide)) (by omega : -1074 ≤ x.expo) (by omega)
  rw [F32.widen_of_finite hx]
  refine ⟨hfin, ?_⟩
  rw [← x.val_cast] at hval
  exact_mod_cast hval

/-- Narrowing takes a widened sample back: the value is its own nearest. -/
theorem F32.narrow_widen {x : F32} (h : x.isNaN = false) : x.widen.narrow = x := by
  rcases F32.isFinite_or_isInf h with hf | hi
  · obtain ⟨hfin, hval⟩ := F32.widen_exact hf
    obtain ⟨N, hN, heq⟩ := roundMag_eq_min (qmin := -149) (by decide) (standsFor_self 23 x.widen.mant)
      F32.infMag x.widen.expo
    rw [← F64.magVal_mag, ← F64.abs_val, hval, F32.abs_val] at hN
    obtain rfl := hN.eq_of_value
    have hmag : x.mag < F32.infMag := by simpa [F32.isFinite] using hf
    rw [F64.narrow_of_finite hfin, F32.round, heq, Nat.min_eq_right hmag.le, F32.sign_widen h, x.pack_sign_mag]
  · have hmag : x.mag = F32.infMag := by simpa [F32.isInf] using hi
    rw [F32.widen_of_isInf hi, F64.narrow_of_isInf (F64.pack_infMag _).1, (F64.pack_infMag _).2, ← hmag,
      x.pack_sign_mag]

theorem F64.roundsTo_narrow {x : F64} (hx : x.isFinite = true) : RoundsTo32 x.narrow x.val := by
  rw [F64.narrow_of_finite hx]
  exact F32.roundsTo_round x.val_cast

theorem F64.ofNat_exact {n : ℕ} (hn : n < 2 ^ 31) : (F64.ofNat n).isFinite = true ∧ (F64.ofNat n).val = n := by
  obtain ⟨hfin, hval⟩ := F64.round_exact false (hn.trans (by decide)) (by decide : (-1074 : ℤ) ≤ 0) (by decide)
  rw [F64.ofNat]
  refine ⟨hfin, ?_⟩
  rw [zpow_zero, mul_one, signFactor, if_neg Bool.false_ne_true, one_mul] at hval
  exact_mod_cast hval

/-- Settles O51: finite, infinite and NaN operands of the two conversions, and the integers. -/
theorem conversionsExactOrRounded : Obligations.ConversionsExactOrRounded := by
  refine ⟨fun _ => F32.widen_exact, fun s h => ?_, fun s h => ?_, fun s h => ⟨F32.sign_widen h, F32.narrow_widen h⟩,
    fun _ => F64.roundsTo_narrow, fun v h => ?_, fun v h => ?_, fun _ => F64.sign_narrow, fun _ => F64.ofNat_exact⟩
  · rw [F32.widen_of_isInf h]; exact (F64.pack_infMag _).1
  · rw [F32.widen_of_isNaN h]; exact F64.isNaN_quietNaN _
  · rw [F64.narrow_of_isInf h]; exact (F32.pack_infMag _).1
  · rw [F64.narrow_of_isNaN h]; exact F32.isNaN_quietNaN _

end Conversions

end Sys2Proof

namespace Sys2Proof.Machine

/-! # The state (10_state.md)

What a command can do to the chain's registers is said once (`exec_effect`), and what each part of it does to the
invariant once (`…_inv`); the statements about the state follow by cases on the effect. -/

/-! ## What a command can do -/

section Effect

/-- `t` is `s` but for the primitive bank, its written marks, the draw counter and the responses. -/
structure ChainKept (s t : State) : Prop where
  rest    : t = { s with prim := t.prim, written := t.written, draws := t.draws, resp := t.resp }
  tone    : t.written.tone = s.written.tone
  running : t.written.running = s.written.running
  block   : t.written.block = s.written.block

theorem ChainKept.trans {s t u : State} (h : ChainKept s t) (k : ChainKept t u) : ChainKept s u where
  rest := by rw [k.rest, h.rest]
  tone := k.tone.trans h.tone
  running := k.running.trans h.running
  block := k.block.trans h.block

theorem ChainKept.drew (s : State) (known : Bool) (k : Nat) : ChainKept s (s.drew known k) := by
  rw [State.drew_eq]; exact ⟨rfl, rfl, rfl, rfl⟩

/-- A unit command acts on the primitive bank (30_encoding.md R72). -/
theorem exec_unit_keeps_chain (i : Instr) (s : State) (hi : i.isUnit = true) :
    ∃ t, exec i s = .next t ∧ ChainKept s t := by
  cases i with
  | setup | setact | pset | pget | block | rd => cases hi
  | smStep | efStep | arStep | bqStep =>
    exact ⟨_, rfl, (ChainKept.drew s _ _).trans ⟨rfl, rfl, rfl, rfl⟩⟩
  | smCfg | smRst | efCfg | efRst | arCfg | arRst | bqLsh | bqHsh | bqPk | bqHpf | bqLpf | bqRst | sat =>
    exact ⟨_, rfl, rfl, rfl, rfl, rfl⟩

/-- What a command can leave, by the five ways it can act on the chain. What a BLOCK answers is left open. -/
inductive Effect (s : State) : Instr → State → Prop
  | kept {i : Instr} {t : State} (h : ChainKept s t) : Effect s i t
  | setup (sr : F64) : Effect s (.setup sr) ((setup Config.cfg sr s).respond [])
  | setact (active : Bool) : Effect s (.setact active) ((setActive Config.cfg active s).respond [])
  | pset (pid : BitVec 8) (v : F64) : Effect s (.pset pid v) ((s.setParam pid.toNat v).respond [])
  | block (nin nout : BitVec 4) (n : Word) (events : List Event) (samples : List F32) (results : List Word) :
      Effect s (.block nin nout n events samples)
        ((Machine.block Config.cfg nin nout n events samples s).1.respond results)

theorem exec_effect {i : Instr} {s t : State} (h : exec i s = .next t) : Effect s i t := by
  by_cases hi : i.isUnit = true
  · obtain ⟨u, hu, hk⟩ := exec_unit_keeps_chain i s hi
    cases hu.symm.trans h
    exact .kept hk
  · cases i with
    | setup sr => cases h; exact .setup sr
    | setact active => cases h; exact .setact active
    | pset pid v => cases h; exact .pset pid v
    | pget pid => cases h; exact .kept ⟨rfl, rfl, rfl, rfl⟩
    | block nin nout n events samples => cases h; exact .block nin nout n events samples _
    | rd addr => cases h; exact .kept ((ChainKept.drew s _ _).trans ⟨rfl, rfl, rfl, rfl⟩)
    | _ => exact absurd rfl hi

/-- SETACT does nothing, or is one of the two transitions of `MODE` (R162). -/
theorem setActive_cases (c : Cfg) (active : Bool) (s : State) :
    (active = true ∧ s.mode = .active ∧ setActive c active s = s) ∨
    (active = true ∧ s.mode = .inactive ∧ setActive c active s = { activationReset c s with mode := .active }) ∨
    (active = false ∧ setActive c active s = { s with mode := .inactive }) := by
  cases active
  · exact .inr (.inr ⟨rfl, rfl⟩)
  · cases hm : s.mode
    · exact .inr (.inl ⟨rfl, rfl, by simp only [setActive, hm]⟩)
    · exact .inl ⟨rfl, rfl, by simp only [setActive, hm]⟩

end Effect

/-! ## What a BLOCK leaves alone -/

section BlockKeeps

/-- Flags, rate, bank and ports are the same: a block writes none of them, and its response follows it. -/
structure BlockKeeps (s t : State) : Prop where
  mode     : t.mode = s.mode
  cfgValid : t.cfgValid = s.cfgValid
  sr       : t.sr = s.sr
  prim     : t.prim = s.prim
  cmd      : t.cmd = s.cmd
  resp     : t.resp = s.resp

variable (c : Cfg) (nin nout : BitVec 4) (n : Word) (events : List Event) (samples : List F32) (s : State)

/-- The body, which makes no draws of its own, writes chain registers only. -/
theorem blockBody_keeps : BlockKeeps s (blockBody c nin n events samples s).1 := by
  have hloop := (runFrames_keeps c (framesOf nin.toNat (frameCount n) samples) (blockStart c events s)).rest
  obtain ⟨p, tag, bq, blk, w, hstart⟩ := blockStart_keeps c events s
  rw [blockBody, hloop, hstart]
  exact ⟨rfl, rfl, rfl, rfl, rfl, rfl⟩

/-- The draws stand in for coefficients, `SR` and the tag. -/
theorem drawUnset_keeps : s.drawUnset = { s with
    sr := s.drawUnset.sr, toneTag := s.drawUnset.toneTag, smIn := s.drawUnset.smIn, smOut := s.drawUnset.smOut
    smDrv := s.drawUnset.smDrv, ef := s.drawUnset.ef, bq := s.drawUnset.bq, draws := s.drawUnset.draws } := by
  unfold State.drawUnset; split <;> rfl

theorem blockBodyUnset_keeps : BlockKeeps s (blockBodyUnset c nin n events samples s).1 := by
  have hbody := blockBody_keeps c nin n events samples s.drawUnset
  have hkept : BlockKeeps s ((blockBody c nin n events samples s.drawUnset).1.keepSetup s) :=
    { mode := hbody.mode.trans (by rw [drawUnset_keeps])
      cfgValid := hbody.cfgValid.trans (by rw [drawUnset_keeps])
      sr := rfl
      prim := hbody.prim.trans (by rw [drawUnset_keeps])
      cmd := hbody.cmd.trans (by rw [drawUnset_keeps])
      resp := hbody.resp.trans (by rw [drawUnset_keeps]) }
  simp only [blockBodyUnset]
  split
  · exact hkept
  · exact ⟨hkept.mode, hkept.cfgValid, rfl, hkept.prim, hkept.cmd, hkept.resp⟩

theorem block_keeps : BlockKeeps s (block c nin nout n events samples s).1 := by
  rcases block_cases c nin nout n events samples s with ⟨-, h⟩ | ⟨-, -, -, h⟩ | ⟨-, -, -, h⟩ <;> rw [h]
  · exact ⟨rfl, rfl, rfl, rfl, rfl, rfl⟩
  · exact blockBody_keeps c nin n events samples s
  · exact blockBodyUnset_keeps c nin n events samples s

end BlockKeeps

/-! ## The bank is not read (R33) -/

section BankUnread

variable (c : Cfg) (p : Prim)

/-- The same machine with another primitive bank. -/
def State.withPrim (s : State) (p : Prim) : State := { s with prim := p }

theorem setParam_withPrim (s : State) (pid : Nat) (v : F64) :
    (s.withPrim p).setParam pid v = (s.setParam pid v).withPrim p := by
  unfold State.setParam; split <;> rfl

theorem applyEvents_withPrim (events : List Event) (s : State) :
    applyEvents events (s.withPrim p) = (applyEvents events s).withPrim p := by
  induction events generalizing s with
  | nil => rfl
  | cons e es ih =>
    have hevent : applyEvent (s.withPrim p) e = (applyEvent s e).withPrim p := by
      unfold applyEvent
      split
      · exact setParam_withPrim p s e.pid e.value
      · rfl
    calc applyEvents (e :: es) (s.withPrim p) = applyEvents es (applyEvent (s.withPrim p) e) := rfl
      _ = (applyEvents es (applyEvent s e)).withPrim p := by rw [hevent, ih]

theorem toneStep_withPrim (s : State) : toneStep c (s.withPrim p) = (toneStep c s).withPrim p := by
  have htag : tagOf c (s.withPrim p).param = tagOf c s.param := rfl
  unfold toneStep
  rw [htag, show (s.withPrim p).toneTag = s.toneTag from rfl]
  split <;> rfl

theorem blockStart_withPrim (events : List Event) (s : State) :
    blockStart c events (s.withPrim p) = (blockStart c events s).withPrim p := by
  unfold blockStart
  rw [applyEvents_withPrim, toneStep_withPrim]
  rfl

theorem runFrames_withPrim (fs : List (F32 × F32)) (s : State) :
    runFrames c fs (s.withPrim p) = ((runFrames c fs s).1.withPrim p, (runFrames c fs s).2) := by
  induction fs generalizing s with
  | nil => rfl
  | cons f fs ih =>
    have hframe : frame c (s.withPrim p) f = ((frame c s f).1.withPrim p, (frame c s f).2) := rfl
    simp only [runFrames, hframe, ih]

variable (nin nout : BitVec 4) (n : Word) (events : List Event) (samples : List F32) (s : State)

theorem blockBody_withPrim :
    blockBody c nin n events samples (s.withPrim p) =
      ((blockBody c nin n events samples s).1.withPrim p, (blockBody c nin n events samples s).2) := by
  unfold blockBody
  rw [blockStart_withPrim, runFrames_withPrim]
  rfl

theorem drawUnset_withPrim : (s.withPrim p).drawUnset = s.drawUnset.withPrim p := by
  unfold State.drawUnset
  rw [show (s.withPrim p).written = s.written from rfl]
  split <;> rfl

theorem blockBodyUnset_withPrim :
    blockBodyUnset c nin n events samples (s.withPrim p) =
      ((blockBodyUnset c nin n events samples s).1.withPrim p, (blockBodyUnset c nin n events samples s).2) := by
  unfold blockBodyUnset
  rw [drawUnset_withPrim, blockBody_withPrim]
  generalize blockBody c nin n events samples s.drawUnset = r
  have hkeep : (r.1.withPrim p).keepSetup (s.withPrim p) = (r.1.keepSetup s).withPrim p := rfl
  simp only [hkeep]
  rw [show ((r.1.keepSetup s).withPrim p).written = (r.1.keepSetup s).written from rfl]
  split <;> rfl

end BankUnread

/-- Settles O19: each step of the body commutes with a change of the bank. -/
theorem blockDoesNotReadBank : Obligations.BlockDoesNotReadBank := by
  intro c nin nout n events samples s p
  change block c nin nout n events samples (s.withPrim p) =
    ((block c nin nout n events samples s).1.withPrim p, (block c nin nout n events samples s).2)
  simp only [block, show (s.withPrim p).mode = s.mode from rfl, show (s.withPrim p).cfgValid = s.cfgValid from rfl]
  cases s.mode with
  | inactive => rfl
  | active =>
    split_ifs
    · exact blockBody_withPrim ..
    · exact blockBodyUnset_withPrim ..
    · rfl

/-! ## Rules about single registers -/

/-- A command that is no SETUP leaves `CFG_VALID` and `SR` as they are. -/
theorem exec_keeps_rate {i : Instr} {s t : State} (h : exec i s = .next t) (hi : ∀ sr, i ≠ .setup sr) :
    t.cfgValid = s.cfgValid ∧ t.sr = s.sr := by
  cases exec_effect h with
  | kept hk => exact ⟨by rw [hk.rest], by rw [hk.rest]⟩
  | setup sr => exact absurd rfl (hi sr)
  | setact active =>
    rcases setActive_cases Config.cfg active s with ⟨-, -, ha⟩ | ⟨-, -, ha⟩ | ⟨-, ha⟩ <;> rw [ha] <;>
      exact ⟨rfl, rfl⟩
  | pset pid v => simp
  | block nin nout n events samples =>
    have hk := block_keeps Config.cfg nin nout n events samples s
    exact ⟨hk.cfgValid, hk.sr⟩

/-- Settles O16: SETUP writes both, and no other command either. -/
theorem onlySetupWritesRateAndValid : Obligations.OnlySetupWritesRateAndValid := by
  intro i s t h
  by_cases hi : ∃ sr, i = .setup sr
  · obtain ⟨sr, rfl⟩ := hi
    cases h
    exact ⟨fun _ => rfl, fun _ => ⟨sr, rfl, rfl, rfl⟩⟩
  · obtain ⟨hv, hsr⟩ := exec_keeps_rate h (not_exists.mp hi)
    rw [hv, hsr]
    exact ⟨id, fun hne => by simp at hne⟩

/-- Settles O17: by cases on the effect, a PSET of another register leaves this one. -/
theorem onlyPsetAndBlockWriteParams : Obligations.OnlyPsetAndBlockWriteParams := by
  intro i s t p h hne
  cases exec_effect h with
  | kept hk => exact absurd (by rw [hk.rest]) hne
  | setup sr => exact absurd rfl hne
  | setact active =>
    refine absurd ?_ hne
    rcases setActive_cases Config.cfg active s with ⟨-, -, ha⟩ | ⟨-, -, ha⟩ | ⟨-, ha⟩ <;> rw [ha] <;> rfl
  | pset pid v =>
    rw [State.respond_param, State.setParam_param_get] at hne ⊢
    by_cases hpid : pid.toNat = p.val
    · refine .inl ⟨v, ?_, if_pos hpid⟩
      rw [← hpid, BitVec.ofNat_toNat, BitVec.setWidth_eq]
    · exact absurd (if_neg hpid) hne
  | block nin nout n events samples => exact .inr ⟨nin, nout, n, events, samples, rfl⟩

/-! ## The channels of a sample loop (R32) -/

section Channels

variable (c : Cfg)

/-- Two sample loops stay related, and give the same words of one channel, where every two frames with the same input
of that channel do. -/
theorem runFrames_respects {R : State → State → Prop} {channel : F32 × F32 → F32} {pick : List Word → List Word}
    (cons : ∀ (o : F32 × F32) ws, pick (o.1.bits :: o.2.bits :: ws) = (channel o).bits :: pick ws)
    (one : ∀ {s t f g}, R s t → channel f = channel g →
      channel (frame c s f).2 = channel (frame c t g).2 ∧ R (frame c s f).1 (frame c t g).1)
    {fs gs : List (F32 × F32)} {s t : State} (hin : fs.map channel = gs.map channel) (h : R s t) :
    pick (runFrames c fs s).2 = pick (runFrames c gs t).2 ∧ R (runFrames c fs s).1 (runFrames c gs t).1 := by
  induction fs generalizing gs s t with
  | nil =>
    obtain rfl : gs = [] := by simpa using hin.symm
    exact ⟨rfl, h⟩
  | cons f fs ih =>
    obtain ⟨g, gs, rfl⟩ : ∃ g gs', gs = g :: gs' := List.exists_cons_of_ne_nil fun h0 => by simp [h0] at hin
    obtain ⟨hfg, hrest⟩ := List.cons.inj hin
    obtain ⟨hout, hnext⟩ := one h hfg
    obtain ⟨hwords, hend⟩ := ih hrest hnext
    refine ⟨?_, hend⟩
    simp only [runFrames, cons, hout, hwords]

/-- The smoothed values of a frame come from what both channels share. -/
theorem smoothStep_congr {s t : State} (hin : s.smIn = t.smIn) (hout : s.smOut = t.smOut) (hdrv : s.smDrv = t.smDrv)
    (hblk : s.blk = t.blk) :
    (smoothStep s).smIn = (smoothStep t).smIn ∧ (smoothStep s).smOut = (smoothStep t).smOut ∧
      (smoothStep s).smDrv = (smoothStep t).smDrv := by
  simp only [smoothStep, hin, hout, hdrv, hblk, and_self]

/-- What one channel of a frame leaves, from the state before the frame and the channel's own registers and sample. -/
def frameChannel (s : State) (ef : Follower) (b : Bank) (x : F32) : ChannelOut :=
  channelFrame c (smoothStep s).smIn.y (smoothStep s).smOut.y (smoothStep s).smDrv.y ef b x

/-- A frame's outputs, followers and filters are those of its two channels. -/
theorem frame_channels (s : State) (f : F32 × F32) :
    let l := frameChannel c s s.ef.left s.bq.left f.1
    let r := frameChannel c s s.ef.right s.bq.right f.2
    (frame c s f).2 = (l.out, r.out) ∧ (frame c s f).1.ef = ⟨l.ef, r.ef⟩ ∧ (frame c s f).1.bq = ⟨l.bank, r.bank⟩ :=
  ⟨rfl, rfl, rfl⟩

theorem frame_leftAgree {s t : State} {f g : F32 × F32} (h : LeftAgree s t) (hfg : f.1 = g.1) :
    (frame c s f).2.1 = (frame c t g).2.1 ∧ LeftAgree (frame c s f).1 (frame c t g).1 := by
  obtain ⟨hin, hout, hdrv⟩ := smoothStep_congr h.smIn h.smOut h.smDrv h.blk
  have hchannel : frameChannel c s s.ef.left s.bq.left f.1 = frameChannel c t t.ef.left t.bq.left g.1 := by
    rw [frameChannel, hin, hout, hdrv, h.ef, h.bq, hfg, ← frameChannel]
  obtain ⟨hs, hsef, hsbq⟩ := frame_channels c s f
  obtain ⟨ht, htef, htbq⟩ := frame_channels c t g
  refine ⟨?_, hin, hout, hdrv, h.blk, ?_, ?_⟩
  · rw [hs, ht, hchannel]
  · rw [hsef, htef, hchannel]
  · rw [hsbq, htbq, hchannel]

theorem frame_rightAgree {s t : State} {f g : F32 × F32} (h : RightAgree s t) (hfg : f.2 = g.2) :
    (frame c s f).2.2 = (frame c t g).2.2 ∧ RightAgree (frame c s f).1 (frame c t g).1 := by
  obtain ⟨hin, hout, hdrv⟩ := smoothStep_congr h.smIn h.smOut h.smDrv h.blk
  have hchannel : frameChannel c s s.ef.right s.bq.right f.2 = frameChannel c t t.ef.right t.bq.right g.2 := by
    rw [frameChannel, hin, hout, hdrv, h.ef, h.bq, hfg, ← frameChannel]
  obtain ⟨hs, hsef, hsbq⟩ := frame_channels c s f
  obtain ⟨ht, htef, htbq⟩ := frame_channels c t g
  refine ⟨?_, hin, hout, hdrv, h.blk, ?_, ?_⟩
  · rw [hs, ht, hchannel]
  · rw [hsef, htef, hchannel]
  · rw [hsbq, htbq, hchannel]

end Channels

/-- Settles O55: by induction over the frames, from one frame for either channel. -/
theorem channelsDoNotSeeEachOther : Obligations.ChannelsDoNotSeeEachOther := by
  intro c fs gs s t
  exact ⟨runFrames_respects (pick := leftWords) c (fun _ _ => rfl) (frame_leftAgree c),
    runFrames_respects (pick := rightWords) c (fun _ _ => rfl) (frame_rightAgree c)⟩

/-! ## The invariant -/

/-- Settles O13: at reset the machine is Inactive and nothing has been written. -/
theorem invariantHoldsAtReset : Obligations.InvariantHoldsAtReset :=
  ⟨⟨nofun, nofun⟩, ⟨nofun, nofun, nofun, nofun⟩, ⟨nofun, nofun, nofun, nofun, nofun, nofun, nofun⟩⟩

section Invariant

/-! What the invariant reads of a state, and that nothing else matters to it. -/

/-- `t` has the flags, rate, tag and coefficients of `s`, and its written marks of the chain. `MODE` and the mark of the
activation reset, which the invariant relates to each other only, are left out. -/
structure SameTuning (s t : State) : Prop where
  cfgValid : t.cfgValid = s.cfgValid := by rfl
  sr       : t.sr = s.sr := by rfl
  toneTag  : t.toneTag = s.toneTag := by rfl
  smIn     : t.smIn.a = s.smIn.a := by rfl
  smOut    : t.smOut.a = s.smOut.a := by rfl
  smDrv    : t.smDrv.a = s.smDrv.a := by rfl
  efL      : t.ef.left.a = s.ef.left.a := by rfl
  efR      : t.ef.right.a = s.ef.right.a := by rfl
  left     : t.bq.left.coeffs = s.bq.left.coeffs := by rfl
  right    : t.bq.right.coeffs = s.bq.right.coeffs := by rfl
  tone     : t.written.tone = s.written.tone := by rfl
  block    : t.written.block = s.written.block := by rfl

section Coeffs
variable {a a' b b' : Bank}

theorem Bank.SameTone.congr (h : a.SameTone b) (ha : a'.coeffs = a.coeffs) (hb : b'.coeffs = b.coeffs) :
    a'.SameTone b' := by simp_all [Bank.coeffs, Bank.SameTone]

theorem Bank.SameTilt.congr (h : a.SameTilt b) (ha : a'.coeffs = a.coeffs) (hb : b'.coeffs = b.coeffs) :
    a'.SameTilt b' := by simp_all [Bank.coeffs, Bank.SameTilt]

theorem Bank.SameCab.congr (h : a.SameCab b) (ha : a'.coeffs = a.coeffs) (hb : b'.coeffs = b.coeffs) :
    a'.SameCab b' := by simp_all [Bank.coeffs, Bank.SameCab]

theorem Bank.HasTone.congr {t : ToneCoeffs} (h : a.HasTone t) (ha : a'.coeffs = a.coeffs) : a'.HasTone t := by
  simp_all [Bank.coeffs, Bank.HasTone]

theorem Bank.cab_of_coeffs (ha : a'.coeffs = a.coeffs) : a'.cabHp.c = a.cabHp.c ∧ a'.cabLp.c = a.cabLp.c := by
  simp_all [Bank.coeffs]

end Coeffs

/-- The invariant carries over to a state of the same tuning that has its running values. -/
theorem State.Inv.of_sameTuning {s t : State} (hs : s.Inv) (h : SameTuning s t)
    (hrun : t.mode = .active → t.written.running = true) : t.Inv := by
  obtain ⟨hhp, hlp⟩ := Bank.cab_of_coeffs h.left
  refine ⟨⟨hrun, ?_⟩, ⟨?_, ?_, ?_, ?_⟩, ⟨?_, ?_, ?_, ?_, ?_, ?_, ?_⟩⟩ <;>
    simp only [h.cfgValid, h.sr, h.toneTag, h.smIn, h.smOut, h.smDrv, h.efL, h.efR, h.tone, h.block, hhp, hlp]
  · exact hs.ordered.tone
  · exact hs.symmetric.follower
  · exact fun hw => (hs.symmetric.tone hw).congr h.left h.right
  · exact fun hw => (hs.symmetric.tilt hw).congr h.left h.right
  · exact fun hv => (hs.symmetric.cab hv).congr h.left h.right
  · exact fun hv => (hs.tuned.tone hv).congr h.left
  · exact hs.tuned.cabHp
  · exact hs.tuned.cabLp
  · exact hs.tuned.smIn
  · exact hs.tuned.smOut
  · exact hs.tuned.smDrv
  · exact hs.tuned.ef

/-- Before any SETUP the invariant asks only for the running mark and for the symmetry of what a BLOCK writes. -/
theorem State.Inv.of_unset {s : State} (hv : s.cfgValid = false) (hrun : s.mode = .active → s.written.running = true)
    (htone : s.written.tone = true → s.bq.left.SameTone s.bq.right)
    (htilt : s.written.block = true → s.bq.left.SameTilt s.bq.right) : s.Inv := by
  have no {p : Prop} (h : s.cfgValid = true) : p := nomatch hv.symm.trans h
  exact ⟨⟨hrun, no⟩, ⟨no, htone, htilt, no⟩, ⟨no, no, no, no, no, no, no⟩⟩

/-! Each part of a command, in the order of the definitions. -/

variable {s : State}

theorem ChainKept.inv {t : State} (h : ChainKept s t) (hs : s.Inv) : t.Inv := by
  obtain ⟨hrest, htone, hrunning, hblock⟩ := h
  refine hs.of_sameTuning ?_ ?_
  · rw [hrest]; exact { tone := htone, block := hblock }
  · rw [hrunning, hrest]; exact hs.ordered.running

theorem setParam_inv (hs : s.Inv) (pid : Nat) (v : F64) : (s.setParam pid v).Inv := by
  rw [State.setParam_eq]; exact hs.of_sameTuning {} hs.ordered.running

theorem applyEvents_inv (hs : s.Inv) (events : List Event) : (applyEvents events s).Inv := by
  rw [applyEvents_keeps]; exact hs.of_sameTuning {} hs.ordered.running

/-- A redesign writes the design of the new tag to both channels. -/
theorem fbTone_inv (hs : s.Inv) : (fbTone Config.cfg s).Inv :=
  ⟨{ hs.ordered with tone := fun _ => rfl },
   { hs.symmetric with tone := fun _ => ⟨rfl, rfl, rfl, rfl, rfl, rfl⟩ },
   { hs.tuned with tone := fun _ => ⟨rfl, rfl, rfl, rfl, rfl, rfl⟩ }⟩

theorem toneStep_inv (hs : s.Inv) : (toneStep Config.cfg s).Inv := by
  rcases toneStep_cases Config.cfg s with ⟨-, h⟩ | ⟨-, h⟩ <;> rw [h]
  exacts [hs, fbTone_inv hs]

/-- Steps 3 to 5 write the same tilt filters to both channels. -/
theorem targetStep_inv (hs : s.Inv) : (targetStep Config.cfg s).Inv :=
  ⟨{ hs.ordered with }, { hs.symmetric with tilt := fun _ => ⟨rfl, rfl⟩ }, { hs.tuned with }⟩

theorem blockStart_inv (hs : s.Inv) (events : List Event) : (blockStart Config.cfg events s).Inv :=
  have h := targetStep_inv (toneStep_inv (applyEvents_inv hs events))
  h.of_sameTuning {} h.ordered.running

theorem LoopKeeps.inv {t : State} (h : LoopKeeps s t) (hs : s.Inv) : t.Inv := by
  refine hs.of_sameTuning ?_ ?_
  · exact { cfgValid := by rw [h.rest], sr := by rw [h.rest], toneTag := by rw [h.rest], smIn := h.smIn
            smOut := h.smOut, smDrv := h.smDrv, efL := h.efL, efR := h.efR, left := h.left, right := h.right
            tone := by rw [h.rest], block := by rw [h.rest] }
  · rw [h.rest]; exact hs.ordered.running

theorem blockBody_inv (hs : s.Inv) (nin : BitVec 4) (n : Word) (events : List Event) (samples : List F32) :
    (blockBody Config.cfg nin n events samples s).1.Inv :=
  have h := (runFrames_keeps Config.cfg (framesOf nin.toNat (frameCount n) samples) _).inv (blockStart_inv hs events)
  h.of_sameTuning {} h.ordered.running

/-- The draws leave what the invariant asks of a machine that was not set up: the tilt filters, and the tone filters
where something has written them. -/
theorem drawUnset_inv (hs : s.Inv) (hv : s.cfgValid = false) : s.drawUnset.Inv := by
  unfold State.drawUnset
  split
  · exact .of_unset hv hs.ordered.running hs.symmetric.tone hs.symmetric.tilt
  next hw => exact .of_unset hv hs.ordered.running (fun h => absurd h hw) hs.symmetric.tilt

theorem keepSetup_inv (hs : s.Inv) (hv : s.cfgValid = false) (old : State) : (s.keepSetup old).Inv :=
  .of_unset hv hs.ordered.running hs.symmetric.tone hs.symmetric.tilt

theorem keepTone_inv (hs : s.Inv) (hv : s.cfgValid = false) (hw : ¬ s.written.tone = true) (old : State) :
    (s.keepTone old).Inv :=
  .of_unset hv hs.ordered.running (fun h => absurd h hw) hs.symmetric.tilt

theorem blockBodyUnset_inv (hs : s.Inv) (hv : s.cfgValid = false) (nin : BitVec 4) (n : Word) (events : List Event)
    (samples : List F32) : (blockBodyUnset Config.cfg nin n events samples s).1.Inv := by
  have hunset : (blockBody Config.cfg nin n events samples s.drawUnset).1.cfgValid = false := by
    rw [(blockBody_keeps ..).cfgValid, drawUnset_keeps]; exact hv
  have hkept := keepSetup_inv (blockBody_inv (drawUnset_inv hs hv) nin n events samples) hunset s
  simp only [blockBodyUnset]
  split
  · exact hkept
  next hw => exact keepTone_inv hkept hunset hw s

theorem block_inv (hs : s.Inv) (nin nout : BitVec 4) (n : Word) (events : List Event) (samples : List F32) :
    (block Config.cfg nin nout n events samples s).1.Inv := by
  rcases block_cases Config.cfg nin nout n events samples s with ⟨-, h⟩ | ⟨-, -, -, h⟩ | ⟨-, -, hv, h⟩ <;> rw [h]
  · exact hs
  · exact blockBody_inv hs nin n events samples
  · exact blockBodyUnset_inv hs hv nin n events samples

/-- SETUP writes every coefficient but the tilt filters', the same to both channels. -/
theorem setup_inv (hs : s.Inv) (sr : F64) : (setup Config.cfg sr s).Inv :=
  ⟨⟨hs.ordered.running, fun _ => rfl⟩,
   ⟨fun _ => rfl, fun _ => ⟨rfl, rfl, rfl, rfl, rfl, rfl⟩, hs.symmetric.tilt, fun _ => ⟨rfl, rfl⟩⟩,
   ⟨fun _ => ⟨rfl, rfl, rfl, rfl, rfl, rfl⟩, fun _ => rfl, fun _ => rfl, fun _ => rfl, fun _ => rfl, fun _ => rfl,
    fun _ => rfl⟩⟩

theorem setActive_inv (hs : s.Inv) (active : Bool) : (setActive Config.cfg active s).Inv := by
  rcases setActive_cases Config.cfg active s with ⟨-, -, h⟩ | ⟨-, -, h⟩ | ⟨-, h⟩ <;> rw [h]
  · exact hs
  · exact hs.of_sameTuning {} fun _ => rfl
  · exact hs.of_sameTuning {} nofun

theorem respond_inv (hs : s.Inv) (results : List Word) : (s.respond results).Inv :=
  hs.of_sameTuning {} hs.ordered.running

theorem exec_inv {i : Instr} {t : State} (hs : s.Inv) (h : exec i s = .next t) : t.Inv := by
  cases exec_effect h with
  | kept hk => exact hk.inv hs
  | setup sr => exact respond_inv (setup_inv hs sr) _
  | setact active => exact respond_inv (setActive_inv hs active) _
  | pset pid v => exact respond_inv (setParam_inv hs pid.toNat v) _
  | block nin nout n events samples => exact respond_inv (block_inv hs nin nout n events samples) _

end Invariant

/-- Settles O14: by cases on what the decoder answers; a command, by cases on its effect. -/
theorem stepKeepsInvariant : Obligations.StepKeepsInvariant := by
  intro s t hs h
  cases hdecode : decode s.cmd with
  | command i rest =>
    rw [stepRunsDecodedCommand s i rest hdecode] at h
    exact exec_inv (s := { s with cmd := rest }) (hs.of_sameTuning {} hs.ordered.running) h
  | illegal why rest =>
    simp only [step, hdecode] at h
    cases h
    exact hs.of_sameTuning {} hs.ordered.running
  | incomplete =>
    simp only [step, hdecode] at h
    cases h
    exact hs

end Sys2Proof.Machine

namespace Sys2Proof

/-! ## The mid-frequency index (R25) -/

section MidIndex

/-- A normalized value has a magnitude up to that of 1.0, and a sign only at zero. -/
theorem F64.mag_of_inUnit {v : F64} (h : v.InUnit) : v.mag ≤ F64.one.mag ∧ (v.sign = true → v.mag = 0) := by
  obtain ⟨-, hlo, hhi⟩ := (F64.inUnit_iff v).mp h
  rw [show F64.one.key = F64.one.mag by decide] at hhi
  unfold F64.key at hlo hhi
  split_ifs at hlo hhi with hs
  · exact ⟨by omega, fun _ => by omega⟩
  · exact ⟨by omega, fun hs' => absurd hs' hs⟩

theorem F64.val_one : F64.one.val = 1 := by
  norm_num [F64.val, show F64.one.sign = false by decide, show F64.one.mant = 2 ^ 52 by decide,
    show F64.one.expo = -52 by decide]

theorem F64.val_zero : F64.zero.val = 0 := by
  norm_num [F64.val, show F64.zero.mant = 0 by decide]

/-- A normalized value lies between 0 and 1. -/
theorem F64.val_of_inUnit {v : F64} (h : v.InUnit) : v.isFinite = true ∧ 0 ≤ v.val ∧ v.val ≤ 1 := by
  obtain ⟨hle, hzero⟩ := F64.mag_of_inUnit h
  have hhi : |(v.val : ℝ)| ≤ 1 := by
    have hone : magVal 52 (-1074) F64.one.mag = 1 := by rw [← F64.abs_val, F64.val_one, Rat.cast_one, abs_one]
    rw [F64.abs_val, ← hone]
    exact magVal_strictMono.monotone hle
  have hlo : (0 : ℝ) ≤ v.val := by
    rw [F64.val_eq]
    cases hs : v.sign
    · simpa [signFactor] using magVal_nonneg v.mag
    · simp [hzero hs]
  have hfin : v.mag < F64.infMag := hle.trans_lt (by decide)
  exact ⟨by simpa [F64.isFinite] using hfin, by exact_mod_cast hlo, by exact_mod_cast (abs_le.mp hhi).2⟩

/-- `F64.floor` is the floor of the value. -/
theorem F64.floor_eq (x : F64) : x.floor = ⌊x.val⌋ := by
  have hval : x.val = x.smant * 2 ^ x.expo := by
    apply Rat.cast_injective (α := ℝ)
    push_cast
    exact x.val_eq_smant
  rw [F64.floor, hval]
  split_ifs with h
  · obtain ⟨k, hk⟩ := Int.eq_ofNat_of_zero_le h
    rw [hk]
    exact (Int.floor_eq_iff.mpr ⟨by simp, by simp⟩).symm
  · obtain ⟨k, hk⟩ : ∃ k : ℕ, x.expo = -k := ⟨x.expo.natAbs, by omega⟩
    rw [hk, neg_neg, Int.toNat_natCast, zpow_neg, zpow_natCast, ← div_eq_mul_inv]
    exact_mod_cast (Rat.floor_intCast_div_natCast x.smant (2 ^ k)).symm

theorem F64.lit_five : (F64.lit 5).isFinite = true ∧ (F64.lit 5).val = 5 := by
  obtain ⟨hfin, hval⟩ := F64.round_exact false (m := 5) (e := 0) (by decide) (by decide) (by decide)
  have hlit : F64.lit 5 = F64.round false 5 0 := by rw [F64.lit]; rfl
  rw [hlit]
  refine ⟨hfin, ?_⟩
  norm_num [signFactor] at hval
  exact_mod_cast hval

/-- A number rounded from an exact one that is not negative is not negative. -/
theorem NearestEven.nonneg {r : F64} {x : ℚ} (h : NearestEven r x) (hx : 0 ≤ x) : 0 ≤ r.val := by
  have hnear := (h .zero (by decide)).1
  rw [F64.val_zero, zero_sub, abs_neg, abs_of_nonneg hx] at hnear
  linarith [(abs_le.mp hnear).1]

end MidIndex

/-- Settles O53: five times a normalized value is far from overflow, and rounds to no negative number. -/
theorem midIndexOfNormalizedValue : Obligations.MidIndexOfNormalizedValue := by
  intro v hv
  obtain ⟨hfin, hlo, hhi⟩ := F64.val_of_inUnit hv
  obtain ⟨hfin5, hval5⟩ := F64.lit_five
  have hround := F64.roundsTo_mul hfin5 hfin
  have hsmall : |(F64.lit 5).val * v.val| < 2 ^ 1024 - 2 ^ 970 := by
    rw [hval5, abs_of_nonneg (by positivity)]
    have hpow : (2 : ℚ) ^ 1024 = 2 ^ 54 * 2 ^ 970 := by rw [← pow_add]
    have hone : (1 : ℚ) ≤ 2 ^ 970 := one_le_pow₀ one_le_two
    rw [hpow]
    generalize (2 : ℚ) ^ 970 = u at hone
    linarith
  rw [RoundsTo, if_pos hsmall] at hround
  obtain ⟨hprod, hnear⟩ := hround
  have hnonneg := hnear.nonneg (by rw [hval5]; positivity)
  have hidx : Machine.midIdx v = min 4 ⌊((F64.lit 5).mul v).val⌋ := by
    simp only [Machine.midIdx, hprod, if_true, F64.floor_eq]
  rw [hidx]
  exact ⟨hval5, hprod, rfl, le_min (by decide) (Int.floor_nonneg.mpr hnonneg), min_le_left _ _⟩

end Sys2Proof

namespace Sys2Proof.Machine

/-! # The ports and the register map (20_memory.md)

The streams (R51): what the decoder leaves of the command words is a suffix of them, and a command answers after the
responses before it. The register map (R55): `readReg` range by range, and what each range reads as where nothing is
listed. -/

/-! ## What the decoder leaves of the words -/

section Consumption

/-- The words that a decoding leaves are the last of `ws`: no word is dropped, reordered or made up. -/
def LeavesSuffix (ws : List Word) : Decoded → Prop
  | .command _ rest => rest <:+ ws
  | .illegal _ rest => rest <:+ ws
  | .incomplete => True

theorem LeavesSuffix.cons {ws : List Word} {d : Decoded} (h : LeavesSuffix ws d) (w : Word) :
    LeavesSuffix (w :: ws) d := by
  cases d with
  | command i rest => exact List.IsSuffix.trans h (List.suffix_cons w ws)
  | illegal why rest => exact List.IsSuffix.trans h (List.suffix_cons w ws)
  | incomplete => trivial

variable (ws : List Word)

theorem leavesSuffix_command (i : Instr) : LeavesSuffix ws (.command i ws) := List.suffix_rfl

theorem leavesSuffix_ifZero (zero : Bool) {d : Decoded} (h : LeavesSuffix ws d) :
    LeavesSuffix ws (ifZero zero ws d) := by
  cases zero
  · exact List.suffix_rfl
  · exact h

theorem leavesSuffix_payload1 (k : F64 → Instr) : LeavesSuffix ws (payload1 k ws) := by
  unfold payload1
  split
  · next a b rest => exact List.suffix_append [a, b] rest
  · trivial

theorem leavesSuffix_payload2 (k : F64 → F64 → Instr) : LeavesSuffix ws (payload2 k ws) := by
  unfold payload2
  split
  · next a b c d rest => exact List.suffix_append [a, b, c, d] rest
  · trivial

theorem leavesSuffix_payload3 (k : F64 → F64 → F64 → Instr) : LeavesSuffix ws (payload3 k ws) := by
  unfold payload3
  split
  · next a b c d e f rest => exact List.suffix_append [a, b, c, d, e, f] rest
  · trivial

theorem leavesSuffix_payload4 (k : F64 → F64 → F64 → F64 → Instr) : LeavesSuffix ws (payload4 k ws) := by
  unfold payload4
  split
  · next a b c d e f g h rest => exact List.suffix_append [a, b, c, d, e, f, g, h] rest
  · trivial

theorem leavesSuffix_payloadBlock (nin nout : BitVec 4) (nev : Nat) :
    LeavesSuffix ws (payloadBlock nin nout nev ws) := by
  unfold payloadBlock
  split
  · trivial
  · next n ws =>
    split
    · trivial
    · next events afterEvents hevents =>
      split
      · trivial
      · next samples rest hsamples =>
        obtain ⟨-, rfl⟩ := takeEvents_eq_some.mp hevents
        obtain ⟨-, rfl⟩ := takeSamples_eq_some.mp hsamples
        exact ((List.suffix_append _ rest).trans (List.suffix_append _ _)).trans (List.suffix_cons n _)

theorem leavesSuffix_decodeHeader (h : Word) (rest : List Word) : LeavesSuffix rest (decodeHeader h rest) := by
  have hblock := leavesSuffix_payloadBlock rest
  have hillegal : LeavesSuffix rest (.illegal .unknownOpcode rest) := List.suffix_rfl
  have hcommand := leavesSuffix_command rest
  have h1 := leavesSuffix_payload1 rest
  have h2 := leavesSuffix_payload2 rest
  have h3 := leavesSuffix_payload3 rest
  have h4 := leavesSuffix_payload4 rest
  unfold decodeHeader
  split
  case h_5 => exact hblock _ _ _
  case h_24 => exact hillegal
  all_goals
    apply leavesSuffix_ifZero
    simp only [hcommand, h1, h2, h3, h4]

theorem leavesSuffix_decode : LeavesSuffix ws (decode ws) := by
  cases ws with
  | nil => trivial
  | cons h rest => exact (leavesSuffix_decodeHeader h rest).cons h

end Consumption

/-! ## The response of a command -/

section Answer

/-- The two port streams are the same. -/
structure PortsKept (s t : State) : Prop where
  cmd  : t.cmd = s.cmd
  resp : t.resp = s.resp

theorem setActive_keeps_ports (c : Cfg) (active : Bool) (s : State) : PortsKept s (setActive c active s) := by
  rcases setActive_cases c active s with ⟨-, -, h⟩ | ⟨-, -, h⟩ | ⟨-, h⟩ <;> rw [h] <;> exact ⟨rfl, rfl⟩

/-- A command touches the ports in one way only: its response comes last (R51, R201). -/
theorem exec_eq_respond {i : Instr} {s t : State} (h : exec i s = .next t) :
    ∃ u results, t = u.respond results ∧ PortsKept s u := by
  cases i with
  | setact active => cases h; exact ⟨_, _, rfl, setActive_keeps_ports _ active s⟩
  | pset pid v => cases h; exact ⟨_, _, rfl, s.setParam_cmd _ v, s.setParam_resp _ v⟩
  | block nin nout n events samples =>
    cases h
    have hkept := block_keeps Config.cfg nin nout n events samples s
    exact ⟨_, _, rfl, hkept.cmd, hkept.resp⟩
  | rd | smStep | efStep | arStep | bqStep => cases h; exact ⟨_, _, rfl, s.drew_cmd _ _, s.drew_resp _ _⟩
  | setup | pget | smCfg | smRst | efCfg | efRst | arCfg | arRst | bqLsh | bqHsh | bqPk | bqHpf | bqLpf | bqRst | sat =>
    cases h; exact ⟨_, _, rfl, rfl, rfl⟩

/-- A command takes no words besides those the decoder took, and its response follows every earlier one. -/
theorem exec_ports {i : Instr} {s t : State} (h : exec i s = .next t) :
    t.cmd = s.cmd ∧ ∃ results, t.resp = s.resp ++ statusOk :: results := by
  obtain ⟨u, results, rfl, hkept⟩ := exec_eq_respond h
  exact ⟨hkept.cmd, results, by rw [State.respond_resp, hkept.resp]⟩

end Answer

/-- Settles O10, by what the decoder makes of the words that have arrived. -/
theorem streamsAdvanceInOrder : Obligations.StreamsAdvanceInOrder := by
  intro s t h
  have hleaves := leavesSuffix_decode s.cmd
  unfold step at h
  cases hd : decode s.cmd with
  | command i rest =>
    rw [hd] at h hleaves
    obtain ⟨used, hused⟩ := hleaves
    obtain ⟨hcmd, results, hresp⟩ := exec_ports h
    exact ⟨⟨used, by rw [hcmd]; exact hused.symm⟩, _, hresp⟩
  | illegal why rest =>
    rw [hd] at h hleaves
    obtain ⟨used, hused⟩ := hleaves
    cases h
    exact ⟨⟨used, hused.symm⟩, _, s.rejectHeader_resp rest⟩
  | incomplete =>
    rw [hd] at h
    cases h
    exact ⟨⟨[], rfl⟩, [], (List.append_nil _).symm⟩

/-! ## The register map, range by range -/

section RegisterMap

variable (s : State)

theorem readReg_control {a : Nat} (h : a < 0x100) : readReg s a = readControl s a := if_pos h

theorem readReg_left {a : Nat} (hlo : 0x100 ≤ a) (hhi : a < 0x180) :
    readReg s a = readWindow s s.bq.left (a - 0x100) := by
  rw [readReg, if_neg hlo.not_gt, if_pos hhi]

theorem readReg_right {a : Nat} (hlo : 0x180 ≤ a) (hhi : a < 0x200) :
    readReg s a = readWindow s s.bq.right (a - 0x180) := by
  rw [readReg, if_neg (by omega), if_neg hlo.not_gt, if_pos hhi]

theorem readReg_prim {a : Nat} (h : 0x200 ≤ a) : readReg s a = readPrim s a := by
  rw [readReg, if_neg (by omega), if_neg (by omega), if_neg h.not_gt]

/-! Where nothing is listed. -/

theorem readControl_unlisted {a : Nat} (h : (0x00B ≤ a ∧ a < 0x010) ∨ (0x019 ≤ a ∧ a < 0x020) ∨ a = 0x026 ∨
    a = 0x027 ∨ (0x02C ≤ a ∧ a < 0x030) ∨ 0x035 ≤ a) : readControl s a = .known 0#64 := by
  unfold readControl
  split
  case h_36 => rfl
  all_goals omega

theorem readPrim_unlisted {a : Nat} (h : a < 0x200 ∨ (0x202 ≤ a ∧ a < 0x208) ∨ (0x20A ≤ a ∧ a < 0x210) ∨
    (0x213 ≤ a ∧ a < 0x218) ∨ 0x21F ≤ a) : readPrim s a = .known 0#64 := by
  unfold readPrim
  split
  case h_15 => rfl
  all_goals omega

/-- There are ten slots. -/
theorem Bank.slot_eq_none (b : Bank) {k : Nat} (h : 10 ≤ k) : b.slot k = none := by
  unfold Bank.slot
  split
  case h_11 => rfl
  all_goals omega

theorem readWindow_unlisted (b : Bank) {offset : Nat} (h : 0x50 ≤ offset) :
    readWindow s b offset = .known 0#64 := by
  rw [readWindow, b.slot_eq_none (by omega)]

/-! Where a biquad stands: slot and field are quotient and remainder of the offset. -/

theorem readWindow_slot {b : Bank} {k r : Nat} {q : Biquad} (hq : b.slot k = some q) (hr : r < 8) :
    readWindow s b (8 * k + r) = readBiquad q (s.slotWritten k) s.written.running r := by
  have hdiv : (8 * k + r) / 8 = k := by omega
  have hmod : (8 * k + r) % 8 = r := by omega
  rw [readWindow, hdiv, hmod, hq]

theorem readReg_left_slot {k r : Nat} {q : Biquad} (hk : k < 10) (hr : r < 8) (hq : s.bq.left.slot k = some q) :
    readReg s (0x0100 + 8 * k + r) = readBiquad q (s.slotWritten k) s.written.running r := by
  rw [readReg_left s (by omega) (by omega), Nat.add_assoc, Nat.add_sub_cancel_left, readWindow_slot s hq hr]

theorem readReg_right_slot {k r : Nat} {q : Biquad} (hk : k < 10) (hr : r < 8) (hq : s.bq.right.slot k = some q) :
    readReg s (0x0100 + 0x80 + 8 * k + r) = readBiquad q (s.slotWritten k) s.written.running r := by
  rw [readReg_right s (by omega) (by omega), Nat.add_assoc, Nat.add_sub_cancel_left, readWindow_slot s hq hr]

theorem readReg_prim_biquad {r : Nat} (hr : r < 7) :
    readReg s (0x0218 + r) = readBiquad s.prim.bq s.written.bqC s.written.bqZ r := by
  rw [readReg_prim s (by omega)]
  interval_cases r <;> rfl

/-! The forms of a value that is no float: two flags, and an index. -/

theorem flagPair_toNat (hi lo : Bool) :
    (flagPair (flagBit hi) (flagBit lo)).toNat = (if lo = true then 1 else 0) + (if hi = true then 2 else 0) := by
  cases hi <;> cases lo <;> rfl

theorem State.flags_toNat :
    s.flags.toNat = (if s.mode = .active then 1 else 0) + (if s.cfgValid = true then 2 else 0) := by
  unfold State.flags
  cases s.mode
  · exact flagPair_toNat s.cfgValid false
  · exact flagPair_toNat s.cfgValid true

theorem midIdxBits_fin (i : Fin 5) : midIdxBits i.val = BitVec.ofNat 64 i.val := by
  rw [midIdxBits, if_pos (by omega), Int.toNat_natCast]

theorem readReg_midIdx (h : s.written.tone = true) : readReg s 0x0033 = .known (midIdxBits s.toneTag.midIdx) :=
  (readReg_control s (by decide)).trans (if_pos h)

theorem readReg_toggles (h : s.written.tone = true) :
    readReg s 0x0034 = .known (flagPair (flagBit s.toneTag.ultraHi) (flagBit s.toneTag.ultraLo)) :=
  (readReg_control s (by decide)).trans (if_pos h)

theorem readReg_tag_unwritten (h : s.written.tone = false) :
    readReg s 0x0033 = .anyIndex ∧ readReg s 0x0034 = .anyBits := by
  have hne : ¬ s.written.tone = true := by simp [h]
  exact ⟨(readReg_control s (by decide)).trans (if_neg hne), (readReg_control s (by decide)).trans (if_neg hne)⟩

theorem readReg_param (p : Fin 9) : readReg s (0x0002 + p.val) = .known s.param[p].bits := by
  fin_cases p <;> rfl

theorem readReg_unlisted {a : Nat} (h : (0x00B ≤ a ∧ a < 0x010) ∨ (0x019 ≤ a ∧ a < 0x020) ∨ a = 0x026 ∨ a = 0x027 ∨
    (0x02C ≤ a ∧ a < 0x030) ∨ (0x035 ≤ a ∧ a < 0x100) ∨ (0x150 ≤ a ∧ a < 0x180) ∨ (0x1D0 ≤ a ∧ a < 0x200) ∨
    (0x202 ≤ a ∧ a < 0x208) ∨ (0x20A ≤ a ∧ a < 0x210) ∨ (0x213 ≤ a ∧ a < 0x218) ∨ 0x21F ≤ a) :
    readReg s a = .known 0#64 := by
  by_cases hcontrol : a < 0x100
  · rw [readReg_control s hcontrol, readControl_unlisted s (by omega)]
  by_cases hleft : a < 0x180
  · rw [readReg_left s (by omega) hleft, readWindow_unlisted s _ (by omega)]
  by_cases hright : a < 0x200
  · rw [readReg_right s (by omega) hright, readWindow_unlisted s _ (by omega)]
  · rw [readReg_prim s (by omega), readPrim_unlisted s (by omega)]

end RegisterMap

/-- Settles O35, clause by clause in the order of the map. -/
theorem registerMapReadsEveryAddress : Obligations.RegisterMapReadsEveryAddress := by
  intro s reg field w
  have hfield : ∀ q coeffs states r, readBiquad q coeffs states r = field q coeffs states r := fun _ _ _ _ => rfl
  refine ⟨⟨s.flags, rfl, s.flags_toNat⟩, readReg_param s, List.map_inj_left.mp rfl, fun htone => ⟨?_, ?_⟩,
    readReg_tag_unwritten s, ?_, ?_, fun a => readReg_unlisted s⟩
  · intro i hi
    rw [readReg_midIdx s htone, hi, midIdxBits_fin]
  · exact ⟨_, readReg_toggles s htone, flagPair_toNat _ _⟩
  · intro r hr
    rw [readReg_prim_biquad s hr, hfield]
  · intro k hk r hr
    exact ⟨fun q hq => (readReg_left_slot s hk hr hq).trans (hfield _ _ _ _),
      fun q hq => (readReg_right_slot s hk hr hq).trans (hfield _ _ _ _)⟩

end Sys2Proof.Machine

namespace Sys2Proof

/-! # The encoding of commands (30_encoding.md)

The decoder gives back what the encoder wrote (`decodeOfEncode`). The converse statements stand on one case split over
the header, `decodeHeader_reads`: what the decoder can make of a header and the words after it. -/

/-! ## Operands in stream order (R57, R75) -/

section Payloads

@[simp] theorem operandWords_nil : operandWords [] = [] := rfl
@[simp] theorem operandWords_cons (x : F64) (xs : List F64) :
    operandWords (x :: xs) = loWord x.bits :: hiWord x.bits :: operandWords xs := rfl

variable (rest : List Word)

theorem payload1_operandWords (k : F64 → Instr) (x : F64) :
    payload1 k (operandWords [x] ++ rest) = .command (k x) rest := by
  simp [payload1]

theorem payload2_operandWords (k : F64 → F64 → Instr) (x y : F64) :
    payload2 k (operandWords [x, y] ++ rest) = .command (k x y) rest := by
  simp [payload2]

theorem payload3_operandWords (k : F64 → F64 → F64 → Instr) (x y z : F64) :
    payload3 k (operandWords [x, y, z] ++ rest) = .command (k x y z) rest := by
  simp [payload3]

theorem payload4_operandWords (k : F64 → F64 → F64 → F64 → Instr) (x y z u : F64) :
    payload4 k (operandWords [x, y, z, u] ++ rest) = .command (k x y z u) rest := by
  simp [payload4]

/-- The payload of BLOCK (R73), read back from the event records and the samples it was written from. -/
theorem payloadBlock_words (nin nout : BitVec 4) (n : Word) (events : List Event) (samples : List F32)
    (hsamples : samples.length = nin.toNat * frameCount n) :
    payloadBlock nin nout events.length (n :: (events.flatMap Event.words ++ samples.map F32.bits) ++ rest) =
      .command (.block nin nout n events samples) rest := by
  have he : takeEvents events.length (events.flatMap Event.words ++ (samples.map F32.bits ++ rest)) =
      some (events, samples.map F32.bits ++ rest) := takeEvents_eq_some.mpr ⟨rfl, rfl⟩
  have hs : takeSamples (nin.toNat * frameCount n) (samples.map F32.bits ++ rest) = some (samples, rest) :=
    takeSamples_eq_some.mpr ⟨hsamples, rfl⟩
  simp only [payloadBlock, List.cons_append, List.append_assoc, he, hs]

end Payloads

/-! ## Decoding what was encoded -/

/-- Settles O1, constructor by constructor: the header selects the payload reader, which reads back the operands. -/
theorem decodeOfEncode : Obligations.DecodeOfEncode := by
  intro i rest hwf
  cases i with
  | setup | smRst | smStep | efStep | arStep | bqStep => exact payload1_operandWords rest _ _
  | smCfg | efCfg | sat => exact payload2_operandWords rest _ _ _
  | arCfg | bqHpf | bqLpf => exact payload3_operandWords rest _ _ _ _
  | bqLsh | bqHsh | bqPk => exact payload4_operandWords rest _ _ _ _ _
  | efRst | arRst | bqRst => rfl
  | setact active => cases active <;> rfl
  | pset pid value =>
    simpa [encode, decode, decodeHeader, ifZero] using payload1_operandWords rest (.pset pid) value
  | pget | rd => simp [encode, decode, decodeHeader, ifZero]
  | block nin nout n events samples =>
    simp only [Instr.WellFormed, Instr.wellFormed, blockWellFormed, Bool.and_eq_true, decide_eq_true_eq] at hwf
    obtain ⟨hevents, hsamples⟩ := hwf
    have hnev : (BitVec.ofNat 16 events.length).toNat = events.length := by
      rw [BitVec.toNat_ofNat, Nat.mod_eq_of_lt hevents]
    simpa [encode, decode, decodeHeader, hnev] using payloadBlock_words rest nin nout n events samples hsamples

/-! ## Which headers are legal (R77) -/

section Legality

/-- The opcodes that stand in neither table of R71 and R72. -/
@[reducible] def UnknownOpcode (op : Nat) : Prop :=
  op = 0x00 ∨ (0x07 ≤ op ∧ op ≤ 0x0F) ∨ op = 0x13 ∨ op = 0x17 ∨ (0x1B ≤ op ∧ op ≤ 0x1F) ∨ op = 0x27 ∨ 0x29 ≤ op

/-- A field that the tables show as 0 for the opcode is nonzero. -/
def ReservedSet (op : Nat) (a : BitVec 8) (b : BitVec 16) : Prop :=
  if op = 0x05 then False
  else if op = 0x06 then a ≠ 0#8
  else if op = 0x03 ∨ op = 0x04 then b ≠ 0#16
  else if op = 0x02 then a ≠ 0#8 ∨ 2 ≤ b.toNat
  else a ≠ 0#8 ∨ b ≠ 0#16

/-- Some row of the opcode table covers the header. -/
def Covered (h : Word) : Prop := ∃ r ∈ opcodeRows, r.covers h = true

/-- The bits of `B` above the lowest are zero exactly for 0 and 1. -/
theorem upperBits_eq_zero_iff (b : BitVec 16) : b.extractLsb' 1 15 = 0#15 ↔ b.toNat < 2 := by
  rw [← BitVec.toNat_inj, BitVec.extractLsb'_toNat, BitVec.toNat_ofNat]
  omega

/-- The mask of SETACT's row looks at the bits of `B` above the lowest. -/
theorem le_one_of_masked {b : BitVec 16} (h : b &&& 0xFFFE#16 = 0#16) : b.toNat ≤ 1 := by
  have hbits := congrArg (BitVec.extractLsb' 1 15) h
  rw [BitVec.extractLsb'_and, show (0xFFFE#16).extractLsb' 1 15 = BitVec.allOnes 15 by decide,
    BitVec.and_allOnes] at hbits
  exact Nat.le_of_lt_succ ((upperBits_eq_zero_iff b).mp hbits)

/-- Every row fixes its whole opcode, which is a known one. -/
theorem row_opcode : ∀ r ∈ opcodeRows,
    opField r.mask = BitVec.allOnes 8 ∧ ¬ UnknownOpcode (opField r.pattern).toNat := by decide

/-- Every row fixes the fields that its opcode asks to be zero. -/
theorem row_reserved : ∀ r ∈ opcodeRows, ∀ a b,
    a &&& aField r.mask = aField r.pattern → b &&& bField r.mask = bField r.pattern →
      ¬ ReservedSet (opField r.pattern).toNat a b := by
  have ha (a : BitVec 8) : a &&& 0xFF#8 = a := BitVec.and_allOnes
  have hb (b : BitVec 16) : b &&& 0xFFFF#16 = b := BitVec.and_allOnes
  simp +contextual [opcodeRows, ReservedSet, opField, aField, bField, ha, hb, le_one_of_masked]

/-- A header that a row covers is legal. -/
theorem legal_of_covered {h : Word} (hc : Covered h) :
    ¬ UnknownOpcode (opField h).toNat ∧ ¬ ReservedSet (opField h).toNat (aField h) (bField h) := by
  obtain ⟨r, hr, hc⟩ := hc
  rw [← header_fields h, Row.covers_header, decide_eq_true_iff] at hc
  obtain ⟨hop, ha, hb⟩ := hc
  obtain ⟨hmask, hknown⟩ := row_opcode r hr
  rw [hmask, BitVec.and_allOnes] at hop
  rw [hop]
  exact ⟨hknown, row_reserved r hr _ _ ha hb⟩

end Legality

/-! ## What the decoder makes of a header and the words after it -/

section Reading

/-- What a payload reader makes of the words after the header `h`: a command whose words are those that have arrived, or
too few of the `len` words that the command needs. -/
inductive ReadsPayload (h : Word) (len : Nat) (ws : List Word) : Decoded → Prop
  | command {i : Instr} {rest : List Word} (hlen : len ≤ ws.length) (hwf : i.WellFormed)
      (hws : h :: ws = encode i ++ rest) : ReadsPayload h len ws (.command i rest)
  | incomplete (hlt : ws.length < len) : ReadsPayload h len ws .incomplete

/-- What the decoder makes of the header `h`, in the order in which R206 makes the checks. -/
inductive ReadsHeader (h : Word) (ws : List Word) : Decoded → Prop
  | unknown (hop : UnknownOpcode (opField h).toNat) : ReadsHeader h ws (.illegal .unknownOpcode ws)
  | reserved (hop : ¬ UnknownOpcode (opField h).toNat) (hres : ReservedSet (opField h).toNat (aField h) (bField h)) :
      ReadsHeader h ws (.illegal .nonzeroReserved ws)
  | legal {d : Decoded} (hc : Covered h) (hd : ReadsPayload h (payloadLength h (ws.headD 0#32)) ws d) :
      ReadsHeader h ws d

/-! Each payload reader takes the words of its operands, two for each, or waits for them. -/

section Payloads

variable {h : Word} (ws : List Word)

theorem readsPayload0 {i : Instr} (hi : i.WellFormed ∧ encode i = h :: operandWords []) :
    ReadsPayload h 0 ws (.command i ws) :=
  .command (Nat.zero_le _) hi.1 (by simp [hi])

theorem readsPayload1 {k : F64 → Instr}
    (hk : ∀ x, (k x).WellFormed ∧ encode (k x) = h :: operandWords [x]) : ReadsPayload h 2 ws (payload1 k ws) := by
  match ws with
  | [] | [_] => exact .incomplete (by simp)
  | a :: b :: rest => exact .command (by simp) (hk _).1 (by simp [hk])

theorem readsPayload2 {k : F64 → F64 → Instr}
    (hk : ∀ x y, (k x y).WellFormed ∧ encode (k x y) = h :: operandWords [x, y]) :
    ReadsPayload h 4 ws (payload2 k ws) := by
  match ws with
  | [] | [_] | [_, _] | [_, _, _] => exact .incomplete (by simp)
  | a :: b :: c :: d :: rest => exact .command (by simp) (hk _ _).1 (by simp [hk])

theorem readsPayload3 {k : F64 → F64 → F64 → Instr}
    (hk : ∀ x y z, (k x y z).WellFormed ∧ encode (k x y z) = h :: operandWords [x, y, z]) :
    ReadsPayload h 6 ws (payload3 k ws) := by
  match ws with
  | [] | [_] | [_, _] | [_, _, _] | [_, _, _, _] | [_, _, _, _, _] => exact .incomplete (by simp)
  | a :: b :: c :: d :: e :: f :: rest => exact .command (by simp) (hk _ _ _).1 (by simp [hk])

theorem readsPayload4 {k : F64 → F64 → F64 → F64 → Instr}
    (hk : ∀ x y z u, (k x y z u).WellFormed ∧ encode (k x y z u) = h :: operandWords [x, y, z, u]) :
    ReadsPayload h 8 ws (payload4 k ws) := by
  match ws with
  | [] | [_] | [_, _] | [_, _, _] | [_, _, _, _] | [_, _, _, _, _] | [_, _, _, _, _, _] | [_, _, _, _, _, _, _] =>
    exact .incomplete (by simp)
  | a :: b :: c :: d :: e :: f :: g :: l :: rest => exact .command (by simp) (hk _ _ _ _).1 (by simp [hk])

theorem readsPayloadBlock (nin nout : BitVec 4) (b : BitVec 16) :
    ReadsPayload (header 0x05#8 (nin ++ nout) b) (1 + 3 * b.toNat + nin.toNat * frameCount (ws.headD 0#32)) ws
      (payloadBlock nin nout b.toNat ws) := by
  unfold payloadBlock
  split
  · exact .incomplete (by simp)
  · next n ws =>
    split
    · next hnone =>
      rw [takeEvents_eq_none] at hnone
      exact .incomplete (by simp; omega)
    · next events afterEvents hevents =>
      obtain ⟨hnev, rfl⟩ := takeEvents_eq_some.mp hevents
      split
      · next hnone =>
        rw [takeSamples_eq_none] at hnone
        exact .incomplete (by simp [hnev]; omega)
      · next samples rest hsamples =>
        obtain ⟨hcount, rfl⟩ := takeSamples_eq_some.mp hsamples
        refine .command (by simp [hnev, hcount]; omega) ?_ (by simp [encode, hnev])
        simp only [Instr.WellFormed, Instr.wellFormed, blockWellFormed, Bool.and_eq_true, decide_eq_true_eq]
        exact ⟨hnev ▸ b.isLt, hcount⟩

end Payloads

/-! From payload readers to headers: the row that covers a header, and the test of its must-be-zero fields. -/

theorem find_row_pset (pid : BitVec 8) :
    opcodeRows.find? (fun r => r.covers (header 0x03#8 pid 0#16)) = some ⟨"PSET", 0x03000000, 0xFF00FFFF, 2⟩ := by
  simp [opcodeRows, Row.covers_header, opField, aField, bField]

theorem find_row_pget (pid : BitVec 8) :
    opcodeRows.find? (fun r => r.covers (header 0x04#8 pid 0#16)) = some ⟨"PGET", 0x04000000, 0xFF00FFFF, 0⟩ := by
  simp [opcodeRows, Row.covers_header, opField, aField, bField]

theorem find_row_block (a : BitVec 8) (b : BitVec 16) :
    opcodeRows.find? (fun r => r.covers (header 0x05#8 a b)) = some ⟨"BLOCK", 0x05000000, 0xFF000000, 1⟩ := by
  simp [opcodeRows, Row.covers_header, opField, aField, bField]

theorem find_row_rd (addr : BitVec 16) :
    opcodeRows.find? (fun r => r.covers (header 0x06#8 0#8 addr)) = some ⟨"RD", 0x06000000, 0xFFFF0000, 0⟩ := by
  simp [opcodeRows, Row.covers_header, opField, aField, bField]

variable {h : Word} {ws : List Word} {d : Decoded}

theorem opField_of_toNat {op : Nat} (hop : (opField h).toNat = op) : opField h = BitVec.ofNat 8 op := by
  rw [← hop, BitVec.ofNat_toNat, BitVec.setWidth_eq]

theorem eq_header_of_opcode {op : Nat} (hop : (opField h).toNat = op) :
    h = header (BitVec.ofNat 8 op) (aField h) (bField h) := by
  rw [← opField_of_toNat hop, header_fields]

theorem covered_of_find {r : Row} (hr : opcodeRows.find? (fun r => r.covers h) = some r) : Covered h :=
  ⟨r, List.mem_of_find?_eq_some hr, List.find?_some (p := fun r : Row => r.covers h) hr⟩

/-- The row that covers a header other than BLOCK's gives the number of payload words. -/
theorem readsHeader_of_find {r : Row} (hr : opcodeRows.find? (fun r => r.covers h) = some r)
    (hb : (opField h).toNat ≠ 0x05) (hd : ReadsPayload h r.payload ws d) : ReadsHeader h ws d :=
  .legal (covered_of_find hr) (by rwa [payloadLength_of_find hr (mt (congrArg BitVec.toNat) hb)])

/-- A header of a known opcode whose must-be-zero fields are tested, from the case in which they are zero. -/
theorem readsHeader_ifZero (hknown : ¬ UnknownOpcode (opField h).toNat) {zero : Bool}
    (hzero : zero = false → ReservedSet (opField h).toNat (aField h) (bField h))
    (hd : zero = true → ReadsHeader h ws d) : ReadsHeader h ws (ifZero zero ws d) := by
  cases zero with
  | false => exact .reserved hknown (hzero rfl)
  | true => exact hd rfl

/-- A header whose fields `A` and `B` must both be zero: SETUP's, and those of format U (R72). -/
theorem readsHeader_formatU {op : Nat} (hop : (opField h).toNat = op) (hu : op = 0x01 ∨ 0x10 ≤ op) {r : Row}
    (hr : opcodeRows.find? (fun r => r.covers (header (BitVec.ofNat 8 op) 0#8 0#16)) = some r)
    (hd : ReadsPayload (header (BitVec.ofNat 8 op) 0#8 0#16) r.payload ws d) :
    ReadsHeader h ws (ifZero (decide (aField h = 0#8) && decide (bField h = 0#16)) ws d) := by
  have hknown := (legal_of_covered (covered_of_find hr)).1
  rw [opField_header, ← opField_of_toNat hop] at hknown
  refine readsHeader_ifZero hknown (fun hz => ?_) fun hz => ?_
  · rw [hop, ReservedSet, if_neg (by omega), if_neg (by omega), if_neg (by omega), if_neg (by omega)]
    rw [← Bool.decide_and, decide_eq_false_iff_not, not_and_or] at hz
    exact hz
  · rw [Bool.and_eq_true, decide_eq_true_iff, decide_eq_true_iff] at hz
    obtain ⟨ha, hb⟩ := hz
    have hh := eq_header_of_opcode hop
    rw [ha, hb] at hh
    rw [← hh] at hr hd
    exact readsHeader_of_find hr (by omega) hd

/-- SETACT's `active` is the lowest bit of `B`; `A` and the bits above that one must be zero (R71). -/
theorem readsHeader_setact (hop : (opField h).toNat = 0x02) :
    ReadsHeader h ws (ifZero (decide (aField h = 0#8) && decide ((bField h).extractLsb' 1 15 = 0#15)) ws
      (.command (.setact ((bField h).getLsbD 0)) ws)) := by
  refine readsHeader_ifZero (by rw [hop]; decide) (fun hz => ?_) fun hz => ?_
  · rw [← Bool.decide_and, decide_eq_false_iff_not, upperBits_eq_zero_iff, not_and_or, Nat.not_lt] at hz
    rw [hop]
    exact hz
  · rw [Bool.and_eq_true, decide_eq_true_iff, decide_eq_true_iff, upperBits_eq_zero_iff] at hz
    obtain ⟨ha, hb⟩ := hz
    have hh := eq_header_of_opcode hop
    have hbit : bField h = 0#16 ∨ bField h = 1#16 := by bv_omega
    rw [ha] at hh
    rcases hbit with hb | hb <;> rw [hb] at hh <;> subst hh <;>
      exact readsHeader_of_find rfl (by decide) (readsPayload0 ws ⟨rfl, rfl⟩)

/-- A header with a parameter id in `A` (R71), whose field `B` must be zero. -/
theorem readsHeader_pid {op : Nat} (hop : (opField h).toNat = op) (hp : op = 0x03 ∨ op = 0x04) {r : Row}
    (hr : opcodeRows.find? (fun r => r.covers (header (BitVec.ofNat 8 op) (aField h) 0#16)) = some r)
    (hd : ReadsPayload (header (BitVec.ofNat 8 op) (aField h) 0#16) r.payload ws d) :
    ReadsHeader h ws (ifZero (decide (bField h = 0#16)) ws d) := by
  have hh := eq_header_of_opcode hop
  refine readsHeader_ifZero ?_ (fun hz => ?_) fun hz => ?_
  · rw [hop]
    rcases hp with rfl | rfl <;> decide
  · rw [hop]
    rcases hp with rfl | rfl <;> simpa [ReservedSet] using hz
  · rw [of_decide_eq_true hz] at hh
    rw [← hh] at hr hd
    exact readsHeader_of_find hr (by omega) hd

/-- RD's address is the whole field `B`; `A` must be zero (R71). -/
theorem readsHeader_rd (hop : (opField h).toNat = 0x06) :
    ReadsHeader h ws (ifZero (decide (aField h = 0#8)) ws (.command (.rd (bField h)) ws)) := by
  refine readsHeader_ifZero (by rw [hop]; decide) (fun hz => ?_) fun hz => ?_
  · rw [hop]
    simpa [ReservedSet] using hz
  · have hh := eq_header_of_opcode hop
    rw [of_decide_eq_true hz] at hh
    generalize bField h = addr at hh ⊢
    subst hh
    exact readsHeader_of_find (find_row_rd addr) (by omega) (readsPayload0 ws ⟨rfl, rfl⟩)

/-- BLOCK's header has no must-be-zero field (R73). -/
theorem readsHeader_block (hop : (opField h).toNat = 0x05) :
    ReadsHeader h ws (payloadBlock (ninField h) (noutField h) (bField h).toNat ws) := by
  have hh := eq_header_of_opcode hop
  rw [← nin_append_nout] at hh
  generalize ninField h = nin, noutField h = nout, bField h = b at hh ⊢
  subst hh
  refine .legal (covered_of_find (find_row_block _ b)) ?_
  rw [payloadLength_block]
  exact readsPayloadBlock ws nin nout b

/-- Every branch of the decoder answers in one of the ways of `ReadsHeader`. -/
theorem decodeHeader_reads (h : Word) (ws : List Word) : ReadsHeader h ws (decodeHeader h ws) := by
  unfold decodeHeader
  split
  case h_2 hop => exact readsHeader_setact hop
  case h_3 hop => exact readsHeader_pid hop (.inl rfl) (find_row_pset _) (readsPayload1 ws fun _ => ⟨rfl, rfl⟩)
  case h_4 hop => exact readsHeader_pid hop (.inr rfl) (find_row_pget _) (readsPayload0 ws ⟨rfl, rfl⟩)
  case h_5 hop => exact readsHeader_block hop
  case h_6 hop => exact readsHeader_rd hop
  case h_11 hop | h_14 hop | h_21 hop =>
    exact readsHeader_formatU hop (by decide) rfl (readsPayload0 ws ⟨rfl, rfl⟩)
  case h_1 hop | h_8 hop | h_9 hop | h_12 hop | h_15 hop | h_22 hop =>
    exact readsHeader_formatU hop (by decide) rfl (readsPayload1 ws fun _ => ⟨rfl, rfl⟩)
  case h_7 hop | h_10 hop | h_23 hop =>
    exact readsHeader_formatU hop (by decide) rfl (readsPayload2 ws fun _ _ => ⟨rfl, rfl⟩)
  case h_13 hop | h_19 hop | h_20 hop =>
    exact readsHeader_formatU hop (by decide) rfl (readsPayload3 ws fun _ _ _ => ⟨rfl, rfl⟩)
  case h_16 hop | h_17 hop | h_18 hop =>
    exact readsHeader_formatU hop (by decide) rfl (readsPayload4 ws fun _ _ _ _ => ⟨rfl, rfl⟩)
  case h_24 =>
    refine .unknown ?_
    simp only [imp_false] at *
    unfold UnknownOpcode
    omega

end Reading

/-! ## What follows for the decoder -/

/-- Settles O2: a payload reader that answers a command has read the command's words. -/
theorem encodeOfDecode : Obligations.EncodeOfDecode := by
  intro ws rest i hdecode
  cases ws with
  | nil => cases hdecode
  | cons h ws =>
    have hreads := decodeHeader_reads h ws
    rw [show decodeHeader h ws = .command i rest from hdecode] at hreads
    cases hreads with
    | legal hc hd => cases hd with
      | command hlen hwf hws => exact ⟨hwf, hws⟩

/-- The two checks exclude each other, and a header that a row covers passes both. -/
theorem ReadsHeader.illegal_iff {h : Word} {ws : List Word} {d : Decoded} (hreads : ReadsHeader h ws d) :
    (d = .illegal .unknownOpcode ws ↔ UnknownOpcode (opField h).toNat) ∧
    (d = .illegal .nonzeroReserved ws ↔
      ¬ UnknownOpcode (opField h).toNat ∧ ReservedSet (opField h).toNat (aField h) (bField h)) ∧
    (∀ why ws', d = .illegal why ws' → ws' = ws) := by
  cases hreads with
  | unknown hop => simp [hop]
  | reserved hop hres => simp [hop, hres]
  | legal hc hd =>
    obtain ⟨hop, hres⟩ := legal_of_covered hc
    cases hd <;> simp [hop, hres]

/-- Settles O4: the checks of the decoder in the order of R206. -/
theorem illegalHeadersAreTheReservedOnes : Obligations.IllegalHeadersAreTheReservedOnes :=
  fun h rest => (decodeHeader_reads h rest).illegal_iff

/-- A header that no row covers is illegal, and a payload reader that has all its words answers a command. -/
theorem ReadsHeader.incomplete_iff {h : Word} {ws : List Word} {d : Decoded} (hreads : ReadsHeader h ws d) :
    d = .incomplete ↔ Covered h ∧ ws.length < payloadLength h (ws.headD 0#32) := by
  cases hreads with
  | unknown hop => simpa using fun hc => absurd hop (legal_of_covered hc).1
  | reserved hop hres => simpa using fun hc => absurd hres (legal_of_covered hc).2
  | legal hc hd =>
    cases hd with
    | command hlen => simpa using fun _ => hlen
    | incomplete hlt => exact ⟨fun _ => ⟨hc, hlt⟩, fun _ => rfl⟩

/-- Settles O5: what the decoder waits for, header by header. -/
theorem waitsExactlyForMissingWords : Obligations.WaitsExactlyForMissingWords :=
  fun h rest => (decodeHeader_reads h rest).incomplete_iff

/-- Settles O3: the words of each example are the encoder's. -/
theorem workedWordsDecode : Obligations.WorkedWordsDecode := by
  have decodes {ws : List Word} (i : Instr) (hwf : i.WellFormed) (hws : encode i = ws) :
      decode ws = .command i [] := by
    simpa [hws] using decodeOfEncode i [] hwf
  exact ⟨decodes _ rfl rfl, decodes _ rfl rfl, decodes _ rfl rfl, decodes _ rfl rfl, decodes _ rfl rfl,
    decodes _ rfl rfl, decodes _ rfl rfl, decodes _ rfl rfl⟩

/-! ## The assembler's `PSETI` (R80) -/

section Pseti

/-- An exact number that is a value rounds to itself. -/
theorem RoundsTo.val_eq {r y : F64} {v : ℚ} (h : RoundsTo r v) (hr : r.isFinite = true) (hy : y.isFinite = true)
    (hv : y.val = v) : r.val = v := by
  unfold RoundsTo at h
  split_ifs at h with hsmall hneg
  · have hnear := (h.2 y hy).1
    rw [hv, sub_self, abs_zero, abs_nonpos_iff, sub_eq_zero] at hnear
    exact hnear
  all_goals
    rw [h] at hr
    exact absurd hr (by decide)

/-- Small multiples of 1/4 are binary64 values. -/
theorem F64.round_quarters {m : ℕ} (hm : m < 2 ^ 53) :
    (F64.round false m (-2)).isFinite = true ∧ (F64.round false m (-2)).val = (m : ℚ) / 4 := by
  obtain ⟨hfin, hval⟩ := F64.round_exact false hm (e := -2) (by decide) (by decide)
  refine ⟨hfin, Rat.cast_injective (α := ℝ) ?_⟩
  rw [hval]
  norm_num [signFactor, div_eq_mul_inv]

/-- The operand of `PSETI` is a normalized value. -/
theorem quarter_inUnit : ∀ idx : Fin 5, (quarter idx).InUnit := by
  unfold F64.InUnit
  decide +kernel

end Pseti

/-- Settles O60: five quarters of the index are exact, and their floor is the index (for 4, its bound). -/
theorem psetiSelectsMidIndex : Obligations.PsetiSelectsMidIndex := by
  intro idx
  obtain ⟨hfin, hval⟩ : (quarter idx).isFinite = true ∧ (quarter idx).val = (idx.val : ℚ) / 4 :=
    F64.round_quarters (by omega)
  obtain ⟨hfin5, hval5⟩ := F64.round_quarters (m := 5 * idx.val) (by omega)
  obtain ⟨hlit, hprod, hmid, -, -⟩ := midIndexOfNormalizedValue (quarter idx) (quarter_inUnit idx)
  have hexact : ((F64.lit 5).mul (quarter idx)).val = (F64.lit 5).val * (quarter idx).val := by
    refine (F64.roundsTo_mul F64.lit_five.1 hfin).val_eq hprod hfin5 ?_
    rw [hval5, hlit, hval]
    push_cast
    ring
  refine ⟨rfl, hfin, hval, ?_⟩
  have hquot : (5 : ℚ) * (idx.val / 4) = ((5 * idx.val : ℕ) : ℤ) / (4 : ℕ) := by push_cast; ring
  rw [hmid, hexact, hlit, hval, hquot, Rat.floor_intCast_div_natCast]
  omega

end Sys2Proof

namespace Sys2Proof.Machine

/-! ## Illegal headers and the primitive bank at the step -/

/-- Settles O7: the branch of `step` for an illegal header. -/
theorem illegalHeaderOnlyAnswersIllegal : Obligations.IllegalHeaderOnlyAnswersIllegal := by
  intro s why rest hdecode
  simp only [step, hdecode, State.rejectHeader_eq]

/-- A controller command never writes the primitive bank (30_encoding.md R71). -/
theorem exec_controller_keeps_prim {i : Instr} {s t : State} (hi : i.isUnit = false) (h : exec i s = .next t) :
    t.prim = s.prim := by
  cases i with
  | setup | pget => cases h; rfl
  | setact active =>
    cases h
    rcases setActive_cases Config.cfg active s with ⟨-, -, ha⟩ | ⟨-, -, ha⟩ | ⟨-, ha⟩ <;> rw [ha] <;> rfl
  | pset pid v => cases h; exact s.setParam_prim pid.toNat v
  | block nin nout n events samples => cases h; exact (block_keeps Config.cfg nin nout n events samples s).prim
  | rd addr => cases h; exact s.drew_prim _ _
  | _ => cases hi

/-- Settles O18: a unit command keeps the chain, a controller command the bank. -/
theorem bankAndChainAreSeparate : Obligations.BankAndChainAreSeparate := by
  intro i s t h
  refine ⟨fun hi => ?_, fun hi => exec_controller_keeps_prim hi h⟩
  obtain ⟨u, hu, hkept⟩ := exec_unit_keeps_chain i s hi
  cases hu.symm.trans h
  exact ⟨hkept.rest, hkept.tone, hkept.running, hkept.block⟩

end Sys2Proof.Machine

namespace Sys2Proof

/-! # The smoothing primitives (40_smoothing.md)

Rounding and comparison follow the exact values, and infinities keep their sign, so that a coefficient made by `decay` stays
in [0, 1] (R90) and an envelope stays nonnegative (R96); the unit commands follow from the definitions of their steps. -/

/-! ## Order -/

section Order
variable {x y : F64}

theorem F64.zero_le_iff (v : F64) : F64.zero.le v = true ↔ v.isNaN = false ∧ 0 ≤ v.key := by
  rw [F64.le_iff]; exact and_iff_right (by decide)

/-- A number without a sign is not below zero. -/
theorem F64.zero_le_of_sign (hn : x.isNaN = false) (hs : x.sign = false) : F64.zero.le x = true := by
  simp [F64.zero_le_iff, hn, F64.key, hs]

/-- A number above zero is a nonzero number without a sign. -/
theorem F64.nonzero_unsigned_of_pos (h : F64.zero.lt x = true) :
    x.isNaN = false ∧ x.isZero = false ∧ x.sign = false := by
  obtain ⟨hn, hkey⟩ := (F64.zero_lt_iff x).mp h
  have h0 : x.isZero = false := by
    by_contra hz
    have hmag : x.mag = 0 := by simpa [F64.isZero] using hz
    simp [F64.key, hmag] at hkey
  exact ⟨hn, h0, F64.sign_of_zero_le ((F64.zero_le_iff x).mpr ⟨hn, hkey.le⟩) h0⟩

theorem F64.key_neg (x : F64) : x.neg.key = -x.key := by
  cases hs : x.sign <;> simp [F64.key, hs]

/-- The places on the integer line are in the order of the values. -/
theorem F64.key_le_iff_val_le (x y : F64) : x.key ≤ y.key ↔ x.val ≤ y.val := by
  have hmono : ∀ {j k : ℕ}, magVal 52 (-1074) j ≤ magVal 52 (-1074) k ↔ j ≤ k := magVal_strictMono.le_iff_le
  have hzero : ∀ {k : ℕ}, magVal 52 (-1074) k ≤ 0 ↔ k ≤ 0 := fun {k} => by rw [← hmono, magVal_zero]
  have hx := magVal_nonneg (P := 52) (qmin := -1074) x.mag
  have hy := magVal_nonneg (P := 52) (qmin := -1074) y.mag
  rw [← Rat.cast_le (K := ℝ), x.val_eq, y.val_eq, F64.key, F64.key]
  cases x.sign <;> cases y.sign <;> simp only [signFactor, Bool.false_eq_true, if_true, if_false, one_mul, neg_mul]
  · rw [hmono, Nat.cast_le]
  · constructor
    · intro h
      obtain ⟨hx0, hy0⟩ : x.mag = 0 ∧ y.mag = 0 := by omega
      simp [hx0, hy0]
    · intro h
      have := hzero.mp (by linarith : magVal 52 (-1074) x.mag ≤ 0)
      have := hzero.mp (by linarith : magVal 52 (-1074) y.mag ≤ 0)
      omega
  · exact iff_of_true (by omega) (by linarith)
  · rw [neg_le_neg_iff, neg_le_neg_iff, hmono, Nat.cast_le]

theorem F64.le_iff_val_le (hx : x.isFinite = true) (hy : y.isFinite = true) : x.le y = true ↔ x.val ≤ y.val := by
  rw [F64.le_iff, F64.key_le_iff_val_le, and_iff_right (x.isFinite_iff.mp hx).1, and_iff_right (y.isFinite_iff.mp hy).1]

theorem F64.zero_le_iff_val (hx : x.isFinite = true) : F64.zero.le x = true ↔ 0 ≤ x.val := by
  rw [F64.le_iff_val_le (by decide) hx, F64.val_zero]

/-- `max(a, b)` of numbers is one of them, and not below `a`. -/
theorem F64.max_cases {a b : F64} (ha : a.isNaN = false) (hb : b.isNaN = false) :
    (a.max b = a ∨ a.max b = b) ∧ a.le (a.max b) = true := by
  unfold F64.max
  split_ifs with h
  · exact ⟨.inl rfl, (F64.le_iff a a).mpr ⟨ha, ha, le_rfl⟩⟩
  · exact ⟨.inr rfl, (F64.le_iff a b).mpr ⟨ha, hb, not_lt.mp fun hlt => h ((F64.lt_iff b a).mpr ⟨hb, ha, hlt⟩)⟩⟩

/-! ## The absolute value -/

theorem F64.mag_lt (x : F64) : x.mag < 2 ^ 63 := Nat.mod_lt _ (by positivity)

theorem F64.abs_eq_pack (x : F64) : x.abs = F64.pack false x.mag := by
  apply F64.ext_bits
  apply BitVec.eq_of_toNat_eq
  rw [F64.pack_toNat _ _ x.mag_lt, F64.abs, BitVec.toNat_and,
    show (0x7FFFFFFFFFFFFFFF#64).toNat = 2 ^ 63 - 1 from rfl, Nat.and_two_pow_sub_one_eq_mod]
  rfl

@[simp] theorem F64.mag_abs (x : F64) : x.abs.mag = x.mag := by
  rw [F64.abs_eq_pack, F64.mag_pack _ _ x.mag_lt]

@[simp] theorem F64.sign_abs (x : F64) : x.abs.sign = false := by
  rw [F64.abs_eq_pack, F64.sign_pack _ _ x.mag_lt]

@[simp] theorem F64.isFinite_abs (x : F64) : x.abs.isFinite = x.isFinite := by
  simp only [F64.isFinite, F64.mag_abs]

end Order

/-! ## Signs and bounds of rounded results -/

section RoundedResults
variable {x y : F64} {v : ℚ}

/-- A number rounded from an exact one that is not below a value is not below it. -/
theorem NearestEven.le_val (h : NearestEven x v) (hy : y.isFinite = true) (hv : y.val ≤ v) : y.val ≤ x.val := by
  have hnear := (h y hy).1
  rw [abs_of_nonpos (by linarith : y.val - v ≤ 0)] at hnear
  linarith [(abs_le.mp hnear).1]

/-- Rounding an exact number that is not negative keeps the values not above it below the result, an infinity
included. -/
theorem RoundsTo.le_of_val_le (h : RoundsTo x v) (hy : y.isFinite = true) (hyv : y.val ≤ v) (hv : 0 ≤ v) :
    y.le x = true := by
  unfold RoundsTo at h
  split_ifs at h with hsmall hneg
  · exact (F64.le_iff_val_le hy h.1).mpr (h.2.le_val hy hyv)
  · exact absurd hneg hv.not_gt
  · have hfin : y.mag < F64.infMag := by simpa [F64.isFinite] using hy
    have hinf : F64.posInf.key = F64.infMag := by decide
    rw [h, F64.le_iff, hinf, F64.key]
    exact ⟨(y.isFinite_iff.mp hy).1, by decide, by split_ifs <;> omega⟩

theorem RoundsTo.zero_le (h : RoundsTo x v) (hv : 0 ≤ v) : F64.zero.le x = true :=
  h.le_of_val_le (by decide) (by rwa [F64.val_zero]) hv

/-- An exact number from the least positive value, of magnitude 1, on does not underflow to zero. -/
theorem RoundsTo.zero_lt (h : RoundsTo x v) (hv : (2 : ℚ) ^ (-1074 : ℤ) ≤ v) : F64.zero.lt x = true := by
  have hleast : (F64.mk 1#64).val = 2 ^ (-1074 : ℤ) := by
    rw [F64.val, show (F64.mk 1#64).sign = false by decide, show (F64.mk 1#64).mant = 1 by decide,
      show (F64.mk 1#64).expo = -1074 by decide]
    simp only [Bool.false_eq_true, if_false, Nat.cast_one, one_mul]
  have hle := h.le_of_val_le (by decide) (hleast.trans_le hv) ((zpow_pos two_pos _).le.trans hv)
  obtain ⟨-, hn, hkey⟩ := (F64.le_iff _ _).mp hle
  exact (F64.zero_lt_iff x).mpr ⟨hn, lt_of_lt_of_le (by decide) hkey⟩

/-- Numbers up to 1 are far from overflow. -/
theorem RoundsTo.isFinite_of_le_one (h : RoundsTo x v) (hv : |v| ≤ 1) : x.isFinite = true := by
  have hsmall : |v| < 2 ^ 1024 - 2 ^ 970 := by
    have hone : (1 : ℚ) ≤ 2 ^ 970 := one_le_pow₀ one_le_two
    rw [show (2 : ℚ) ^ 1024 = 2 ^ 54 * 2 ^ 970 by rw [← pow_add]]
    generalize (2 : ℚ) ^ 970 = u at hone
    linarith
  rw [RoundsTo, if_pos hsmall] at h
  exact h.1

/-- A product of nonzero numbers, infinities included, has the sign of R9. -/
theorem F64.mul_sign (hx : x.isNaN = false) (hy : y.isNaN = false) (hx0 : x.isZero = false) (hy0 : y.isZero = false) :
    (x.mul y).isNaN = false ∧ (x.mul y).sign = (x.sign != y.sign) := by
  simp only [F64.mul, hx, hy, hx0, hy0, Bool.and_false, Bool.false_and, Bool.or_false, Bool.false_eq_true, if_false]
  split_ifs
  · exact ⟨by cases x.sign <;> cases y.sign <;> decide, (F64.pack_infMag _).2⟩
  · exact ⟨F64.isNaN_round _ _ _, F64.sign_round _ _ _⟩

/-- A finite nonzero number over any number, zeros and infinities included, has the sign of R9. -/
theorem F64.div_sign (hx : x.isFinite = true) (hx0 : x.isZero = false) (hy : y.isNaN = false) :
    (x.div y).isNaN = false ∧ (x.div y).sign = (x.sign != y.sign) := by
  obtain ⟨hxn, hxi⟩ := x.isFinite_iff.mp hx
  simp only [F64.div, hxn, hxi, hx0, hy, Bool.false_and, Bool.or_false, Bool.false_or, Bool.false_eq_true, if_false]
  split_ifs
  · exact ⟨by cases x.sign <;> cases y.sign <;> decide, (F64.pack_infMag _).2⟩
  · exact ⟨by cases x.sign <;> cases y.sign <;> decide, F64.sign_pack _ _ (by decide)⟩
  all_goals exact ⟨F64.isNaN_round _ _ _, F64.sign_round _ _ _⟩

/-- An infinite sum of numbers not below zero is an infinite operand, for there are no opposite infinities. -/
theorem F64.zero_le_add (hx : F64.zero.le x = true) (hy : F64.zero.le y = true) : F64.zero.le (x.add y) = true := by
  have hxn := ((F64.zero_le_iff x).mp hx).1
  have hyn := ((F64.zero_le_iff y).mp hy).1
  have hpos {z : F64} (hz : F64.zero.le z = true) (hi : z.isInf = true) : z.sign = false := by
    refine F64.sign_of_zero_le hz ?_
    simp only [F64.isInf, decide_eq_true_eq] at hi
    simp [F64.isZero, hi, F64.infMag]
  cases hxi : x.isInf
  · cases hyi : y.isInf
    · have hxf := x.isFinite_iff.mpr ⟨hxn, hxi⟩
      have hyf := y.isFinite_iff.mpr ⟨hyn, hyi⟩
      rw [F64.add_of_finite hxf hyf]
      exact (F64.roundsTo_addFinite x y).zero_le
        (add_nonneg ((F64.zero_le_iff_val hxf).mp hx) ((F64.zero_le_iff_val hyf).mp hy))
    · rwa [show x.add y = y by simp [F64.add, F64.addNumber, hxn, hyn, hxi, hyi]]
  · rwa [show x.add y = x by
      cases hyi : y.isInf
      · simp [F64.add, F64.addNumber, hxn, hyn, hxi, hyi]
      · simp [F64.add, F64.addNumber, hxn, hyn, hxi, hyi, hpos hx hxi, hpos hy hyi]]

theorem F64.zero_le_mul (hx : x.isFinite = true) (hy : y.isFinite = true) (hx0 : F64.zero.le x = true)
    (hy0 : F64.zero.le y = true) : F64.zero.le (x.mul y) = true :=
  (F64.roundsTo_mul hx hy).zero_le
    (mul_nonneg ((F64.zero_le_iff_val hx).mp hx0) ((F64.zero_le_iff_val hy).mp hy0))

/-- `1 - a` for a coefficient `a` in [0, 1]. -/
theorem F64.one_sub_of_inUnit (h : x.InUnit) :
    (F64.one.sub x).isFinite = true ∧ F64.zero.le (F64.one.sub x) = true := by
  obtain ⟨hfin, hlo, hhi⟩ := F64.val_of_inUnit h
  have hround : RoundsTo (F64.one.sub x) (1 - x.val) := by
    rw [F64.sub_of_finite (by decide) hfin, sub_eq_add_neg, ← x.val_neg, ← F64.val_one]
    exact F64.roundsTo_addFinite _ _
  exact ⟨hround.isFinite_of_le_one (abs_le.mpr ⟨by linarith, by linarith⟩), hround.zero_le (by linarith)⟩

/-- An integer literal of 53 bits is exact. -/
theorem F64.lit_natCast {n : ℕ} (hn : n < 2 ^ 53) : (F64.lit n).isFinite = true ∧ (F64.lit n).val = n := by
  obtain ⟨hfin, hval⟩ := F64.round_exact false hn (e := 0) (by decide) (by decide)
  have hlit : F64.lit n = F64.round false n 0 := by
    rw [F64.lit, decide_eq_false (Int.natCast_nonneg n).not_gt, Int.natAbs_natCast]
  rw [hlit]
  refine ⟨hfin, ?_⟩
  rw [zpow_zero, mul_one, signFactor, if_neg Bool.false_ne_true, one_mul] at hval
  exact_mod_cast hval

end RoundedResults

end Sys2Proof

namespace Sys2Proof.Machine

/-! ## The decay coefficient (R90) -/

section Decay

/-- P-exp on the opposite of a number not below zero, an infinity included. -/
theorem exp_neg_inUnit {num : Numerics} (hnum : num.Lawful) {x : F64} (hx : F64.zero.le x = true) :
    (num.exp x.neg).InUnit := by
  obtain ⟨hn, hkey⟩ := (F64.zero_le_iff x).mp hx
  cases hi : x.isInf
  · refine hnum.exp_range x.neg (by rw [F64.isFinite_neg]; exact x.isFinite_iff.mpr ⟨hn, hi⟩) ?_
    rw [F64.le_iff, F64.isNaN_neg, F64.key_neg, show F64.zero.key = 0 from rfl]
    exact ⟨hn, by decide, by omega⟩
  · have hmag : x.mag = F64.infMag := by simpa [F64.isInf] using hi
    have hs : x.sign = false := F64.sign_of_zero_le hx (by simp [F64.isZero, hmag, F64.infMag])
    have hneg : x.neg = .negInf :=
      F64.ext_sign_mag (by rw [F64.sign_neg, hs]; decide) (by rw [F64.mag_neg, hmag]; decide)
    obtain ⟨hexp, -, hzero⟩ := (F64.eq_iff _ _).mp hnum.exp_negInf
    rw [hneg, F64.inUnit_iff, hzero]
    exact ⟨hexp, by decide, by decide⟩

/-- 2^-10, a power of two below the 0.001 of R90. -/
theorem val_minSmootherMs_ge : (1 : ℚ) / 2 ^ 10 ≤ minSmootherMs.val := by
  norm_num [F64.val, show minSmootherMs.sign = false by decide, show minSmootherMs.mant = 0x10624DD2F1A9FC by decide,
    show minSmootherMs.expo = -62 by decide]

/-- The time that R90 divides is finite and not below 2^-10. -/
theorem max_minSmootherMs {ms : F64} (hms : ms.isFinite = true) :
    (minSmootherMs.max ms).isFinite = true ∧ (1 : ℚ) / 2 ^ 10 ≤ (minSmootherMs.max ms).val := by
  have hmin : minSmootherMs.isFinite = true := by decide
  obtain ⟨hcases, hle⟩ := F64.max_cases (minSmootherMs.isFinite_iff.mp hmin).1 (ms.isFinite_iff.mp hms).1
  have hfin : (minSmootherMs.max ms).isFinite = true := by rcases hcases with h | h <;> rwa [h]
  exact ⟨hfin, val_minSmootherMs_ge.trans ((F64.le_iff_val_le hmin hfin).mp hle)⟩

/-- `tau = max(0.001, ms) / 1000.0` does not underflow. -/
theorem tau_pos {ms : F64} (hms : ms.isFinite = true) :
    F64.zero.lt ((minSmootherMs.max ms).div (.lit 1000)) = true := by
  obtain ⟨hfin, hmax⟩ := max_minSmootherMs hms
  obtain ⟨hfin1000, hval1000⟩ : (F64.lit 1000).isFinite = true ∧ (F64.lit 1000).val = 1000 :=
    F64.lit_natCast (n := 1000) (by decide)
  refine (F64.roundsTo_div hfin hfin1000 (by decide +kernel)).zero_lt ?_
  rw [hval1000]
  calc (2 : ℚ) ^ (-1074 : ℤ) ≤ 2 ^ (-20 : ℤ) := zpow_le_zpow_right₀ one_le_two (by decide)
    _ ≤ 1 / 2 ^ 10 / 1000 := by norm_num
    _ ≤ (minSmootherMs.max ms).val / 1000 := by gcongr

end Decay

/-- Settles O37: `tau` and the rate are above zero, so that the exponent is a number and not above zero, whatever the
product and the quotient round to. -/
theorem decayLiesInUnitInterval : Obligations.DecayLiesInUnitInterval := by
  intro num ms sr hnum hms hsr
  obtain ⟨htn, ht0, hts⟩ := F64.nonzero_unsigned_of_pos (tau_pos hms)
  obtain ⟨hsn, hs0, hss⟩ := F64.nonzero_unsigned_of_pos hsr
  obtain ⟨hpn, hps⟩ := F64.mul_sign htn hsn ht0 hs0
  obtain ⟨hqn, hqs⟩ := F64.div_sign (x := .one) (by decide) (by decide) hpn
  rw [hps, hts, hss] at hqs
  exact exp_neg_inUnit hnum (F64.zero_le_of_sign hqn hqs)

/-- Settles O41: both products are numbers not below zero, so their sum is one. -/
theorem followerStaysNonnegative : Obligations.FollowerStaysNonnegative := by
  intro a env x ha henv henv0 hx
  have hafin : a.isFinite = true := (F64.val_of_inUnit ha).1
  have hxabs : x.abs.isFinite = true := by rwa [F64.isFinite_abs]
  have hxabs0 : F64.zero.le x.abs = true :=
    F64.zero_le_of_sign (x.abs.isFinite_iff.mp hxabs).1 x.sign_abs
  obtain ⟨hbfin, hb0⟩ := F64.one_sub_of_inUnit ha
  exact F64.zero_le_add (F64.zero_le_mul hafin henv ha.1 henv0) (F64.zero_le_mul hbfin hxabs hb0 hxabs0)

/-! ## The unit commands (R91 to R99) -/

section UnitCommands
variable (s : State) (x : F64)

/-- A register that has been written reads as it stands. -/
theorem readOrDraw_of_known {known : Bool} (h : known = true) (v : F64) (d : Nat) : readOrDraw known v d = v := by
  rw [h, readOrDraw_true]

theorem drew_draws (known : Bool) (k : Nat) : s.drew known k = { s with draws := (s.drew known k).draws } := by
  rw [State.drew_eq]

/-- Where both groups of registers that a step reads have been written, it takes no draw. -/
theorem drew_draws_of_known {p q : Bool} (hp : p = true) (hq : q = true) (k : Nat) :
    (s.drew (p && q) k).draws = s.draws := by
  rw [hp, hq]; rfl

/-- SM.STEP, whole: the new value is stored and answered, low word first. -/
theorem exec_smStep :
    let y := smStep s.readSm.a s.readSm.y x
    exec (.smStep x) s = .next { s with
      prim.sm.y := y, written.smY := true, draws := (s.drew (s.written.smA && s.written.smY) 2).draws
      resp := s.resp ++ [0x00000000#32, y.bits.extractLsb' 0 32, y.bits.extractLsb' 32 32] } := by
  simp only [exec, execSmStep]
  rw [drew_draws]
  rfl

/-- EF.STEP, whole. -/
theorem exec_efStep :
    let env := efStep s.readEf.a s.readEf.env x
    exec (.efStep x) s = .next { s with
      prim.ef.env := env, written.efEnv := true, draws := (s.drew (s.written.efA && s.written.efEnv) 2).draws
      resp := s.resp ++ [0x00000000#32, env.bits.extractLsb' 0 32, env.bits.extractLsb' 32 32] } := by
  simp only [exec, execEfStep]
  rw [drew_draws]
  rfl

/-- AR.STEP, whole. -/
theorem exec_arStep :
    let env := arStep s.readAr x
    exec (.arStep x) s = .next { s with
      prim.ar.env := env, written.arEnv := true, draws := (s.drew (s.written.arA && s.written.arEnv) 3).draws
      resp := s.resp ++ [0x00000000#32, env.bits.extractLsb' 0 32, env.bits.extractLsb' 32 32] } := by
  simp only [exec, execArStep]
  rw [drew_draws]
  rfl

end UnitCommands

/-- Settles O38: SM.STEP is the ordinary function of what `readSm` reads. -/
theorem smootherCommands : Obligations.SmootherCommands := by
  intro ms sr v x s
  refine ⟨rfl, rfl, s.readSm.a, s.readSm.y, (s.drew (s.written.smA && s.written.smY) 2).draws, ?_, ?_, ?_, ?_⟩
  · exact fun ha => readOrDraw_of_known ha _ _
  · exact fun hy => readOrDraw_of_known hy _ _
  · exact fun ha hy => drew_draws_of_known s ha hy 2
  · exact exec_smStep s x

/-- Settles O39: EF.STEP is the ordinary function of what `readEf` reads. -/
theorem followerCommands : Obligations.FollowerCommands := by
  intro ms sr x s
  refine ⟨rfl, rfl, s.readEf.a, s.readEf.env, (s.drew (s.written.efA && s.written.efEnv) 2).draws, ?_, ?_, ?_, ?_⟩
  · exact fun ha => readOrDraw_of_known ha _ _
  · exact fun he => readOrDraw_of_known he _ _
  · exact fun ha he => drew_draws_of_known s ha he 2
  · exact exec_efStep s x

/-- Settles O40: AR.STEP is the ordinary function of what `readAr` reads. -/
theorem attackReleaseCommands : Obligations.AttackReleaseCommands := by
  intro attackMs releaseMs sr x s
  refine ⟨rfl, rfl, s.readAr.aAtt, s.readAr.aRel, s.readAr.env,
    (s.drew (s.written.arA && s.written.arEnv) 3).draws, ?_, ?_, ?_, ?_⟩
  · exact fun ha => ⟨readOrDraw_of_known ha _ _, readOrDraw_of_known ha _ _⟩
  · exact fun he => readOrDraw_of_known he _ _
  · exact fun ha he => drew_draws_of_known s ha he 3
  · exact exec_arStep s x

end Sys2Proof.Machine

namespace Sys2Proof

/-! # The biquad (41_biquad.md)

An operation whose exact result is a binary64 number answers that number, up to the sign of a zero. From this follow
what the designs are at 0 dB (R120) and that an identity-form filter at rest is a bypass (R117). -/

/-! ## Exact results -/

section ExactResults
variable {r x y z : F64}

theorem F64.key_eq_iff_val_eq (x y : F64) : x.key = y.key ↔ x.val = y.val := by
  rw [le_antisymm_iff, le_antisymm_iff, F64.key_le_iff_val_le, F64.key_le_iff_val_le]

theorem F64.val_eq_zero_iff (x : F64) : x.val = 0 ↔ x.isZero = true := by
  rw [x.isZero_iff, ← Rat.cast_eq_zero (α := ℝ), ← abs_eq_zero, x.abs_val,
    ← magVal_zero (P := 52) (qmin := -1074), magVal_strictMono.injective.eq_iff]

theorem F64.eq_of_sign_of_val_eq (hs : x.sign = y.sign) (hv : x.val = y.val) : x = y :=
  F64.ext_sign_mag hs <| magVal_strictMono.injective (by rw [← F64.abs_val, ← F64.abs_val, hv])

/-- A finite number stays below the middle from where R9 overflows. -/
theorem F64.abs_val_lt_overflow (hx : x.isFinite = true) : |x.val| < 2 ^ 1024 - 2 ^ 970 := by
  have hmag : x.mag ≤ F64.infMag - 1 := Nat.le_sub_one_of_lt (by simpa [F64.isFinite] using hx)
  have hle : |(x.val : ℝ)| ≤ magVal 52 (-1074) (F64.infMag - 1) := by
    rw [x.abs_val]; exact magVal_strictMono.monotone hmag
  have hstep : magVal 52 (-1074) (F64.infMag - 1) < magVal 52 (-1074) (F64.infMag - 1 + 1) :=
    magVal_strictMono (Nat.lt_succ_self _)
  have hlt : |(x.val : ℝ)| < 2 ^ 1024 - 2 ^ 970 := by rw [← F64.overflow_middle]; linarith
  exact_mod_cast hlt

/-- An exact number that is a value does not overflow and rounds to itself. -/
theorem RoundsTo.exact (h : RoundsTo r y.val) (hy : y.isFinite = true) : r.isFinite = true ∧ r.val = y.val := by
  have hfin : r.isFinite = true := by
    rw [RoundsTo, if_pos (F64.abs_val_lt_overflow hy)] at h
    exact h.1
  exact ⟨hfin, h.val_eq hfin hy rfl⟩

theorem RoundsTo.isZero (h : RoundsTo r 0) : r.isZero = true := by
  rw [← F64.val_zero] at h
  rw [← F64.val_eq_zero_iff, (h.exact (by decide)).2, F64.val_zero]

/-- A value that is not zero has one representation. -/
theorem RoundsTo.eq_of_nonzero (h : RoundsTo r y.val) (hy : y.isFinite = true) (h0 : y.isZero = false) : r = y :=
  (F64.eq_of_key_eq ((F64.key_eq_iff_val_eq y r).mpr (h.exact hy).2.symm) h0).symm

theorem RoundsTo.eq_of_sign (h : RoundsTo r y.val) (hy : y.isFinite = true) (hs : r.sign = y.sign) : r = y :=
  F64.eq_of_sign_of_val_eq hs (h.exact hy).2

theorem F64.roundsTo_add (hx : x.isFinite = true) (hy : y.isFinite = true) : RoundsTo (x.add y) (x.val + y.val) :=
  (arithmeticRoundsToNearestEven x y hx hy).1

theorem F64.roundsTo_sub (hx : x.isFinite = true) (hy : y.isFinite = true) : RoundsTo (x.sub y) (x.val - y.val) :=
  (arithmeticRoundsToNearestEven x y hx hy).2.1

theorem F64.isFinite_or_isInf (h : x.isNaN = false) : x.isFinite = true ∨ x.isInf = true := by
  rw [x.isFinite_iff, h]; cases x.isInf <;> simp

end ExactResults

/-! ## Neutral operands, zeros and signs -/

section Neutral
variable {x y : F64}

/-- A product of finite numbers whose exact value and sign are those of a number is that number. -/
theorem F64.mul_eq_of_val {z : F64} (hx : x.isFinite = true) (hy : y.isFinite = true) (hz : z.isFinite = true)
    (hv : x.val * y.val = z.val) (hs : (x.sign != y.sign) = z.sign) : x.mul y = z := by
  refine RoundsTo.eq_of_sign (hv ▸ F64.roundsTo_mul hx hy) hz ?_
  rw [F64.mul_of_finite hx hy, F64.sign_round, hs]

theorem F64.mul_one_of_finite (hx : x.isFinite = true) : x.mul .one = x :=
  F64.mul_eq_of_val hx (by decide) hx (by rw [F64.val_one, mul_one])
    (by rw [show F64.one.sign = false by decide, Bool.bne_false])

/-- 1 is neutral for infinities too, but not for a NaN, whose payload is free. -/
theorem F64.one_mul_of_number (hx : x.isNaN = false) : F64.one.mul x = x := by
  obtain ⟨hn1, hi1, h01, hs1⟩ :
      F64.one.isNaN = false ∧ F64.one.isInf = false ∧ F64.one.isZero = false ∧ F64.one.sign = false := by decide
  rcases F64.isFinite_or_isInf hx with hfin | hinf
  · exact F64.mul_eq_of_val (by decide) hfin hfin (by rw [F64.val_one, one_mul]) (by rw [hs1, Bool.false_bne])
  · have hmag : x.mag = F64.infMag := by simpa [F64.isInf] using hinf
    have hmul : F64.one.mul x = F64.pack x.sign x.mag := by simp [F64.mul, hn1, hi1, h01, hs1, hx, hinf, hmag]
    rw [hmul, x.pack_sign_mag]

theorem F64.div_one_of_finite (hx : x.isFinite = true) : x.div .one = x := by
  have hround := F64.roundsTo_div hx (y := .one) (by decide) (by decide)
  rw [F64.val_one, div_one] at hround
  refine hround.eq_of_sign hx ?_
  rw [F64.div_of_finite hx (by decide) (by decide), F64.sign_round, show F64.one.sign = false by decide, Bool.bne_false]

theorem F64.div_self_of_nonzero (hx : x.isFinite = true) (h0 : x.isZero = false) : x.div x = .one := by
  have hval : x.val ≠ 0 := fun h => by simp [x.val_eq_zero_iff.mp h] at h0
  have hround := F64.roundsTo_div hx hx h0
  rw [div_self hval, ← F64.val_one] at hround
  exact hround.eq_of_nonzero (by decide) (by decide)

/-- Either zero is neutral beside a finite number that is not zero. -/
theorem F64.add_of_isZero (hx : x.isFinite = true) (h0 : x.isZero = false) (hy : y.isZero = true) : x.add y = x := by
  have hround := F64.roundsTo_add hx (F64.isFinite_of_isZero hy)
  rw [y.val_eq_zero_iff.mpr hy, add_zero] at hround
  exact hround.eq_of_nonzero hx h0

theorem F64.sub_of_isZero (hx : x.isFinite = true) (h0 : x.isZero = false) (hy : y.isZero = true) : x.sub y = x := by
  have hround := F64.roundsTo_sub hx (F64.isFinite_of_isZero hy)
  rw [y.val_eq_zero_iff.mpr hy, sub_zero] at hround
  exact hround.eq_of_nonzero hx h0

theorem F64.zero_add_of_nonzero (hx : x.isNaN = false) (h0 : x.isZero = false) : F64.zero.add x = x := by
  rcases F64.isFinite_or_isInf hx with hfin | hinf
  · have hround := F64.roundsTo_add (x := .zero) (by decide) hfin
    rw [F64.val_zero, zero_add] at hround
    exact hround.eq_of_nonzero hfin h0
  · have hzero : F64.zero.isNaN = false ∧ F64.zero.isInf = false := by decide
    simp [F64.add, F64.addNumber, hzero, hx, hinf]

/-- A number less a number is the sum with its opposite; the NaNs alone may differ in their payload. -/
theorem F64.sub_eq_add_neg (hx : x.isFinite = true) (hy : y.isNaN = false) : x.sub y = x.add y.neg := by
  obtain ⟨hxn, hxi⟩ := x.isFinite_iff.mp hx
  cases hyi : y.isInf <;> simp [F64.sub, F64.add, F64.addNumber, hxn, hxi, hy, hyi]

@[simp] theorem F64.isZero_neg (x : F64) : x.neg.isZero = x.isZero := by simp only [F64.isZero, F64.mag_neg]

theorem F64.zero_sub_of_nonzero (hx : x.isNaN = false) (h0 : x.isZero = false) : F64.zero.sub x = x.neg := by
  rw [F64.sub_eq_add_neg (by decide) hx, F64.zero_add_of_nonzero (by rwa [F64.isNaN_neg]) (by rwa [F64.isZero_neg])]

/-- A finite number less a number is a number: infinities do not meet. -/
theorem F64.isNaN_sub_of_finite (hx : x.isFinite = true) (hy : y.isNaN = false) : (x.sub y).isNaN = false := by
  obtain ⟨hxn, hxi⟩ := x.isFinite_iff.mp hx
  rcases F64.isFinite_or_isInf hy with hfin | hinf
  · rw [F64.sub_of_finite hx hfin, F64.addFinite]
    split_ifs
    · cases x.sign && y.neg.sign <;> decide
    · exact F64.isNaN_round _ _ _
  · simp [F64.sub, F64.addNumber, hxn, hxi, hy, hinf]

theorem F64.val_two : F64.two.val = 2 := by
  rw [show F64.two = F64.lit (2 : ℕ) by decide +kernel, (F64.lit_natCast (n := 2) (by decide)).2, Nat.cast_ofNat]

/-- Doubling does not underflow: zero is farther from the double than the number itself. -/
theorem F64.two_mul_nonzero (hx : x.isFinite = true) (h0 : x.isZero = false) :
    (F64.two.mul x).isNaN = false ∧ (F64.two.mul x).isZero = false := by
  refine ⟨by rw [F64.mul_of_finite (by decide) hx, F64.isNaN_round], ?_⟩
  have hval : x.val ≠ 0 := fun h => by simp [x.val_eq_zero_iff.mp h] at h0
  have hround := F64.roundsTo_mul (x := .two) (by decide) hx
  rw [F64.val_two, RoundsTo] at hround
  split_ifs at hround with hsmall hneg
  · refine Bool.eq_false_iff.mpr fun hz => hval ?_
    have hnear := (hround.2 x hx).1
    rw [(F64.val_eq_zero_iff _).mpr hz, zero_sub, abs_neg, show x.val - 2 * x.val = -x.val by ring, abs_neg, abs_mul,
      abs_two] at hnear
    exact abs_nonpos_iff.mp (by linarith)
  all_goals rw [hround]; decide

/-- A change of sign moves from one factor to the other. -/
theorem F64.mul_neg_eq_neg_mul (hx : x.isFinite = true) (hx0 : x.isZero = false) (hy : y.isNaN = false) :
    x.mul y.neg = x.neg.mul y := by
  obtain ⟨hxn, hxi⟩ := x.isFinite_iff.mp hx
  have hsign : (x.sign != !y.sign) = ((!x.sign) != y.sign) := by cases x.sign <;> cases y.sign <;> rfl
  have hfields (v : F64) : v.neg.mant = v.mant ∧ v.neg.expo = v.expo := by simp [F64.mant, F64.expo]
  simp [F64.mul, hfields, F64.isZero_neg, hxn, hxi, hx0, hy, hsign]

/-- A finite product with a zero factor is a zero. -/
theorem F64.isZero_mul (hx : x.isFinite = true) (hy : y.isFinite = true) (h0 : x.isZero = true ∨ y.isZero = true) :
    (x.mul y).isZero = true := by
  have hround := F64.roundsTo_mul hx hy
  rw [show x.val * y.val = 0 by simpa [F64.val_eq_zero_iff] using h0] at hround
  exact hround.isZero

theorem F64.isZero_add (hx : x.isZero = true) (hy : y.isZero = true) : (x.add y).isZero = true := by
  have hround := F64.roundsTo_add (F64.isFinite_of_isZero hx) (F64.isFinite_of_isZero hy)
  rw [x.val_eq_zero_iff.mpr hx, y.val_eq_zero_iff.mpr hy, add_zero] at hround
  exact hround.isZero

/-- Finite numbers of the same value cancel, two zeros of unlike signs included. -/
theorem F64.isZero_sub (hx : x.isFinite = true) (hy : y.isFinite = true) (h : x.val = y.val) :
    (x.sub y).isZero = true := by
  have hround := F64.roundsTo_sub hx hy
  rw [h, sub_self] at hround
  exact hround.isZero

/-- An infinity or a NaN makes no finite product. -/
theorem F64.isFinite_of_isFinite_mul (h : (x.mul y).isFinite = true) : x.isFinite = true := by
  obtain ⟨hn, hi⟩ := (F64.isFinite_iff _).mp h
  refine x.isFinite_iff.mpr ⟨?_, ?_⟩
  · by_contra hx
    rw [F64.mul_isNaN_left (by simpa using hx)] at hn
    exact absurd hn (by decide)
  · by_contra hx
    simp only [Bool.not_eq_false] at hx
    rw [F64.mul, hx, Bool.true_or, if_pos rfl] at hn hi
    split_ifs at hn hi
    · simp only [isNaN_nanResult, Bool.true_eq_false] at hn
    · simp only [(F64.pack_infMag _).1, Bool.true_eq_false] at hi

end Neutral

end Sys2Proof

namespace Sys2Proof.Machine

/-! ## The designs at 0 dB (R120) -/

section ZeroDecibel
variable {A0 A1 A2 B0 B1 B2 c alpha : F64}

/-- The exact identity form (R120). -/
def Coeffs.IsIdentity (k : Coeffs) : Prop := k.b0 = .one ∧ k.b1 = k.a1 ∧ k.b2 = k.a2

/-- Normalising equal numerator and denominator coefficients gives the identity form. -/
theorem normalise_isIdentity (h0 : B0 = A0) (h1 : B1 = A1) (h2 : B2 = A2) (hfin : A0.isFinite = true)
    (hz : A0.isZero = false) : (normalise B0 B1 B2 A0 A1 A2).IsIdentity := by
  subst h0 h1 h2
  exact ⟨F64.div_self_of_nonzero hfin hz, rfl, rfl⟩

/-- P-pow0: a gain of 0 dB, of either sign, is the amplitude 1. -/
theorem designA_of_isZero {num : Numerics} (hnum : num.Lawful) {g : F64} (hg : g.isZero = true) :
    designA num g = .one := by
  have hround := F64.roundsTo_div (F64.isFinite_of_isZero hg) (y := .lit 40) (by decide +kernel) (by decide +kernel)
  rw [g.val_eq_zero_iff.mpr hg, zero_div] at hround
  exact hnum.pow_zero _ hround.isZero

/-! The terms of the shelves at amplitude 1, where `A + 1 = 2` and `A - 1 = +0`. -/

theorem amplitudeOne_sums : F64.one.add .one = .two ∧ F64.one.sub .one = .zero := by decide +kernel

theorem shelfTerm_one (alpha : F64) : shelfTerm .one alpha = F64.two.mul alpha := by
  rw [shelfTerm, show F64.two.mul F64.one.sqrt = .two by decide +kernel]

theorem shelfMinus_one (hc : c.isFinite = true) : shelfMinus .one c = .two := by
  rw [shelfMinus, amplitudeOne_sums.1, amplitudeOne_sums.2,
    F64.sub_of_isZero (by decide) (by decide) (F64.isZero_mul (by decide) hc (.inl (by decide)))]

theorem shelfPlus_one (hc : c.isFinite = true) : shelfPlus .one c = .two := by
  rw [shelfPlus, amplitudeOne_sums.1, amplitudeOne_sums.2,
    F64.add_of_isZero (by decide) (by decide) (F64.isZero_mul (by decide) hc (.inl (by decide)))]

theorem shelfMidMinus_one (hc : c.isFinite = true) (hc0 : c.isZero = false) :
    shelfMidMinus .one c = (F64.two.mul c).neg := by
  obtain ⟨hn, h0⟩ := F64.two_mul_nonzero hc hc0
  rw [shelfMidMinus, amplitudeOne_sums.1, amplitudeOne_sums.2, F64.zero_sub_of_nonzero hn h0]

theorem shelfMidPlus_one (hc : c.isFinite = true) (hc0 : c.isZero = false) :
    shelfMidPlus .one c = F64.two.mul c := by
  obtain ⟨hn, h0⟩ := F64.two_mul_nonzero hc hc0
  rw [shelfMidPlus, amplitudeOne_sums.1, amplitudeOne_sums.2, F64.zero_add_of_nonzero hn h0]

/-- The shelves multiply one mid term by 2 and the opposite one by -2. -/
theorem two_mul_shelfMidMinus_one (hc : c.isFinite = true) (hc0 : c.isZero = false) :
    F64.two.mul (shelfMidMinus .one c) = (F64.lit (-2)).mul (shelfMidPlus .one c) := by
  rw [shelfMidMinus_one hc hc0, shelfMidPlus_one hc hc0,
    F64.mul_neg_eq_neg_mul (by decide) (by decide) (F64.two_mul_nonzero hc hc0).1,
    show F64.lit (-2) = F64.two.neg by decide +kernel]

/-- The difference that both shelves take for their last coefficient is a number, so that 1 is neutral beside it. -/
theorem one_mul_two_sub (halpha : alpha.isFinite = true) :
    F64.one.mul (F64.two.sub (F64.two.mul alpha)) = F64.two.sub (F64.two.mul alpha) := by
  refine F64.one_mul_of_number (F64.isNaN_sub_of_finite (by decide) ?_)
  rw [F64.mul_of_finite (by decide) halpha, F64.isNaN_round]

theorem shelfLow_one_isIdentity (hc : c.isFinite = true) (hc0 : c.isZero = false) (halpha : alpha.isFinite = true)
    (hfin : (F64.two.add (F64.two.mul alpha)).isFinite = true)
    (h0 : (F64.two.add (F64.two.mul alpha)).isZero = false) : (shelfLow .one c alpha).IsIdentity := by
  have hdouble : F64.two.mul .one = .two := F64.mul_one_of_finite (by decide)
  simp only [shelfLow, shelfTerm_one, shelfMinus_one hc, shelfPlus_one hc, hdouble]
  exact normalise_isIdentity (F64.one_mul_of_number ((F64.isFinite_iff _).mp hfin).1)
    (two_mul_shelfMidMinus_one hc hc0) (one_mul_two_sub halpha) hfin h0

theorem shelfHigh_one_isIdentity (hc : c.isFinite = true) (hc0 : c.isZero = false) (halpha : alpha.isFinite = true)
    (hfin : (F64.two.add (F64.two.mul alpha)).isFinite = true)
    (h0 : (F64.two.add (F64.two.mul alpha)).isZero = false) : (shelfHigh .one c alpha).IsIdentity := by
  have hdouble : (F64.lit (-2)).mul .one = .lit (-2) := F64.mul_one_of_finite (by decide +kernel)
  simp only [shelfHigh, shelfTerm_one, shelfMinus_one hc, shelfPlus_one hc, hdouble]
  exact normalise_isIdentity (F64.one_mul_of_number ((F64.isFinite_iff _).mp hfin).1)
    (two_mul_shelfMidMinus_one hc hc0).symm (one_mul_two_sub halpha) hfin h0

/-- The peaking shape needs nothing of the cosine, which stands alike in numerator and denominator. -/
theorem peaking_one_isIdentity (c : F64) (halpha : alpha.isFinite = true) (hfin : (F64.one.add alpha).isFinite = true)
    (h0 : (F64.one.add alpha).isZero = false) : (peaking .one c alpha).IsIdentity := by
  simp only [peaking, F64.mul_one_of_finite halpha, F64.div_one_of_finite halpha]
  exact normalise_isIdentity rfl rfl rfl hfin h0

end ZeroDecibel

/-- Settles O44: the amplitude is exactly 1, and there numerator and denominator of each shape agree bit for bit. -/
theorem zeroDecibelDesignsAreIdentity : Obligations.ZeroDecibelDesignsAreIdentity := by
  intro num sr f0 g q hnum hg c alpha hc hc0 halpha hpeak hpeak0 hshelf hshelf0 k hk
  simp only [designLSH, designHSH, designPK, designA_of_isZero hnum hg, List.mem_cons, List.not_mem_nil, or_false] at hk
  rcases hk with rfl | rfl | rfl
  · exact shelfLow_one_isIdentity hc hc0 halpha hshelf hshelf0
  · exact shelfHigh_one_isIdentity hc hc0 halpha hshelf hshelf0
  · exact peaking_one_isIdentity c halpha hpeak hpeak0

/-! ## The identity form at rest (R117) -/

section Bypass
variable {b x y z : F64}

/-- The two products of a coefficient with input and output cancel, whatever the sign of a zero output. -/
theorem isZero_mul_sub_mul (hx : x.isFinite = true) (hkey : y.key = x.key) (hfin : (b.mul x).isFinite = true) :
    ((b.mul x).sub (b.mul y)).isZero = true := by
  cases h0 : x.isZero
  · rw [← F64.eq_of_key_eq hkey.symm h0]
    exact F64.isZero_sub hfin hfin rfl
  · have hb := F64.isFinite_of_isFinite_mul hfin
    have hy0 : y.isZero = true := by
      rwa [← F64.val_eq_zero_iff, (F64.key_eq_iff_val_eq y x).mp hkey, F64.val_eq_zero_iff]
    have hbx := F64.isZero_mul hb hx (.inr h0)
    have hby := F64.isZero_mul hb (F64.isFinite_of_isZero hy0) (.inr hy0)
    refine F64.isZero_sub hfin (F64.isFinite_of_isZero hby) ?_
    rw [(F64.val_eq_zero_iff _).mpr hbx, (F64.val_eq_zero_iff _).mpr hby]

/-- With `b0 = 1` and `z1` a zero, the output is a number of the value of the input. -/
theorem one_mul_add_key (hx : x.isFinite = true) (hz : z.isZero = true) :
    ((F64.one.mul x).add z).isNaN = false ∧ ((F64.one.mul x).add z).key = x.key := by
  have hround := F64.roundsTo_add hx (F64.isFinite_of_isZero hz)
  rw [z.val_eq_zero_iff.mpr hz, add_zero] at hround
  obtain ⟨hfin, hval⟩ := hround.exact hx
  rw [F64.one_mul_of_number (x.isFinite_iff.mp hx).1]
  exact ⟨((F64.isFinite_iff _).mp hfin).1, (F64.key_eq_iff_val_eq _ x).mpr hval⟩

end Bypass

/-- Settles O45: the output has the value of the input, so both new states are differences of equal products, plus the
old zero of `z2` for the first. -/
theorem identityFilterAtRestIsBypass : Obligations.IdentityFilterAtRestIsBypass := by
  intro q x hb0 hb1 hb2 ⟨hz1, hz2⟩ hx hfin1 hfin2
  obtain ⟨hn, hkey⟩ := one_mul_add_key hx hz1
  simp only [bqStep, Biquad.AtRest, hb0, ← hb1, ← hb2]
  exact ⟨(F64.eq_iff _ x).mpr ⟨hn, (x.isFinite_iff.mp hx).1, hkey⟩,
    F64.isZero_add (isZero_mul_sub_mul hx hkey hfin1) hz2, isZero_mul_sub_mul hx hkey hfin2⟩

/-! ## The unit commands (R111 to R117) -/

/-- Settles O42: each design command stores its design, a formula that `normalise` and the shelf terms abbreviate. -/
theorem designCommandsStoreCoefficients : Obligations.DesignCommandsStoreCoefficients := by
  intro sr f0 g q s
  exact ⟨rfl, rfl, rfl, rfl, rfl⟩

/-- BQ.STEP, whole: the new states are stored and the output answered, low word first. -/
theorem exec_bqStep (x : F64) (s : State) :
    let r := bqStep s.readBq x
    exec (.bqStep x) s = .next { s with
      prim.bq.z1 := r.2.z1, prim.bq.z2 := r.2.z2, written.bqZ := true
      draws := (s.drew (s.written.bqC && s.written.bqZ) 7).draws
      resp := s.resp ++ [0x00000000#32, r.1.bits.extractLsb' 0 32, r.1.bits.extractLsb' 32 32] } := by
  simp only [exec, execBqStep]
  rw [drew_draws]
  rfl

/-- Settles O43: BQ.STEP is the ordinary filter step on what `readBq` reads. -/
theorem biquadResetAndStep : Obligations.BiquadResetAndStep := by
  intro x s
  refine ⟨rfl, s.readBq.c, s.readBq.z1, s.readBq.z2,
    (s.drew (s.written.bqC && s.written.bqZ) 7).draws, ?_, ?_, ?_, ?_⟩
  · exact fun hc => if_pos hc
  · exact fun hz => ⟨readOrDraw_of_known hz _ _, readOrDraw_of_known hz _ _⟩
  · exact fun hc hz => drew_draws_of_known s hc hz 7
  · exact exec_bqStep x s

end Sys2Proof.Machine

namespace Sys2Proof

/-! # The saturator (42_saturation.md)

Where one operand of the final subtraction is a zero, the difference is exact, so that the properties of `tanh` (R10) carry
over to the output by value. -/

section Differences
variable {x y : F64}

/-- Subtracting either zero keeps the value. -/
theorem F64.sub_isZero_exact (hx : x.isFinite = true) (hy : y.isZero = true) :
    (x.sub y).isFinite = true ∧ (x.sub y).val = x.val := by
  have hround := F64.roundsTo_sub hx (F64.isFinite_of_isZero hy)
  rw [y.val_eq_zero_iff.mpr hy, sub_zero] at hround
  exact hround.exact hx

/-- Subtracting from either zero gives the opposite value. -/
theorem F64.isZero_sub_exact (hx : x.isZero = true) (hy : y.isFinite = true) :
    (x.sub y).isFinite = true ∧ (x.sub y).val = y.neg.val := by
  have hround := F64.roundsTo_sub (F64.isFinite_of_isZero hx) hy
  rw [x.val_eq_zero_iff.mpr hx, zero_sub, ← F64.val_neg] at hround
  exact hround.exact (by rwa [F64.isFinite_neg])

theorem F64.eq_iff_val_eq (hx : x.isFinite = true) (hy : y.isFinite = true) : x.eq y = true ↔ x.val = y.val := by
  rw [F64.eq_iff, F64.key_eq_iff_val_eq, and_iff_right (x.isFinite_iff.mp hx).1, and_iff_right (y.isFinite_iff.mp hy).1]

/-- The interval [-1, 1] holds no infinity. -/
theorem F64.isFinite_of_between_ones (hlo : F64.one.neg.le x = true) (hhi : x.le .one = true) : x.isFinite = true := by
  obtain ⟨-, hn, hlo⟩ := (F64.le_iff _ _).mp hlo
  obtain ⟨-, -, hhi⟩ := (F64.le_iff _ _).mp hhi
  refine x.isFinite_iff.mpr ⟨hn, Bool.eq_false_iff.mpr fun hi => ?_⟩
  have hmag : x.mag = F64.infMag := by simpa [F64.isInf] using hi
  have hkey : x.key = -F64.infMag ∨ x.key = F64.infMag := by
    rw [F64.key, hmag]; exact ite_eq_or_eq ..
  have hone : F64.one.key < F64.infMag := by decide
  rw [F64.key_neg] at hlo
  omega

end Differences

end Sys2Proof

namespace Sys2Proof.Machine

/-! ## The argument of `tanh` (R130) -/

section Argument
variable {c : Cfg} {x drive : F64}

/-- `v = u + ASYM * (u * u)`, the argument of `tanh` in R130. -/
def satArgument (c : Cfg) (x drive : F64) : F64 :=
  let u := x.mul drive
  u.add (c.asym.mul (u.mul u))

theorem sat_eq (c : Cfg) (x drive : F64) :
    sat c x drive = (c.num.tanh (satArgument c x drive)).sub (c.num.tanh c.biasOffset) := rfl

/-- A zero input, of either sign, leaves every term of the argument a zero. -/
theorem isZero_satArgument (hc : c.Admissible) (hx : x.isZero = true) (hdrive : drive.isFinite = true) :
    (satArgument c x drive).isZero = true := by
  have hu : (x.mul drive).isZero = true := F64.isZero_mul (F64.isFinite_of_isZero hx) hdrive (.inl hx)
  have hu_fin := F64.isFinite_of_isZero hu
  have hsq := F64.isZero_mul hu_fin hu_fin (.inl hu)
  exact F64.isZero_add hu (F64.isZero_mul hc.asym_ok.1 (F64.isFinite_of_isZero hsq) (.inr hsq))

end Argument

/-- P-tanh-range leaves no infinity among the results of `tanh`. -/
theorem isFinite_tanh {num : Numerics} (hnum : num.Lawful) {v : F64} (hv : v.isNaN = false) :
    (num.tanh v).isFinite = true := by
  obtain ⟨hlo, hhi⟩ := hnum.tanh_range v hv
  exact F64.isFinite_of_between_ones hlo hhi

/-- Settles O47: the argument is a zero, which P-tanh0 keeps, and a zero less `tanh(bias)` is exact. -/
theorem satOfZeroIsMinusBias : Obligations.SatOfZeroIsMinusBias := by
  intro c x drive hc hbias hx hdrive
  have hv := isZero_satArgument hc hx hdrive
  have htanh := isFinite_tanh hc.num_ok hbias
  rw [sat_eq, hc.num_ok.tanh_zero _ hv]
  obtain ⟨hfin, hval⟩ := F64.isZero_sub_exact hv htanh
  exact (F64.eq_iff_val_eq hfin (by rwa [F64.isFinite_neg])).mpr hval

/-- Settles O48: without a bias the output has the value of `tanh(v)`, which P-tanh-range bounds. -/
theorem satStaysInClosedUnitInterval : Obligations.SatStaysInClosedUnitInterval := by
  intro c x drive hc hbias hv
  change (satArgument c x drive).isNaN = false at hv
  have htanh := isFinite_tanh hc.num_ok hv
  obtain ⟨hlo, hhi⟩ := hc.num_ok.tanh_range _ hv
  obtain ⟨hfin, hval⟩ := F64.sub_isZero_exact (y := .zero) htanh (by decide)
  rw [sat_eq, hbias, hc.num_ok.tanh_zero .zero (by decide), F64.le_iff_val_le (by decide) hfin,
    F64.le_iff_val_le hfin (by decide), hval]
  exact ⟨(F64.le_iff_val_le (by decide) htanh).mp hlo, (F64.le_iff_val_le htanh (by decide)).mp hhi⟩

/-- Settles O46: SAT is the waveshaper of the hardware's configuration, whose `BIAS_OFFSET` is the decided 0.0, and
`respond64` answers the status and the result, low word first. -/
theorem satAnswersWaveshaper : Obligations.SatAnswersWaveshaper := by
  intro x drive s
  have hbias : Config.cfg.biasOffset = .zero := rfl
  have hexec : exec (.sat x drive) s = .next (s.respond64 (sat Config.cfg x drive).bits) := rfl
  rw [hexec, sat_eq, hbias]
  rfl

end Sys2Proof.Machine

namespace Sys2Proof

/-! # The filter bank (43_filterbank.md)

What the steps of a BLOCK before its sample loop write to one channel's filters is a function of the new parameters and
of that channel (`startBank`), and the sample loop keeps every coefficient; so a rule about coefficients is a rule about
`startBank`, for both channels at once. -/

/-! ## Equal values less a nonzero number -/

/-- A zero of either sign less a nonzero number is its opposite. -/
theorem F64.isZero_sub_of_nonzero {x y : F64} (hx : x.isZero = true) (hy : y.isFinite = true) (h0 : y.isZero = false) :
    x.sub y = y.neg := by
  have hround := F64.roundsTo_sub (F64.isFinite_of_isZero hx) hy
  rw [x.val_eq_zero_iff.mpr hx, zero_sub, ← F64.val_neg] at hround
  exact hround.eq_of_nonzero (by rwa [F64.isFinite_neg]) (by rwa [F64.isZero_neg])

/-- Equal values less the same nonzero number are the same bits: only the two zeros are equal and differ. -/
theorem F64.sub_congr_of_eq {x x' y : F64} (h : x.eq x' = true) (hy : y.isFinite = true) (h0 : y.isZero = false) :
    x.sub y = x'.sub y := by
  obtain ⟨-, -, hkey⟩ := (F64.eq_iff x x').mp h
  cases hx : x.isZero
  · rw [F64.eq_of_key_eq hkey hx]
  · have hx' : x'.isZero = true := by
      rwa [← F64.val_eq_zero_iff, ← (F64.key_eq_iff_val_eq x x').mp hkey, F64.val_eq_zero_iff]
    rw [F64.isZero_sub_of_nonzero hx hy h0, F64.isZero_sub_of_nonzero hx' hy h0]

end Sys2Proof

namespace Sys2Proof.Machine

/-! ## The designs of `FB.TONE` (R141, R142) -/

section ToneDesigns

/-- The table `MIDF` at each of its five indices. -/
theorem midFreq_fin (k : Fin 5) :
    midFreq k.val = #v[F64.lit 220, .lit 450, .lit 800, .lit 1600, .lit 3000][k] := by
  match k with
  | 0 | 1 | 2 | 3 | 4 => rfl

theorem ToneTag.same_iff (t u : ToneTag) :
    t.same u = true ↔ t.bass.eq u.bass = true ∧ t.mid.eq u.mid = true ∧ t.treble.eq u.treble = true ∧
      t.midIdx = u.midIdx ∧ t.ultraLo = u.ultraLo ∧ t.ultraHi = u.ultraHi := by
  simp only [ToneTag.same, Bool.and_eq_true, beq_iff_eq, decide_eq_true_eq, and_assoc]

/-- A tone gain depends on the value of its parameter only, since `v - 0.5` is the same for both zeros. -/
theorem toneDb_congr {v w : F64} (h : v.eq w = true) (range : F64) : toneDb v range = toneDb w range := by
  rw [toneDb, toneDb, F64.sub_congr_of_eq h (by decide) (by decide)]

/-- Tags that step 2 takes for the same have the same designs. -/
theorem designTone_congr (c : Cfg) (sr : F64) {t u : ToneTag} (h : t.same u = true) :
    designTone c sr t = designTone c sr u := by
  obtain ⟨hbass, hmid, htreble, hidx, hlo, hhi⟩ := (t.same_iff u).mp h
  simp only [designTone, toneDb_congr hbass, toneDb_congr hmid, toneDb_congr htreble, hidx, hlo, hhi]

/-- The designs in slot order. -/
def ToneCoeffs.slots (t : ToneCoeffs) : List Coeffs := [t.c0, t.c1, t.c2, t.c3, t.c4, t.c5]

/-- The low toggle enters the designs of slots 0 and 1 only. -/
theorem designTone_ultraLo (c : Cfg) (sr : F64) (t : ToneTag) (on : Bool) {k : Nat} (hk : k ∈ [2, 3, 4, 5]) :
    (designTone c sr { t with ultraLo := on }).slots[k]? = (designTone c sr t).slots[k]? := by
  simp only [List.mem_cons, List.not_mem_nil, or_false] at hk
  rcases hk with rfl | rfl | rfl | rfl <;> simp [ToneCoeffs.slots, designTone]

/-- The high toggle enters the design of slot 2 only. -/
theorem designTone_ultraHi (c : Cfg) (sr : F64) (t : ToneTag) (on : Bool) {k : Nat} (hk : k ∈ [0, 1, 3, 4, 5]) :
    (designTone c sr { t with ultraHi := on }).slots[k]? = (designTone c sr t).slots[k]? := by
  simp only [List.mem_cons, List.not_mem_nil, or_false] at hk
  rcases hk with rfl | rfl | rfl | rfl | rfl <;> simp [ToneCoeffs.slots, designTone]

end ToneDesigns

/-- Settles O21: five slots by the definition of `designTone` with its gain tables unfolded, slot 4 by the frequency
table. -/
theorem toneDesignsFollowSlotTable : Obligations.ToneDesignsFollowSlotTable := by
  intro c sr t
  refine ⟨rfl, rfl, rfl, rfl, fun k hk => ?_, rfl⟩
  rw [← midFreq_fin, ← hk]
  rfl

/-- Settles O34: the step that the statement writes out is `bqStep`, and the cascades are its compositions. -/
theorem filterCascadesRunInSlotOrder : Obligations.FilterCascadesRunInSlotOrder := by
  intro b x run
  have hrun : run = bqStep := rfl
  rw [hrun]
  exact ⟨rfl, rfl, rfl⟩

/-! ## Coefficients slot by slot -/

section Slots
variable {a b : Bank}

theorem Bank.slot_coeffs (b : Bank) (k : Nat) : (b.slot k).map Biquad.c = b.coeffs[k]? := by
  match k with
  | 0 | 1 | 2 | 3 | 4 | 5 | 6 | 7 | 8 | 9 => rfl
  | k + 10 => rw [b.slot_eq_none (Nat.le_add_left 10 k)]; rfl

theorem Bank.HasTone.slot_coeffs {t : ToneCoeffs} (h : b.HasTone t) {k : Nat} (hk : k < 6) :
    (b.slot k).map Biquad.c = t.slots[k]? := by
  obtain ⟨h0, h1, h2, h3, h4, h5⟩ := h
  rw [b.slot_coeffs, Bank.coeffs, ToneCoeffs.slots, h0, h1, h2, h3, h4, h5]
  match k with
  | 0 | 1 | 2 | 3 | 4 | 5 => rfl

theorem Bank.SameCab.slot_coeffs (h : a.SameCab b) {k : Nat} (hk : 8 ≤ k) :
    (a.slot k).map Biquad.c = (b.slot k).map Biquad.c := by
  obtain ⟨hhp, hlp⟩ := h
  match k with
  | 8 => exact congrArg some hhp
  | 9 => exact congrArg some hlp
  | k + 10 => rw [a.slot_eq_none (Nat.le_add_left 10 k), b.slot_eq_none (Nat.le_add_left 10 k)]

theorem Bank.tilt_of_coeffs (h : a.coeffs = b.coeffs) : a.SameTilt b := by
  simp_all [Bank.coeffs, Bank.SameTilt]

/-- Banks of the same tone coefficients hold the same designs. -/
theorem Bank.SameTone.hasTone_iff {t : ToneCoeffs} (h : a.SameTone b) : a.HasTone t ↔ b.HasTone t := by
  simp_all [Bank.SameTone, Bank.HasTone]

end Slots

/-! ## What a body writes to the filters of a channel -/

section StartBank
variable (c : Cfg) (nin nout : BitVec 4) (n : Word) (events : List Event) (samples : List F32) (s : State)

/-- The filters of one channel after steps 2 to 5, from the parameters that step 1 leaves: redesigned if the tag
differs (R167), and the tilt shelves in any case (R170). -/
def startBank (p : Vector F64 9) (b : Bank) : Bank :=
  let dn := (blockRegsOf c p s.lastEnv).driveNorm2
  (if (tagOf c p).same s.toneTag then b else b.setTone (designTone c s.sr (tagOf c p))).setTilt
    (designLSH c.num s.sr (.lit 40) ((F64.lit (-3)).mul dn) c.qShelf)
    (designHSH c.num s.sr (.lit 4000) ((F64.lit (-4)).mul dn) c.qShelf)

theorem startBank_cases (p : Vector F64 9) (b : Bank) :
    ((tagOf c p).same s.toneTag = true ∧ (startBank c s p b).SameTone b) ∨
    ((tagOf c p).same s.toneTag = false ∧ (startBank c s p b).HasTone (designTone c s.sr (tagOf c p))) := by
  unfold startBank
  cases (tagOf c p).same s.toneTag
  · exact .inr ⟨rfl, rfl, rfl, rfl, rfl, rfl, rfl⟩
  · exact .inl ⟨rfl, rfl, rfl, rfl, rfl, rfl, rfl⟩

theorem startBank_sameCab (p : Vector F64 9) (b : Bank) : (startBank c s p b).SameCab b := by
  unfold startBank; split <;> exact ⟨rfl, rfl⟩

/-- Filters that were the design of the tag are the design of the parameters, redesigned or not. -/
theorem startBank_hasTone {b : Bank} (hb : b.HasTone (designTone c s.sr s.toneTag)) (p : Vector F64 9) :
    (startBank c s p b).HasTone (designTone c s.sr (tagOf c p)) := by
  rcases startBank_cases c s p b with ⟨hsame, h⟩ | ⟨-, h⟩
  · rw [designTone_congr c s.sr hsame]
    exact h.hasTone_iff.mpr hb
  · exact h

/-- The filters of both channels before the sample loop. -/
theorem blockStart_bq : (blockStart c events s).bq =
    ⟨startBank c s (applyEvents events s).param s.bq.left, startBank c s (applyEvents events s).param s.bq.right⟩ := by
  unfold blockStart startBank toneStep
  rw [applyEvents_keeps]
  split <;> rfl

theorem blockStart_blk : (blockStart c events s).blk = blockRegsOf c (applyEvents events s).param s.lastEnv := by
  unfold blockStart
  rw [targetStep_eq, toneStep_keeps, applyEvents_keeps]

/-- The body leaves the coefficients that its start wrote. -/
theorem blockBody_coeffs :
    (blockBody c nin n events samples s).1.bq.left.coeffs =
      (startBank c s (applyEvents events s).param s.bq.left).coeffs ∧
    (blockBody c nin n events samples s).1.bq.right.coeffs =
      (startBank c s (applyEvents events s).param s.bq.right).coeffs := by
  have hloop := runFrames_keeps c (framesOf nin.toNat (frameCount n) samples) (blockStart c events s)
  have hleft := hloop.left
  have hright := hloop.right
  rw [blockStart_bq] at hleft hright
  exact ⟨hleft, hright⟩

theorem blockBody_blk :
    (blockBody c nin n events samples s).1.blk = blockRegsOf c (applyEvents events s).param s.lastEnv := by
  have hloop := (runFrames_keeps c (framesOf nin.toNat (frameCount n) samples) (blockStart c events s)).rest
  rw [← blockStart_blk, blockBody, hloop]
  rfl

/-- A BLOCK of good shape while Active runs its body on a machine that was set up (R165). -/
theorem exec_block_runs (hm : s.mode = .active) (hv : s.cfgValid = true) (hin : 2 ≤ nin.toNat) (hout : 2 ≤ nout.toNat)
    (hn : 0 < n.toInt) :
    exec (.block nin nout n events samples) s =
      .next ((blockBody Config.cfg nin n events samples s).1.respond
        (blockBody Config.cfg nin n events samples s).2) := by
  have hblock : block Config.cfg nin nout n events samples s = blockBody Config.cfg nin n events samples s := by
    simp only [block, hm, hv, (blockShape_iff nin nout n).mpr ⟨hin, hout, hn⟩, if_true]
  simp only [exec, execBlock, hblock]

end StartBank

/-- Settles O31: the start of the body writes both shelves from the `DRIVE_NORM2` it computes, and the sample loop keeps
them and the register. -/
theorem tiltFollowsDriveEveryBlock : Obligations.TiltFollowsDriveEveryBlock := by
  intro nin nout n events samples s hm hv hin hout hn
  refine ⟨_, exec_block_runs nin nout n events samples s hm hv hin hout hn, ?_⟩
  obtain ⟨hleft, hright⟩ := blockBody_coeffs Config.cfg nin n events samples s
  obtain ⟨hleftLo, hleftHi⟩ := Bank.tilt_of_coeffs hleft
  obtain ⟨hrightLo, hrightHi⟩ := Bank.tilt_of_coeffs hright
  simp only [State.respond_bq, State.respond_blk, blockBody_blk]
  exact ⟨hleftLo, hrightLo, hleftHi, hrightHi⟩

/-! ## What no BLOCK retunes (R27, R28, R144) -/

section Fixed
variable (c : Cfg) (nin nout : BitVec 4) (n : Word) (events : List Event) (samples : List F32) (s : State)

/-- The cabinet filters and the decay coefficients, which only SETUP writes, are the same. -/
def CabAndDecayKept (s t : State) : Prop :=
  t.bq.left.SameCab s.bq.left ∧ t.bq.right.SameCab s.bq.right ∧
  t.smIn.a = s.smIn.a ∧ t.smOut.a = s.smOut.a ∧ t.smDrv.a = s.smDrv.a ∧
  t.ef.left.a = s.ef.left.a ∧ t.ef.right.a = s.ef.right.a

theorem blockBody_cabAndDecayKept : CabAndDecayKept s (blockBody c nin n events samples s).1 := by
  obtain ⟨hleft, hright⟩ := blockBody_coeffs c nin n events samples s
  have hloop := runFrames_keeps c (framesOf nin.toNat (frameCount n) samples) (blockStart c events s)
  obtain ⟨p, tag, bq, blk, w, hstart⟩ := blockStart_keeps c events s
  rw [hstart] at hloop
  refine ⟨(startBank_sameCab c s _ _).congr hleft rfl, (startBank_sameCab c s _ _).congr hright rfl, ?_⟩
  rw [blockBody, hstart]
  exact ⟨hloop.smIn, hloop.smOut, hloop.smDrv, hloop.efL, hloop.efR⟩

/-- What was drawn for the length of the body is put back after it. -/
theorem blockBodyUnset_cabAndDecayKept : CabAndDecayKept s (blockBodyUnset c nin n events samples s).1 := by
  simp only [blockBodyUnset]
  split <;> exact ⟨⟨rfl, rfl⟩, ⟨rfl, rfl⟩, rfl, rfl, rfl, rfl, rfl⟩

theorem block_cabAndDecayKept : CabAndDecayKept s (block c nin nout n events samples s).1 := by
  rcases block_cases c nin nout n events samples s with ⟨-, h⟩ | ⟨-, -, -, h⟩ | ⟨-, -, -, h⟩ <;> rw [h]
  · exact ⟨⟨rfl, rfl⟩, ⟨rfl, rfl⟩, rfl, rfl, rfl, rfl, rfl⟩
  · exact blockBody_cabAndDecayKept c nin n events samples s
  · exact blockBodyUnset_cabAndDecayKept c nin n events samples s

end Fixed

/-- Settles O32: by the three ways a BLOCK can go. -/
theorem blockNeverRetunesCabinetOrDecay : Obligations.BlockNeverRetunesCabinetOrDecay := by
  intro nin nout n events samples s t h
  cases h
  exact block_cabAndDecayKept Config.cfg nin nout n events samples s

/-! ## What turning a toggle changes (R149) -/

section Toggle
variable {nin nout : BitVec 4} {n : Word} {events : List Event} {samples : List F32} {s t : State}

/-- Both channels have the same coefficients in slot `k`. -/
def SameSlot (s t : State) (k : Nat) : Prop :=
  (t.bq.left.slot k).map Biquad.c = (s.bq.left.slot k).map Biquad.c ∧
  (t.bq.right.slot k).map Biquad.c = (s.bq.right.slot k).map Biquad.c

/-- On a machine that was set up both channels hold the design of the tag. -/
theorem State.Inv.hasTone (hs : s.Inv) (hv : s.cfgValid = true) :
    s.bq.left.HasTone (designTone Config.cfg s.sr s.toneTag) ∧
    s.bq.right.HasTone (designTone Config.cfg s.sr s.toneTag) :=
  ⟨hs.tuned.tone hv, (hs.symmetric.tone (hs.ordered.tone hv)).hasTone_iff.mp (hs.tuned.tone hv)⟩

/-- A body leaves both channels the design of the parameters it ran with. -/
theorem blockBody_hasTone (hs : s.Inv) (hv : s.cfgValid = true) :
    let d := designTone Config.cfg s.sr (tagOf Config.cfg (applyEvents events s).param)
    (blockBody Config.cfg nin n events samples s).1.bq.left.HasTone d ∧
    (blockBody Config.cfg nin n events samples s).1.bq.right.HasTone d := by
  obtain ⟨hleft, hright⟩ := blockBody_coeffs Config.cfg nin n events samples s
  obtain ⟨htoneL, htoneR⟩ := hs.hasTone hv
  exact ⟨(startBank_hasTone Config.cfg s htoneL _).congr hleft, (startBank_hasTone Config.cfg s htoneR _).congr hright⟩

/-- A slot before the saturator keeps its coefficients through a BLOCK whose new parameters give it the same design. -/
theorem exec_block_sameSlot_of_design (hs : s.Inv) (hv : s.cfgValid = true)
    (hsame : (tagOf Config.cfg s.param).same s.toneTag = true)
    (h : exec (.block nin nout n events samples) s = .next t) {k : Nat} (hk : k < 6)
    (hdesign : (designTone Config.cfg s.sr (tagOf Config.cfg (applyEvents events s).param)).slots[k]? =
      (designTone Config.cfg s.sr (tagOf Config.cfg s.param)).slots[k]?) :
    SameSlot s t k := by
  obtain ⟨hoL, hoR⟩ := hs.hasTone hv
  rw [← designTone_congr Config.cfg s.sr hsame] at hoL hoR
  cases h
  rcases block_cases Config.cfg nin nout n events samples s with ⟨-, hb⟩ | ⟨-, -, -, hb⟩ | ⟨-, -, hv', -⟩
  · rw [hb]; exact ⟨rfl, rfl⟩
  · rw [hb]
    obtain ⟨hnL, hnR⟩ := blockBody_hasTone (nin := nin) (n := n) (events := events) (samples := samples) hs hv
    exact ⟨(hnL.slot_coeffs hk).trans (hdesign.trans (hoL.slot_coeffs hk).symm),
      (hnR.slot_coeffs hk).trans (hdesign.trans (hoR.slot_coeffs hk).symm)⟩
  · exact nomatch hv.symm.trans hv'

/-- The cabinet slots keep their coefficients through every BLOCK. -/
theorem exec_block_sameSlot_of_cab (h : exec (.block nin nout n events samples) s = .next t) {k : Nat} (hk : 8 ≤ k) :
    SameSlot s t k := by
  obtain ⟨hleft, hright, -⟩ := blockNeverRetunesCabinetOrDecay nin nout n events samples s t h
  exact ⟨hleft.slot_coeffs hk, hright.slot_coeffs hk⟩

theorem applyEvents_single {e : Event} (h : e.applies = true) (s : State) :
    applyEvents [e] s = s.setParam e.pid e.value := if_pos h

/-- The tag after an event that turns `P_ULO`. -/
theorem tagOf_event_ultraLo (c : Cfg) (v : F64) (s : State) :
    tagOf c (applyEvents [⟨7#32, v⟩] s).param = { tagOf c s.param with ultraLo := toggle c v } := by
  have hset : applyEvents [⟨7#32, v⟩] s = s.setParam 7 v := applyEvents_single (by simp [Event.applies, Event.pid]) s
  rw [hset, s.setParam_lt 7 v (by decide)]
  simp [tagOf]

/-- The tag after an event that turns `P_UHI`. -/
theorem tagOf_event_ultraHi (c : Cfg) (v : F64) (s : State) :
    tagOf c (applyEvents [⟨8#32, v⟩] s).param = { tagOf c s.param with ultraHi := toggle c v } := by
  have hset : applyEvents [⟨8#32, v⟩] s = s.setParam 8 v := applyEvents_single (by simp [Event.applies, Event.pid]) s
  rw [hset, s.setParam_lt 8 v (by decide)]
  simp [tagOf]

end Toggle

/-- Settles O58: the event changes one bit of the tag, which enters the designs of the toggle's own slots only; the
cabinet slots no BLOCK retunes. -/
theorem toggleChangesOnlyItsFilters : Obligations.ToggleChangesOnlyItsFilters := by
  intro nin nout n v samples s t hs _ hv hsame
  refine ⟨fun h k hk => ?_, fun h k hk => ?_⟩
  · obtain htone | hcab : k ∈ [2, 3, 4, 5] ∨ 8 ≤ k := by simp at hk ⊢; omega
    · refine exec_block_sameSlot_of_design hs hv hsame h (by simp at htone; omega) ?_
      rw [tagOf_event_ultraLo, designTone_ultraLo _ _ _ _ htone]
    · exact exec_block_sameSlot_of_cab h hcab
  · obtain htone | hcab : k ∈ [0, 1, 3, 4, 5] ∨ 8 ≤ k := by simp at hk ⊢; omega
    · refine exec_block_sameSlot_of_design hs hv hsame h (by simp at htone; omega) ?_
      rw [tagOf_event_ultraHi, designTone_ultraHi _ _ _ _ htone]
    · exact exec_block_sameSlot_of_cab h hcab

end Sys2Proof.Machine

namespace Sys2Proof

/-! # The chain and the controller (44_chain_controller.md)

What a body leaves is written out once, as a whole state (`blockBody_eq`): what the steps before the sample loop write,
the running values as the loop leaves them, and `LAST_ENV`; the statements about BLOCK read their registers off it. -/

/-! ## Zeros and finite differences -/

section Zeros

/-- `1 - x` does not overflow, since the largest finite number lies half a unit below the middle from where R9
overflows. -/
theorem F64.isFinite_one_sub {x : F64} (hx : x.isFinite = true) : (F64.one.sub x).isFinite = true := by
  have hmag : x.mag ≤ F64.infMag - 1 := Nat.le_sub_one_of_lt (by simpa [F64.isFinite] using hx)
  have hle : |(x.val : ℝ)| ≤ magVal 52 (-1074) (F64.infMag - 1) := by
    rw [x.abs_val]; exact magVal_strictMono.monotone hmag
  have hlargest : magVal 52 (-1074) (F64.infMag - 1) + 2 ^ 1024 = 2 * (2 ^ 1024 - 2 ^ 970) := by
    rw [← F64.overflow_middle, ← F64.magVal_infMag]; exact (mul_div_cancel₀ _ two_ne_zero).symm
  have hone : (1 : ℝ) < 2 ^ 970 := one_lt_pow₀ one_lt_two (by norm_num)
  have hlt : |((1 - x.val : ℚ) : ℝ)| < 2 ^ 1024 - 2 ^ 970 := by
    have htriangle : |((1 - x.val : ℚ) : ℝ)| ≤ 1 + |(x.val : ℝ)| := by
      push_cast; simpa using abs_sub (1 : ℝ) x.val
    generalize (2 : ℝ) ^ 1024 = a at *
    generalize (2 : ℝ) ^ 970 = b at *
    linarith
  have hround := F64.roundsTo_sub (x := .one) (by decide) hx
  rw [F64.val_one, RoundsTo, if_pos (by exact_mod_cast hlt)] at hround
  exact hround.1

theorem F64.isZero_sub_of_isZero {x y : F64} (hx : x.isZero = true) (hy : y.isZero = true) : (x.sub y).isZero = true :=
  F64.isZero_sub (F64.isFinite_of_isZero hx) (F64.isFinite_of_isZero hy)
    (by rw [x.val_eq_zero_iff.mpr hx, y.val_eq_zero_iff.mpr hy])

theorem F64.isZero_mul_right {x y : F64} (hx : x.isFinite = true) (hy : y.isZero = true) : (x.mul y).isZero = true :=
  F64.isZero_mul hx (F64.isFinite_of_isZero hy) (.inr hy)

theorem F64.isZero_abs (x : F64) : x.abs.isZero = x.isZero := by simp only [F64.isZero, F64.mag_abs]

theorem F32.isZero_widen {x : F32} (hx : x.isZero = true) : x.widen.isZero = true := by
  have hmag : x.mag = 0 := by simpa [F32.isZero] using hx
  have hfin : x.isFinite = true := by simp [F32.isFinite, hmag, F32.infMag]
  have hmant : x.mant = 0 := by simp [F32.mant, hmag]
  rw [F32.widen_of_finite hfin, hmant, F64.round, roundMag_zero, F64.isZero_iff, F64.mag_pack _ _ (by decide)]

theorem F64.isZero_narrow {x : F64} (hx : x.isZero = true) : x.narrow.isZero = true := by
  have hmag := x.isZero_iff.mp hx
  have hmant : x.mant = 0 := x.mant_eq_zero_iff.mpr hx
  rw [F64.narrow_of_finite (F64.isFinite_of_isZero hx), hmant, F32.round, roundMag_zero, F32.isZero,
    F32.mag_pack _ _ (by decide), decide_eq_true rfl]

end Zeros

end Sys2Proof

namespace Sys2Proof.Machine

/-! ## Lifecycle and parameters (R160 to R164) -/

/-- Settles O15: by cases on the effect, a command that is no SETACT keeps `MODE`. -/
theorem onlySetactChangesMode : Obligations.OnlySetactChangesMode := by
  intro i s t h hne
  cases exec_effect h with
  | kept hk => exact absurd (by rw [hk.rest]) hne
  | setup sr => exact absurd rfl hne
  | setact active => exact ⟨active, rfl⟩
  | pset pid v => exact absurd (by simp) hne
  | block nin nout n events samples => exact absurd (block_keeps Config.cfg nin nout n events samples s).mode hne

/-- Settles O20: retuning a filter is replacing its coefficients, `FB.CAB` and `FB.TONE` write different slots, and the
hardware's `Q_CAB` is the decided 0.707. -/
theorem setupWritesRateDependentCoefficients : Obligations.SetupWritesRateDependentCoefficients := by
  intro sr s c on tag d tune
  have htune (b : Bank) :
      tune b = (b.setCab (designHPF c.num sr (.lit 55) c.qCab) (designLPF c.num sr (.lit 5200) c.qCab)).setTone d := rfl
  rw [htune, htune]
  rfl

theorem setActive_on_of_inactive (c : Cfg) {s : State} (hm : s.mode = .inactive) :
    setActive c true s = { activationReset c s with mode := .active } := by simp only [setActive, hm]

theorem setActive_on_of_active (c : Cfg) {s : State} (hm : s.mode = .active) : setActive c true s = s := by
  simp only [setActive, hm]

/-- Settles O22: the three ways of `setActive`, where the initial values of the smoothers are the decided 0.0. -/
theorem setactTransitions : Obligations.SetactTransitions := by
  intro s rest clear ok
  have hexec (active : Bool) :
      exec (.setact active) s = .next ((setActive Config.cfg active s).respond []) := rfl
  refine ⟨fun hm => ?_, fun hm => ?_, rfl⟩
  · rw [hexec, setActive_on_of_inactive _ hm]; rfl
  · rw [hexec, setActive_on_of_active _ hm]; rfl

/-- Settles O23: by what a write of a parameter register does below 9 and from 9 up. -/
theorem psetStoresOneParameter : Obligations.PsetStoresOneParameter := by
  intro pid v s
  have hexec : exec (.pset pid v) s = .next ((s.setParam pid.toNat v).respond []) := rfl
  refine ⟨fun h => ?_, fun h => ?_⟩
  · rw [hexec, s.setParam_lt _ v h]; rfl
  · rw [hexec, s.setParam_ge _ v h]; rfl

/-- Settles O24: by what a read of a parameter register answers below 9 and from 9 up. -/
theorem pgetAnswersParameter : Obligations.PgetAnswersParameter := by
  intro pid s
  have hexec : exec (.pget pid) s = .next (s.respond64 (s.getParam pid.toNat).bits) := rfl
  refine ⟨fun h => ?_, fun h => ?_⟩
  · rw [hexec, s.getParam_lt _ h]; rfl
  · rw [hexec, s.getParam_ge _ h]; rfl

/-! ## Register read (R173) -/

/-- Settles O36: a known reading is answered without a draw; an open one is a draw of its kind, which has the kind's
range. -/
theorem rdReadsWithoutSideEffect : Obligations.RdReadsWithoutSideEffect := by
  intro addr s
  refine ⟨(readReg s addr.toNat).bits s.draws, (s.drew (readReg s addr.toNat).isKnown 2).draws, ?_, ?_, ?_, ?_⟩
  · simp only [exec, execRd]
    rw [drew_draws]
    rfl
  · intro w hw
    rw [hw]
    exact ⟨rfl, rfl⟩
  · intro hany
    have hidx := (Config.anyIndex s.draws).isLt
    rw [hany, Reading.bits, BitVec.toNat_ofNat]
    omega
  · intro hany
    rw [hany, Reading.bits, flagPair_toNat]
    split_ifs <;> decide

/-! ## A BLOCK that does not run (R174, R175) -/

theorem block_idle (c : Cfg) {nin nout : BitVec 4} {n : Word} (events : List Event) (samples : List F32) {s : State}
    (h : s.mode = .inactive ∨ blockShape nin nout n = false) : block c nin nout n events samples s = (s, []) := by
  rcases block_cases c nin nout n events samples s with ⟨-, hb⟩ | ⟨hm, hshape, -⟩ | ⟨hm, hshape, -⟩
  · exact hb
  · simp [hm, hshape] at h
  · simp [hm, hshape] at h

/-- Settles O25: neither an Inactive machine nor a degenerate shape reaches the body. -/
theorem blockThatDoesNotRunChangesNothing : Obligations.BlockThatDoesNotRunChangesNothing := by
  intro nin nout n events samples s h
  have hidle : s.mode = .inactive ∨ blockShape nin nout n = false := by
    refine h.imp_right fun hdegenerate => ?_
    rw [Bool.eq_false_iff, ne_eq, blockShape_iff]
    omega
  rw [show exec (.block nin nout n events samples) s = .next ((block Config.cfg nin nout n events samples s).1.respond
    (block Config.cfg nin nout n events samples s).2) from rfl, block_idle Config.cfg events samples hidle]
  rfl

/-! ## A bank as its coefficients and its state registers -/

section Banks
variable {a b : Bank}

/-- The state registers `z1`, `z2` of a bank, in slot order. -/
def Bank.states (b : Bank) : List (F64 × F64) :=
  [b.uloShelf, b.uloCut, b.uhiShelf, b.bass, b.mid, b.treble, b.tiltLo, b.tiltHi, b.cabHp, b.cabLp].map
    fun q => (q.z1, q.z2)

theorem Bank.slot_states (b : Bank) (k : Nat) : (b.slot k).map (fun q => (q.z1, q.z2)) = b.states[k]? := by
  match k with
  | 0 | 1 | 2 | 3 | 4 | 5 | 6 | 7 | 8 | 9 => rfl
  | k + 10 => rw [b.slot_eq_none (Nat.le_add_left 10 k)]; rfl

theorem Bank.sameRunning_of_states (h : a.states = b.states) : a.SameRunning b := by
  intro k p q hp hq
  have hslot := (a.slot_states k).trans ((congrArg (·[k]?) h).trans (b.slot_states k).symm)
  rw [hp, hq] at hslot
  exact Prod.mk.inj (Option.some.inj hslot)

theorem Bank.coeffs_of_parts (htone : a.SameTone b) (htilt : a.SameTilt b) (hcab : a.SameCab b) :
    a.coeffs = b.coeffs := by
  simp_all [Bank.SameTone, Bank.SameTilt, Bank.SameCab, Bank.coeffs]

/-- A bank has nothing besides its coefficients and its state registers. -/
theorem Bank.ext_coeffs_states (hc : a.coeffs = b.coeffs) (hz : a.states = b.states) : a = b := by
  have hq (p q : Biquad) : p = q ↔ p.c = q.c ∧ p.z1 = q.z1 ∧ p.z2 = q.z2 := by
    cases p; cases q; simp only [Biquad.mk.injEq]
  cases a
  cases b
  simp_all [Bank.coeffs, Bank.states]

end Banks

/-! ## What a body leaves (R165 to R172) -/

section Body
variable (c : Cfg) (nin : BitVec 4) (n : Word) (events : List Event) (samples : List F32) (s : State)

/-- `TONE_TAG` after step 2, from the parameters that step 1 leaves (R167). -/
def startTag (p : Vector F64 9) : ToneTag := if (tagOf c p).same s.toneTag then s.toneTag else tagOf c p

/-- The written marks after steps 2 to 5: the tone mark is set where step 2 redesigns. -/
def startWritten (p : Vector F64 9) : Written :=
  { s.written with
    block := true
    tone := if (tagOf c p).same s.toneTag = true then s.written.tone else true }

/-- The start of a body, whole. -/
theorem blockStart_eq : blockStart c events s = { s with
    param := (applyEvents events s).param
    toneTag := startTag c s (applyEvents events s).param
    bq := ⟨startBank c s (applyEvents events s).param s.bq.left, startBank c s (applyEvents events s).param s.bq.right⟩
    blk := blockRegsOf c (applyEvents events s).param s.lastEnv
    written := startWritten c s (applyEvents events s).param
    envSum := .zero } := by
  unfold blockStart startBank startTag startWritten toneStep
  rw [applyEvents_keeps]
  split <;> rfl

/-- A body, whole: what its start writes, the running values as the sample loop leaves them, and `LAST_ENV`. -/
theorem blockBody_eq :
    let last := (runFrames c (framesOf nin.toNat (frameCount n) samples) (blockStart c events s)).1
    (blockBody c nin n events samples s).1 = { s with
      param := (applyEvents events s).param
      toneTag := startTag c s (applyEvents events s).param
      blk := blockRegsOf c (applyEvents events s).param s.lastEnv
      written := startWritten c s (applyEvents events s).param
      smIn := last.smIn, smOut := last.smOut, smDrv := last.smDrv, ef := last.ef, bq := last.bq, envSum := last.envSum
      lastEnv := last.envSum.div (.ofNat (Max.max 1 (sampleCount n)).toNat) } := by
  intro last
  have hloop := (runFrames_keeps c (framesOf nin.toNat (frameCount n) samples) (blockStart c events s)).rest
  calc (blockBody c nin n events samples s).1 = blockEnd (sampleCount n) last := rfl
    _ = blockEnd (sampleCount n) { blockStart c events s with
          smIn := last.smIn, smOut := last.smOut, smDrv := last.smDrv, ef := last.ef, bq := last.bq
          envSum := last.envSum } := congrArg _ hloop
    _ = _ := by rw [blockStart_eq c events s]; rfl

/-- An unchanged tag leaves the tone filters of a channel as they are (R167). -/
theorem startBank_sameTone {c : Cfg} {s : State} {p : Vector F64 9} (h : (tagOf c p).same s.toneTag = true) (b : Bank) :
    (startBank c s p b).SameTone b :=
  ((startBank_cases c s p b).resolve_right (by simp [h])).2

/-- A changed tag redesigns the tone filters of a channel (R167). -/
theorem startBank_redesigned {c : Cfg} {s : State} {p : Vector F64 9} (h : (tagOf c p).same s.toneTag = false)
    (b : Bank) : (startBank c s p b).HasTone (designTone c s.sr (tagOf c p)) :=
  ((startBank_cases c s p b).resolve_left (by simp [h])).2

/-- The steps before the sample loop keep every `z1` and `z2`. -/
theorem startBank_states (p : Vector F64 9) (b : Bank) : (startBank c s p b).states = b.states := by
  unfold startBank; split <;> rfl

/-- Frame `i` of a sample loop: the state after it, and the output words `2i` and `2i + 1`, from the state that the
frames before it leave (R171, R73). -/
theorem runFrames_at {fs : List (F32 × F32)} {i : Nat} {f : F32 × F32} (hf : fs[i]? = some f) (s : State) :
    let r := frame c (runFrames c (fs.take i) s).1 f
    (runFrames c (fs.take (i + 1)) s).1 = r.1 ∧
      (runFrames c fs s).2[2 * i]? = some r.2.1.bits ∧ (runFrames c fs s).2[2 * i + 1]? = some r.2.2.bits := by
  induction fs generalizing i s with
  | nil => cases hf
  | cons g fs ih =>
    cases i with
    | zero => cases hf; exact ⟨rfl, rfl, rfl⟩
    | succ i => exact ih hf (frame c s g).1

end Body

/-- Settles O26: the start and the body as whole states, the frames as the payload gives them, and the sample loop frame
by frame. -/
theorem blockRunsItsBody : Obligations.BlockRunsItsBody := by
  intro nin nout n events samples s hm hv hin hout hn hwf start frames loop out last
  obtain ⟨-, hsamples⟩ : events.length < 2 ^ 16 ∧ samples.length = nin.toNat * frameCount n := by
    simpa [Instr.WellFormed, Instr.wellFormed, blockWellFormed] using hwf
  have hlength : frames.length = n.toInt.toNat := framesOf_length _ _ samples hin hsamples
  have hstart : start = _ := blockStart_eq Config.cfg events s
  refine ⟨⟨?_, ?_, ?_⟩, ⟨hlength, framesOf_samples _ hin _ samples⟩, fun i f hf => runFrames_at Config.cfg hf start,
    _, exec_block_runs nin nout n events samples s hm hv hin hout hn, ?_⟩
  · rw [hstart]
  · rw [hstart]; exact Bank.sameRunning_of_states (startBank_states Config.cfg s _ _)
  · rw [hstart]; exact Bank.sameRunning_of_states (startBank_states Config.cfg s _ _)
  · rw [blockBody_eq]
    exact ⟨rfl, by rw [runFrames_length, hlength], rfl, rfl, rfl, rfl, rfl, rfl, rfl, hm, hv, rfl, rfl, rfl, rfl⟩

/-! ## Events (R166, R74) -/

section Events

/-- A parameter after one record: the record's value if it is applied and names the parameter, or what it held. -/
theorem applyEvent_param_get (s : State) (e : Event) (p : Fin 9) :
    (applyEvent s e).param[p] = if (e.applies && decide (e.pid = p.val)) = true then e.value else s.param[p] := by
  unfold applyEvent
  cases e.applies
  · rfl
  · simpa using s.setParam_param_get e.pid e.value p

/-- A parameter after all records: by induction from the last record backwards, the last one that names it decides. -/
theorem applyEvents_param_get (events : List Event) (s : State) (p : Fin 9) :
    (applyEvents events s).param[p] =
      (((events.filter fun e => e.applies && decide (e.pid = p.val)).getLast?).map Event.value).getD s.param[p] := by
  induction events using List.reverseRecOn with
  | nil => rfl
  | append_singleton es e ih =>
    have happend : applyEvents (es ++ [e]) s = applyEvent (applyEvents es s) e := List.foldl_concat ..
    rw [happend, applyEvent_param_get, List.filter_append]
    by_cases h : (e.applies && decide (e.pid = p.val)) = true
    · simp [h]
    · simp [h, ih]

end Events

/-- Settles O28: the body leaves the parameters as step 1 does. -/
theorem lastEventPerParameterWins : Obligations.LastEventPerParameterWins := by
  intro nin nout n events samples s hm hv hin hout hn pid applies
  refine ⟨_, exec_block_runs nin nout n events samples s hm hv hin hout hn, fun p => ?_⟩
  rw [State.respond_param, blockBody_eq]
  exact applyEvents_param_get events s p

/-- Settles O29: the registers are `blockRegsOf` of the parameters and the old `LAST_ENV`, whose fields are the
formulas, and the divisor of the block end is the sample count where that is above 0. -/
theorem blockTargetsFromSnapshotAndFeedback : Obligations.BlockTargetsFromSnapshotAndFeedback := by
  intro nin nout n events samples s hm hv hin hout hn
  refine ⟨_, exec_block_runs nin nout n events samples s hm hv hin hout hn, ?_⟩
  have hcount : Max.max 1 (sampleCount n) = n.toInt := max_eq_right hn
  rw [blockBody_eq, hcount]
  exact ⟨rfl, rfl, rfl, rfl, rfl, rfl, rfl, rfl⟩

/-- Settles O30: the two ways of step 2, whose coefficients the sample loop keeps. -/
theorem toneRedesignedExactlyOnChange : Obligations.ToneRedesignedExactlyOnChange := by
  intro nin nout n events samples s hm hv hin hout hn
  refine ⟨_, exec_block_runs nin nout n events samples s hm hv hin hout hn, ?_⟩
  obtain ⟨hleft, hright⟩ := blockBody_coeffs Config.cfg nin n events samples s
  have hparam : (blockBody Config.cfg nin n events samples s).1.param = (applyEvents events s).param := by
    rw [blockBody_eq]
  have htag : (blockBody Config.cfg nin n events samples s).1.toneTag =
      startTag Config.cfg s (applyEvents events s).param := by rw [blockBody_eq]
  simp only [State.respond_param, State.respond_toneTag, State.respond_bq, hparam, htag, startTag]
  refine ⟨fun hsame => ⟨if_pos hsame, ?_, ?_⟩, fun hdiffers => ⟨if_neg (by simp [hdiffers]), ?_, ?_⟩⟩
  · exact (startBank_sameTone hsame _).congr hleft rfl
  · exact (startBank_sameTone hsame _).congr hright rfl
  · exact (startBank_redesigned hdiffers _).congr hleft
  · exact (startBank_redesigned hdiffers _).congr hright

/-- Settles O57: equal values have the same tone gains. -/
theorem redesignWithoutChangeIsUnobservable : Obligations.RedesignWithoutChangeIsUnobservable :=
  fun c sr _ _ h => designTone_congr c sr h

/-! ## Frames (R171) -/

/-- Settles O33: the statement writes out the smoother step, the follower step and the two channels of `frame`. -/
theorem frameFollowsStepsAToH : Obligations.FrameFollowsStepsAToH := by
  intro c s l r
  rfl

/-! ## Reactivation (R162, R221) -/

section Reactivation

/-- Two states that agree on everything a sample loop reads or keeps. -/
structure LoopAgree (s t : State) : Prop where
  smIn   : s.smIn = t.smIn
  smOut  : s.smOut = t.smOut
  smDrv  : s.smDrv = t.smDrv
  blk    : s.blk = t.blk
  ef     : s.ef = t.ef
  bq     : s.bq = t.bq
  envSum : s.envSum = t.envSum

theorem frame_loopAgree (c : Cfg) {s t : State} (h : LoopAgree s t) (f : F32 × F32) :
    (frame c s f).2 = (frame c t f).2 ∧ LoopAgree (frame c s f).1 (frame c t f).1 := by
  obtain ⟨hin, hout, hdrv, hblk, hef, hbq, hsum⟩ := h
  simp only [frame, smoothStep, hin, hout, hdrv, hblk, hef, hbq, hsum]
  exact ⟨trivial, rfl, rfl, rfl, rfl, rfl, rfl, rfl⟩

/-- From states that agree a sample loop gives the same words and leaves states that agree. -/
theorem runFrames_loopAgree (c : Cfg) (fs : List (F32 × F32)) {s t : State} (h : LoopAgree s t) :
    (runFrames c fs s).2 = (runFrames c fs t).2 ∧ LoopAgree (runFrames c fs s).1 (runFrames c fs t).1 := by
  induction fs generalizing s t with
  | nil => exact ⟨rfl, h⟩
  | cons f fs ih =>
    obtain ⟨hwords, hagree⟩ := frame_loopAgree c h f
    obtain ⟨hrest, hend⟩ := ih hagree
    exact ⟨by simp only [runFrames, hwords, hrest], hend⟩

/-- The filters of one channel on a machine that was set up: the tone filters the design of the tag, the cabinet filters
that of the rate (R26, R29). -/
structure TunedBank (s : State) (b : Bank) : Prop where
  tone  : b.HasTone (designTone Config.cfg s.sr s.toneTag)
  cabHp : b.cabHp.c = designHPF Config.cfg.num s.sr (.lit 55) Config.cfg.qCab
  cabLp : b.cabLp.c = designLPF Config.cfg.num s.sr (.lit 5200) Config.cfg.qCab

theorem State.Inv.tunedBanks {s : State} (hs : s.Inv) (hv : s.cfgValid = true) :
    TunedBank s s.bq.left ∧ TunedBank s s.bq.right := by
  obtain ⟨hleft, hright⟩ := hs.hasTone hv
  obtain ⟨hhp, hlp⟩ := hs.symmetric.cab hv
  exact ⟨⟨hleft, hs.tuned.cabHp hv, hs.tuned.cabLp hv⟩,
    ⟨hright, hhp ▸ hs.tuned.cabHp hv, hlp ▸ hs.tuned.cabLp hv⟩⟩

/-- What the steps before the sample loop leave of one channel's filters follows from the rate, the parameters,
`LAST_ENV` and the state registers, whatever the tag was: redesigned or not, the filters are the design of the
parameters. -/
theorem startBank_of_tuned {s t : State} {a b : Bank} (hsr : s.sr = t.sr) (hlast : s.lastEnv = t.lastEnv)
    (ha : TunedBank s a) (hb : TunedBank t b) (hrun : a.states = b.states) (p : Vector F64 9) :
    startBank Config.cfg s p a = startBank Config.cfg t p b := by
  have htoneA := startBank_hasTone Config.cfg s ha.tone p
  have htoneB := startBank_hasTone Config.cfg t hb.tone p
  obtain ⟨hhpA, hlpA⟩ := startBank_sameCab Config.cfg s p a
  obtain ⟨hhpB, hlpB⟩ := startBank_sameCab Config.cfg t p b
  refine Bank.ext_coeffs_states (Bank.coeffs_of_parts ?_ ?_ ?_) ?_
  · rw [hsr] at htoneA
    simp_all [Bank.HasTone, Bank.SameTone]
  · rw [startBank, startBank, hsr, hlast]
    exact ⟨rfl, rfl⟩
  · rw [Bank.SameCab, hhpA, hhpB, hlpA, hlpB, ha.cabHp, hb.cabHp, ha.cabLp, hb.cabLp, hsr]
    exact ⟨rfl, rfl⟩
  · rw [startBank_states, startBank_states, hrun]

/-- Two states of the same running values: what the activation reset writes. -/
structure RunningAgree (s t : State) : Prop where
  smIn    : s.smIn.y = t.smIn.y
  smOut   : s.smOut.y = t.smOut.y
  smDrv   : s.smDrv.y = t.smDrv.y
  envL    : s.ef.left.env = t.ef.left.env
  envR    : s.ef.right.env = t.ef.right.env
  left    : s.bq.left.states = t.bq.left.states
  right   : s.bq.right.states = t.bq.right.states
  lastEnv : s.lastEnv = t.lastEnv

theorem applyEvents_param_congr (events : List Event) {s t : State} (h : s.param = t.param) :
    (applyEvents events s).param = (applyEvents events t).param := by
  refine Vector.ext fun i hi => ?_
  have hs := applyEvents_param_get events s ⟨i, hi⟩
  rw [h] at hs
  exact hs.trans (applyEvents_param_get events t ⟨i, hi⟩).symm

/-- Machines that were set up at the same rate, with the same parameters and running values, start the same sample
loop. -/
theorem blockStart_loopAgree {s t : State} (hs : s.Inv) (ht : t.Inv) (hvs : s.cfgValid = true) (hvt : t.cfgValid = true)
    (hsr : s.sr = t.sr) (hparam : s.param = t.param) (h : RunningAgree s t) (events : List Event) :
    LoopAgree (blockStart Config.cfg events s) (blockStart Config.cfg events t) := by
  obtain ⟨hleftS, hrightS⟩ := hs.tunedBanks hvs
  obtain ⟨hleftT, hrightT⟩ := ht.tunedBanks hvt
  have smoother_ext {p q : Smoother} (ha : p.a = q.a) (hy : p.y = q.y) : p = q := by cases p; cases q; simp_all
  have follower_ext {p q : Follower} (ha : p.a = q.a) (he : p.env = q.env) : p = q := by cases p; cases q; simp_all
  have hefL : s.ef.left = t.ef.left := follower_ext (by rw [hs.tuned.ef hvs, ht.tuned.ef hvt, hsr]) h.envL
  have hefR : s.ef.right = t.ef.right :=
    follower_ext (by rw [← hs.symmetric.follower hvs, ← ht.symmetric.follower hvt, hefL]) h.envR
  rw [blockStart_eq, blockStart_eq, applyEvents_param_congr events hparam]
  exact {
    smIn := smoother_ext (by rw [hs.tuned.smIn hvs, ht.tuned.smIn hvt, hsr]) h.smIn
    smOut := smoother_ext (by rw [hs.tuned.smOut hvs, ht.tuned.smOut hvt, hsr]) h.smOut
    smDrv := smoother_ext (by rw [hs.tuned.smDrv hvs, ht.tuned.smDrv hvt, hsr]) h.smDrv
    blk := by rw [h.lastEnv]
    ef := congrArg₂ Stereo.mk hefL hefR
    bq := congrArg₂ Stereo.mk (startBank_of_tuned hsr h.lastEnv hleftS hleftT h.left _)
      (startBank_of_tuned hsr h.lastEnv hrightS hrightT h.right _)
    envSum := rfl }

/-- BLOCKs of good shape on two such machines answer the same and leave the same filters and `LAST_ENV`. -/
theorem exec_block_runningAgree {nin nout : BitVec 4} {n : Word} {events : List Event} {samples : List F32}
    {s t s' t' : State} (hs : s.Inv) (ht : t.Inv) (hms : s.mode = .active) (hmt : t.mode = .active)
    (hvs : s.cfgValid = true) (hvt : t.cfgValid = true) (hsr : s.sr = t.sr) (hparam : s.param = t.param)
    (h : RunningAgree s t) (hin : 2 ≤ nin.toNat) (hout : 2 ≤ nout.toNat) (hn : 0 < n.toInt)
    (hs' : exec (.block nin nout n events samples) s = .next s')
    (ht' : exec (.block nin nout n events samples) t = .next t') :
    (∃ words, s'.resp = s.resp ++ words ∧ t'.resp = t.resp ++ words) ∧ s'.bq = t'.bq ∧ s'.lastEnv = t'.lastEnv := by
  rw [exec_block_runs nin nout n events samples s hms hvs hin hout hn] at hs'
  rw [exec_block_runs nin nout n events samples t hmt hvt hin hout hn] at ht'
  cases hs'
  cases ht'
  obtain ⟨hwords, hend⟩ := runFrames_loopAgree Config.cfg (framesOf nin.toNat (frameCount n) samples)
    (blockStart_loopAgree hs ht hvs hvt hsr hparam h events)
  refine ⟨⟨_, congrArg (· ++ _) (blockBody_keeps ..).resp, ?_⟩, hend.bq, ?_⟩
  · rw [State.respond_resp, (blockBody_keeps ..).resp, blockBody, blockBody, hwords]
  · rw [State.respond_lastEnv, State.respond_lastEnv, blockBody_eq, blockBody_eq, hend.envSum]

theorem exec_activate {s t : State} (hm : s.mode = .inactive) (h : exec (.setact true) s = .next t) :
    t = { activationReset Config.cfg s with mode := .active }.respond [] := by
  cases h
  rw [setActive_on_of_inactive Config.cfg hm]

end Reactivation

/-- Settles O56: both machines stand after an activation reset, so their sample loops start alike and give the same
words, filters and envelope sum. -/
theorem reactivationEqualsColdStart : Obligations.ReactivationEqualsColdStart := by
  intro nin nout n events samples s s1 s2 s3 t t1 t2 hs ht hvs hvt hsr hparam hmt hoff hon hcold hs3 ht2 hn hin hout
  have hinvS : s2.Inv := exec_inv (exec_inv hs hoff) hon
  have hinvT : t1.Inv := exec_inv ht hcold
  cases hoff
  obtain rfl := exec_activate rfl hon
  obtain rfl := exec_activate hmt hcold
  exact exec_block_runningAgree hinvS hinvT rfl rfl hvs hvt hsr hparam ⟨rfl, rfl, rfl, rfl, rfl, rfl, rfl, rfl⟩ hin hout
    hn hs3 ht2

/-! ## Silence (R176) -/

section Silence

/-- A filter that a zero input leaves at rest: its coefficients are finite and its state registers zero. -/
def Biquad.Quiet (q : Biquad) : Prop := q.c.Finite ∧ q.AtRest

theorem Bank.all_and {P Q : Biquad → Prop} {b : Bank} : (b.All fun q => P q ∧ Q q) ↔ b.All P ∧ b.All Q := by
  simp only [Bank.All, and_and_and_comm]

/-- The products of finite coefficients with a zero input and a zero output are zeros. -/
theorem bqStep_quiet {q : Biquad} {x : F64} (hq : q.Quiet) (hx : x.isZero = true) :
    (bqStep q x).1.isZero = true ∧ (bqStep q x).2.Quiet := by
  obtain ⟨⟨hb0, hb1, hb2, ha1, ha2⟩, hz1, hz2⟩ := hq
  have hy : (bqStep q x).1.isZero = true := F64.isZero_add (F64.isZero_mul_right hb0 hx) hz1
  have hnew1 : (bqStep q x).2.z1.isZero = true := F64.isZero_add
    (F64.isZero_sub_of_isZero (F64.isZero_mul_right hb1 hx) (F64.isZero_mul_right ha1 hy)) hz2
  have hnew2 : (bqStep q x).2.z2.isZero = true :=
    F64.isZero_sub_of_isZero (F64.isZero_mul_right hb2 hx) (F64.isZero_mul_right ha2 hy)
  exact ⟨hy, ⟨hb0, hb1, hb2, ha1, ha2⟩, hnew1, hnew2⟩

theorem fbPre_quiet {b : Bank} {x : F64} (hb : b.All Biquad.Quiet) (hx : x.isZero = true) :
    (fbPre b x).1.isZero = true ∧ (fbPre b x).2.All Biquad.Quiet := by
  obtain ⟨h0, h1, h2, h3, h4, h5, hrest⟩ := hb
  obtain ⟨hy0, hq0⟩ := bqStep_quiet h0 hx
  obtain ⟨hy1, hq1⟩ := bqStep_quiet h1 hy0
  obtain ⟨hy2, hq2⟩ := bqStep_quiet h2 hy1
  obtain ⟨hy3, hq3⟩ := bqStep_quiet h3 hy2
  obtain ⟨hy4, hq4⟩ := bqStep_quiet h4 hy3
  obtain ⟨hy5, hq5⟩ := bqStep_quiet h5 hy4
  exact ⟨hy5, hq0, hq1, hq2, hq3, hq4, hq5, hrest⟩

theorem fbPost_quiet {b : Bank} {x : F64} (hb : b.All Biquad.Quiet) (hx : x.isZero = true) :
    (fbPost b x).1.isZero = true ∧ (fbPost b x).2.All Biquad.Quiet := by
  obtain ⟨h0, h1, h2, h3, h4, h5, h6, h7, h8, h9⟩ := hb
  obtain ⟨hy6, hq6⟩ := bqStep_quiet h6 hx
  obtain ⟨hy7, hq7⟩ := bqStep_quiet h7 hy6
  obtain ⟨hy8, hq8⟩ := bqStep_quiet h8 hy7
  obtain ⟨hy9, hq9⟩ := bqStep_quiet h9 hy8
  exact ⟨hy9, h0, h1, h2, h3, h4, h5, hq6, hq7, hq8, hq9⟩

/-- The saturator without a bias takes zeros to zeros (R132). -/
theorem isZero_sat {c : Cfg} (hc : c.Admissible) (hbias : c.biasOffset = .zero) {x drive : F64} (hx : x.isZero = true)
    (hdrive : drive.isFinite = true) : (sat c x drive).isZero = true := by
  have hv := isZero_satArgument hc hx hdrive
  rw [sat_eq, hbias, hc.num_ok.tanh_zero _ hv, hc.num_ok.tanh_zero .zero (by decide)]
  exact F64.isZero_sub_of_isZero hv (by decide)

theorem isZero_efStep {a env x : F64} (ha : a.isFinite = true) (henv : env.isZero = true) (hx : x.isZero = true) :
    (efStep a env x).isZero = true :=
  F64.isZero_add (F64.isZero_mul_right ha henv)
    (F64.isZero_mul_right (F64.isFinite_one_sub ha) (by rwa [F64.isZero_abs]))

/-- A follower at zero whose coefficient is finite. -/
def Follower.Quiet (ef : Follower) : Prop := ef.a.isFinite = true ∧ ef.env.isZero = true

/-- One channel of a frame on a zero sample, step by step (R171 b to h). -/
theorem channelFrame_quiet {c : Cfg} (hc : c.Admissible) (hbias : c.biasOffset = .zero) {gi go dv : F64}
    (hgi : gi.isFinite = true) (hgo : go.isFinite = true) (hdv : dv.isFinite = true) {ef : Follower} (hef : ef.Quiet)
    {b : Bank} (hb : b.All Biquad.Quiet) {x : F32} (hx : x.isZero = true) :
    let r := channelFrame c gi go dv ef b x
    r.out.isZero = true ∧ r.ef.Quiet ∧ r.bank.All Biquad.Quiet := by
  obtain ⟨ha, henv⟩ := hef
  obtain ⟨hpre, hbank⟩ := fbPre_quiet hb (F64.isZero_mul_right hgi (F32.isZero_widen hx))
  obtain ⟨hpost, hbank'⟩ := fbPost_quiet hbank (isZero_sat hc hbias hpre hdv)
  exact ⟨F64.isZero_narrow (F64.isZero_mul_right hgo hpost), ⟨ha, isZero_efStep ha henv hpre⟩, hbank'⟩

/-- A silent machine whose coefficients are finite. -/
structure State.Quiet (s : State) : Prop where
  left  : s.bq.left.All Biquad.Quiet
  right : s.bq.right.All Biquad.Quiet
  efL   : s.ef.left.Quiet
  efR   : s.ef.right.Quiet
  sum   : s.envSum.isZero = true

theorem State.quiet_iff (s : State) : s.Quiet ↔ s.Silent ∧ s.FiniteCoeffs := by
  constructor
  · rintro ⟨hleft, hright, ⟨haL, heL⟩, ⟨haR, heR⟩, hsum⟩
    obtain ⟨hcL, hzL⟩ := Bank.all_and.mp hleft
    obtain ⟨hcR, hzR⟩ := Bank.all_and.mp hright
    exact ⟨⟨hzL, hzR, heL, heR, hsum⟩, ⟨hcL, hcR, haL, haR⟩⟩
  · rintro ⟨⟨hzL, hzR, heL, heR, hsum⟩, ⟨hcL, hcR, haL, haR⟩⟩
    exact ⟨Bank.all_and.mpr ⟨hcL, hzL⟩, Bank.all_and.mpr ⟨hcR, hzR⟩, ⟨haL, heL⟩, ⟨haR, heR⟩, hsum⟩

theorem frame_quiet {c : Cfg} (hc : c.Admissible) (hbias : c.biasOffset = .zero) {s : State} (hs : s.Quiet)
    (hgains : (smoothStep s).FiniteGains) {f : F32 × F32} (hf : f.1.isZero = true ∧ f.2.isZero = true) :
    ((frame c s f).2.1.isZero = true ∧ (frame c s f).2.2.isZero = true) ∧ (frame c s f).1.Quiet := by
  obtain ⟨hleft, hright, hefL, hefR, hsum⟩ := hs
  obtain ⟨hgi, hgo, hdv⟩ := hgains
  obtain ⟨houtL, hefL', hleft'⟩ := channelFrame_quiet hc hbias hgi hgo hdv hefL hleft hf.1
  obtain ⟨houtR, hefR', hright'⟩ := channelFrame_quiet hc hbias hgi hgo hdv hefR hright hf.2
  refine ⟨⟨houtL, houtR⟩, hleft', hright', hefL', hefR', F64.isZero_add hsum ?_⟩
  have hmean := F64.isZero_add hefL'.2 hefR'.2
  exact F64.isZero_mul (F64.isFinite_of_isZero hmean) (by decide) (.inl hmean)

/-! The smoothers of a sample loop run on their own. -/

/-- The same machine with other followers, filters and envelope sum. -/
def State.withChannels (ef : Stereo Follower) (bq : Stereo Bank) (sum : F64) (s : State) : State :=
  { s with ef := ef, bq := bq, envSum := sum }

theorem frame_withChannels (c : Cfg) (s : State) (f : F32 × F32) :
    (frame c s f).1 =
      (smoothStep s).withChannels (frame c s f).1.ef (frame c s f).1.bq (frame c s f).1.envSum := rfl

theorem smoothStep_commute (ef : Stereo Follower) (bq : Stereo Bank) (sum : F64) :
    Function.Commute smoothStep (State.withChannels ef bq sum) := fun _ => rfl

/-- The gains of the frames after this one. -/
theorem finiteGains_after_frame (c : Cfg) (s : State) (f : F32 × F32) (k : Nat) :
    (smoothStep^[k] (frame c s f).1).FiniteGains ↔ (smoothStep^[k + 1] s).FiniteGains := by
  rw [frame_withChannels, (smoothStep_commute _ _ _).iterate_left k, Function.iterate_succ_apply]
  rfl

/-- From a quiet state, zero input gives zero output and a quiet state, by induction over the frames. -/
theorem runFrames_quiet {c : Cfg} (hc : c.Admissible) (hbias : c.biasOffset = .zero) {fs : List (F32 × F32)} {s : State}
    (hfs : ∀ f ∈ fs, f.1.isZero = true ∧ f.2.isZero = true) (hs : s.Quiet)
    (hgains : ∀ k, k < fs.length → (smoothStep^[k + 1] s).FiniteGains) :
    (∀ w ∈ (runFrames c fs s).2, F32.isZero ⟨w⟩ = true) ∧ (runFrames c fs s).1.Quiet := by
  induction fs generalizing s with
  | nil => exact ⟨nofun, hs⟩
  | cons f fs ih =>
    obtain ⟨hf, hrest⟩ := List.forall_mem_cons.mp hfs
    obtain ⟨⟨houtL, houtR⟩, hnext⟩ := frame_quiet hc hbias hs (hgains 0 (Nat.succ_pos _)) hf
    obtain ⟨hwords, hend⟩ := ih hrest hnext fun k hk =>
      (finiteGains_after_frame c s f (k + 1)).mpr (hgains (k + 1) (Nat.succ_lt_succ hk))
    exact ⟨List.forall_mem_cons.mpr ⟨houtL, List.forall_mem_cons.mpr ⟨houtR, hwords⟩⟩, hend⟩

end Silence

/-- Settles O54: silence with finite coefficients is an invariant of the sample loop. -/
theorem silenceInSilenceOut : Obligations.SilenceInSilenceOut := by
  intro c frames s hc hbias hframes hsilent hfinite hgains
  obtain ⟨hwords, hend⟩ := runFrames_quiet hc hbias hframes (s.quiet_iff.mpr ⟨hsilent, hfinite⟩) hgains
  exact ⟨hwords, ((State.quiet_iff _).mp hend).1⟩

end Sys2Proof.Machine

namespace Sys2Proof.Machine

/-! # Exceptions and responses (60_exceptions.md)

A step waits, rejects a header or runs a command, and each of the three goes on (R200, R204); a command that runs answers
`OK` and a number of result words that its form fixes (R201). -/

/-! ## Every step goes on -/

/-- Settles O8: the branch of `step` for words that make no whole command yet. -/
theorem incompleteCommandChangesNothing : Obligations.IncompleteCommandChangesNothing := by
  intro s hdecode
  rw [step, hdecode]

/-- "No command can fail after it has been decoded" (R200). -/
theorem exec_completes (i : Instr) (s : State) : Completes (exec i s) := by
  cases hi : i.isUnit with
  | true =>
    obtain ⟨t, ht, -⟩ := exec_unit_keeps_chain i s hi
    exact ⟨t, ht⟩
  | false =>
    cases i with
    | setup | setact | pset | pget | block | rd => exact ⟨_, rfl⟩
    | _ => cases hi

/-- Settles O9, by what the decoder makes of the words that have arrived. -/
theorem everyStepGoesOn : Obligations.EveryStepGoesOn := by
  intro s
  cases hdecode : decode s.cmd with
  | command i rest =>
    rw [stepRunsDecodedCommand s i rest hdecode]
    exact exec_completes i _
  | illegal why rest => exact ⟨_, illegalHeaderOnlyAnswersIllegal s why rest hdecode⟩
  | incomplete => exact ⟨_, incompleteCommandChangesNothing s hdecode⟩

/-! ## The length of a response -/

/-- The check of BLOCK in the terms of R73. -/
theorem block_wellFormed_iff (nin nout : BitVec 4) (n : Word) (events : List Event) (samples : List F32) :
    (Instr.block nin nout n events samples).WellFormed ↔
      events.length < 2 ^ 16 ∧ samples.length = nin.toNat * frameCount n := by
  rw [Instr.WellFormed, Instr.wellFormed, blockWellFormed, Bool.and_eq_true, decide_eq_true_iff, decide_eq_true_iff]

/-- A BLOCK answers two words a frame exactly when its body runs, over whatever coefficients (R73). -/
theorem block_results_length (c : Cfg) {nin : BitVec 4} (nout : BitVec 4) {n : Word} (events : List Event)
    {samples : List F32} (s : State) (hsamples : samples.length = nin.toNat * frameCount n) :
    (block c nin nout n events samples s).2.length = resultWords (.block nin nout n events samples) s := by
  have hbody (hshape : blockShape nin nout n = true) (u : State) :
      (blockBody c nin n events samples u).2.length = 2 * frameCount n := by
    obtain ⟨hin, -⟩ := (blockShape_iff nin nout n).mp hshape
    rw [blockBody, runFrames_length, framesOf_length _ _ samples hin hsamples]
  rw [resultWords]
  rcases block_cases c nin nout n events samples s with ⟨hidle, h⟩ | ⟨hm, hshape, -, h⟩ | ⟨hm, hshape, -, h⟩ <;> rw [h]
  · rw [if_neg, List.length_nil]
    rintro ⟨hm, hshape⟩
    simp [hm, hshape] at hidle
  · rw [if_pos ⟨hm, hshape⟩, hbody hshape]
  · rw [if_pos ⟨hm, hshape⟩]
    exact hbody hshape s.drawUnset

/-- A response from a state whose response port is still that of `s`: status `OK`, then the result words. -/
theorem State.respond_answers {s u : State} {words : List Word} {k : Nat} (hresp : u.resp = s.resp)
    (hlength : words.length = k) :
    ∃ results, (u.respond words).resp = s.resp ++ 0x00000000#32 :: results ∧ results.length = k :=
  ⟨words, congrArg (· ++ _) hresp, hlength⟩

/-- Settles O11, command by command: none touches the response port before it responds, and only a BLOCK's result words
depend on its payload. -/
theorem responseIsStatusAndResults : Obligations.ResponseIsStatusAndResults := by
  intro i s t hwf h
  cases i with
  | setact active => cases h; exact State.respond_answers (setActive_keeps_ports _ active s).resp rfl
  | pset pid v => cases h; exact State.respond_answers (s.setParam_resp _ v) rfl
  | block nin nout n events samples =>
    cases h
    obtain ⟨-, hsamples⟩ := (block_wellFormed_iff nin nout n events samples).mp hwf
    exact State.respond_answers (block_keeps _ nin nout n events samples s).resp
      (block_results_length _ nout events s hsamples)
  | rd | smStep | efStep | arStep | bqStep => cases h; exact State.respond_answers (s.drew_resp _ _) rfl
  | setup | pget | smCfg | smRst | efCfg | efRst | arCfg | arRst | bqLsh | bqHsh | bqPk | bqHpf | bqLpf | bqRst | sat =>
    cases h; exact State.respond_answers rfl rfl

end Sys2Proof.Machine

namespace Sys2Proof.Machine

/-! # Reset and hazards (70_reset_and_hazards.md)

At power-on no register but the flags and the parameters has a value, and the register map says so at every address
(R220). A NaN that has entered a follower stays there for every later frame: each new value has the old one as a factor
(R227). -/

/-! ## Power-on (R220) -/

section PowerOn

/-- Every slot number of R29 names a filter. -/
theorem Bank.exists_slot (b : Bank) {k : Nat} (hk : k < 10) : ∃ q, b.slot k = some q := by
  interval_cases k <;> exact ⟨_, rfl⟩

/-- A biquad of which nothing has been written reads as unspecified in each of its seven fields. -/
theorem readBiquad_unwritten (q : Biquad) {r : Nat} (hr : r < 7) : readBiquad q false false r = .anyF64 := by
  interval_cases r <;> rfl

theorem State.reset_slotWritten (k : Nat) : State.reset.slotWritten k = false := by
  unfold State.slotWritten
  split_ifs <;> rfl

/-- Both channels' windows of the register map at power-on, whatever the filters hold. -/
theorem readReg_reset_slot {ch k r : Nat} (hch : ch < 2) (hk : k < 10) (hr : r < 7) :
    readReg State.reset (0x0100 + 0x80 * ch + 8 * k + r) = .anyF64 := by
  have hopen (q : Biquad) : readBiquad q (State.reset.slotWritten k) State.reset.written.running r = .anyF64 := by
    rw [State.reset_slotWritten]
    exact readBiquad_unwritten q hr
  interval_cases ch
  · obtain ⟨q, hq⟩ := State.reset.bq.left.exists_slot hk
    exact (readReg_left_slot _ hk (by omega) hq).trans (hopen q)
  · obtain ⟨q, hq⟩ := State.reset.bq.right.exists_slot hk
    exact (readReg_right_slot _ hk (by omega) hq).trans (hopen q)

end PowerOn

/-- Settles O12: the stated values and the single addresses by evaluation, the filters by channel, slot and field. -/
theorem powerOnState : Obligations.PowerOnState := by
  refine ⟨rfl, rfl, rfl, rfl, rfl, rfl, ?addresses, ?filters, readReg_tag_unwritten _ rfl⟩
  case addresses => exact List.map_inj_left.mp rfl
  case filters => exact fun ch hch k hk r hr => readReg_reset_slot hch hk hr

/-! ## NaNs persist (R227) -/

section NaNs

/-- What every frame preserves, a sample loop preserves. -/
theorem runFrames_preserves {P : State → Prop} (c : Cfg) (one : ∀ s f, P s → P (frame c s f).1)
    (fs : List (F32 × F32)) (s : State) : P s → P (runFrames c fs s).1 :=
  runFrames_induct (R := fun s t => P s → P t) c (fun _ => id) (fun hst htu => htu ∘ hst) one fs s

/-- `a * NaN + ... = NaN`, whatever the coefficient and the input, a zero coefficient included. -/
theorem isNaN_efStep {env : F64} (henv : env.isNaN = true) (a x : F64) : (efStep a env x).isNaN = true :=
  F64.add_isNaN_left (F64.mul_isNaN_right henv)

/-- Of the steps of a channel only step d writes the follower, and it keeps a NaN. -/
theorem frameChannel_isNaN (c : Cfg) (s : State) {ef : Follower} (hef : ef.env.isNaN = true) (b : Bank) (x : F32) :
    (frameChannel c s ef b x).ef.env.isNaN = true :=
  isNaN_efStep hef _ _

theorem frame_left_isNaN (c : Cfg) (s : State) (f : F32 × F32) (h : s.ef.left.env.isNaN = true) :
    (frame c s f).1.ef.left.env.isNaN = true := by
  obtain ⟨-, hef, -⟩ := frame_channels c s f
  rw [hef]
  exact frameChannel_isNaN c s h _ _

theorem frame_right_isNaN (c : Cfg) (s : State) (f : F32 × F32) (h : s.ef.right.env.isNaN = true) :
    (frame c s f).1.ef.right.env.isNaN = true := by
  obtain ⟨-, hef, -⟩ := frame_channels c s f
  rw [hef]
  exact frameChannel_isNaN c s h _ _

end NaNs

/-- Settles O59, from one frame of either channel. -/
theorem nanPersistsInFollower : Obligations.NanPersistsInFollower := fun c frames s =>
  ⟨runFrames_preserves (P := fun s => s.ef.left.env.isNaN = true) c (frame_left_isNaN c) frames s,
    runFrames_preserves (P := fun s => s.ef.right.env.isNaN = true) c (frame_right_isNaN c) frames s⟩

end Sys2Proof.Machine

namespace Sys2Proof.Machine

/-! # A BLOCK before any SETUP (93_implementation_defined.md U1; log entry 7)

The body runs from `State.drawUnset`. After it `State.keepSetup` puts back what only SETUP writes, and `State.keepTone`
the tag and the tone filters where the tone mark says that nothing has designed them. -/

/-! ## The draws it starts from -/

section DrawnStart
variable {s : State}

/-- Where an earlier such BLOCK designed the tone filters, only what SETUP writes is drawn. -/
theorem drawUnset_of_tone (hw : s.written.tone = true) :
    s.drawUnset = { s.drawSetup s.draws with draws := s.draws + 92 } := by
  simp only [State.drawUnset, hw, if_true]

/-- Where nothing has designed them, the tag and the tone filters are drawn too. -/
theorem drawUnset_of_no_tone (hw : s.written.tone = false) :
    s.drawUnset = { (s.drawSetup s.draws).drawTone (s.draws + 26) with draws := s.draws + 92 } := by
  simp only [State.drawUnset, hw, Bool.false_eq_true, if_false]

@[simp] theorem drawUnset_draws : s.drawUnset.draws = s.draws + 92 := rfl

theorem drawUnset_written : s.drawUnset.written = s.written := by rw [drawUnset_keeps]

/-- The tag and the tone filters are not drawn where they have been written. -/
theorem drawUnset_tone_kept (hw : s.written.tone = true) :
    s.drawUnset.toneTag = s.toneTag ∧ s.drawUnset.bq.left.SameTone s.bq.left ∧
      s.drawUnset.bq.right.SameTone s.bq.right := by
  rw [drawUnset_of_tone hw]
  exact ⟨rfl, ⟨rfl, rfl, rfl, rfl, rfl, rfl⟩, ⟨rfl, rfl, rfl, rfl, rfl, rfl⟩⟩

end DrawnStart

/-! ## What is put back of a bank -/

theorem Bank.keepCab_sameTone (b old : Bank) : (b.keepCab old).SameTone b := ⟨rfl, rfl, rfl, rfl, rfl, rfl⟩

theorem Bank.keepTone_sameTone (b old : Bank) : (b.keepTone old).SameTone old := ⟨rfl, rfl, rfl, rfl, rfl, rfl⟩

theorem Bank.SameTone.trans {a b d : Bank} (hab : a.SameTone b) (hbd : b.SameTone d) : a.SameTone d := by
  simp_all [Bank.SameTone]

/-! ## What it leaves -/

section UnsetBody
variable (c : Cfg) (nin nout : BitVec 4) (n : Word) (events : List Event) (samples : List F32) (s : State)

theorem blockBody_toneTag :
    (blockBody c nin n events samples s).1.toneTag = startTag c s (applyEvents events s).param := by rw [blockBody_eq]

theorem blockBody_written :
    (blockBody c nin n events samples s).1.written = startWritten c s (applyEvents events s).param := by
  rw [blockBody_eq]

/-- After the body only rate, tag, smoothers, followers and filters are put back. -/
theorem blockBodyUnset_eq :
    let body := (blockBody c nin n events samples s.drawUnset).1
    let t := (blockBodyUnset c nin n events samples s).1
    t = { body with
      sr := t.sr, toneTag := t.toneTag, smIn := t.smIn, smOut := t.smOut, smDrv := t.smDrv, ef := t.ef, bq := t.bq } := by
  simp only [blockBodyUnset]
  split <;> rfl

/-- Of smoothers, followers and filters only coefficients are put back. -/
theorem blockBodyUnset_runningAgree :
    RunningAgree (blockBodyUnset c nin n events samples s).1 (blockBody c nin n events samples s.drawUnset).1 := by
  simp only [blockBodyUnset]
  split <;> exact ⟨rfl, rfl, rfl, rfl, rfl, rfl, rfl, rfl⟩

theorem blockBodyUnset_param :
    (blockBodyUnset c nin n events samples s).1.param = (applyEvents events s.drawUnset).param := by
  rw [blockBodyUnset_eq, blockBody_eq]

theorem blockBodyUnset_draws : (blockBodyUnset c nin n events samples s).1.draws = s.draws + 92 := by
  rw [blockBodyUnset_eq, blockBody_eq, drawUnset_draws]

variable {c nin nout n events samples s}

/-- With the tone mark set, the tag and the tone filters stay as the body leaves them. -/
theorem blockBodyUnset_of_tone (hw : (blockBody c nin n events samples s.drawUnset).1.written.tone = true) :
    (blockBodyUnset c nin n events samples s).1 = (blockBody c nin n events samples s.drawUnset).1.keepSetup s :=
  if_pos hw

/-- Without it they are put back. -/
theorem blockBodyUnset_of_no_tone (hw : (blockBody c nin n events samples s.drawUnset).1.written.tone = false) :
    (blockBodyUnset c nin n events samples s).1 =
      ((blockBody c nin n events samples s.drawUnset).1.keepSetup s).keepTone s :=
  if_neg (Bool.eq_false_iff.mp hw)

/-- Where step 2 does not redesign, the tag and the tone filters stand as before: they were not drawn, or are put
back. -/
theorem blockBodyUnset_tone_kept
    (hsame : (tagOf c (applyEvents events s.drawUnset).param).same s.drawUnset.toneTag = true) :
    let t := (blockBodyUnset c nin n events samples s).1
    t.toneTag = s.toneTag ∧ t.bq.left.SameTone s.bq.left ∧ t.bq.right.SameTone s.bq.right := by
  have hmark : (blockBody c nin n events samples s.drawUnset).1.written.tone = s.written.tone := by
    rw [blockBody_written, ← congrArg Written.tone drawUnset_written]
    exact if_pos hsame
  cases hw : s.written.tone with
  | true =>
    obtain ⟨htag, hdrawnL, hdrawnR⟩ := drawUnset_tone_kept hw
    obtain ⟨hleft, hright⟩ := blockBody_coeffs c nin n events samples s.drawUnset
    have hbodyTag : (blockBody c nin n events samples s.drawUnset).1.toneTag = s.drawUnset.toneTag :=
      (blockBody_toneTag ..).trans (if_pos hsame)
    rw [blockBodyUnset_of_tone (hmark.trans hw)]
    exact ⟨hbodyTag.trans htag,
      (Bank.keepCab_sameTone _ _).trans (((startBank_sameTone hsame _).congr hleft rfl).trans hdrawnL),
      (Bank.keepCab_sameTone _ _).trans (((startBank_sameTone hsame _).congr hright rfl).trans hdrawnR)⟩
  | false =>
    rw [blockBodyUnset_of_no_tone (hmark.trans hw)]
    exact ⟨rfl, Bank.keepTone_sameTone _ _, Bank.keepTone_sameTone _ _⟩

/-- Where step 2 redesigns, the tag and the tone filters are the new design. -/
theorem blockBodyUnset_tone_redesigned
    (hdiffers : (tagOf c (applyEvents events s.drawUnset).param).same s.drawUnset.toneTag = false) :
    let t := (blockBodyUnset c nin n events samples s).1
    let cur := tagOf c (applyEvents events s.drawUnset).param
    t.toneTag = cur ∧ t.bq.left.HasTone (designTone c s.drawUnset.sr cur) ∧
      t.bq.right.HasTone (designTone c s.drawUnset.sr cur) := by
  have hmark : (blockBody c nin n events samples s.drawUnset).1.written.tone = true := by
    rw [blockBody_written]
    exact if_neg (Bool.eq_false_iff.mp hdiffers)
  have hbodyTag : (blockBody c nin n events samples s.drawUnset).1.toneTag =
      tagOf c (applyEvents events s.drawUnset).param :=
    (blockBody_toneTag ..).trans (if_neg (Bool.eq_false_iff.mp hdiffers))
  obtain ⟨hleft, hright⟩ := blockBody_coeffs c nin n events samples s.drawUnset
  rw [blockBodyUnset_of_tone hmark]
  exact ⟨hbodyTag,
    (Bank.keepCab_sameTone _ _).hasTone_iff.mpr ((startBank_redesigned hdiffers _).congr hleft),
    (Bank.keepCab_sameTone _ _).hasTone_iff.mpr ((startBank_redesigned hdiffers _).congr hright)⟩

/-- A BLOCK of good shape while Active runs its body over draws on a machine that was not set up. -/
theorem exec_block_runs_unset (hm : s.mode = .active) (hv : s.cfgValid = false) (hin : 2 ≤ nin.toNat)
    (hout : 2 ≤ nout.toNat) (hn : 0 < n.toInt) :
    exec (.block nin nout n events samples) s =
      .next ((blockBodyUnset Config.cfg nin n events samples s).1.respond
        (blockBodyUnset Config.cfg nin n events samples s).2) := by
  have hblock : block Config.cfg nin nout n events samples s = blockBodyUnset Config.cfg nin n events samples s := by
    simp only [block, hm, hv, (blockShape_iff nin nout n).mpr ⟨hin, hout, hn⟩, if_true, Bool.false_eq_true, if_false]
  simp only [exec, execBlock, hblock]

end UnsetBody

/-- Settles O27: the draws by whether the tone mark is set, the effect by what is put back after the body. -/
theorem blockBeforeSetupRunsOverDraws : Obligations.BlockBeforeSetupRunsOverDraws := by
  intro nin nout n events samples s hm hv hin hout hn hwf drawn run d
  obtain ⟨-, hsamples⟩ := (block_wellFormed_iff nin nout n events samples).mp hwf
  refine ⟨?draws, _, exec_block_runs_unset hm hv hin hout hn, ?effect⟩
  case draws =>
    cases hw : s.written.tone with
    | true =>
      have hdrawn : drawn = _ := drawUnset_of_tone hw
      have htone := drawUnset_tone_kept hw
      rw [drawUnset_of_tone hw] at htone
      rw [hdrawn]
      exact ⟨rfl, rfl, rfl, rfl, rfl, rfl, rfl, rfl, rfl, rfl, fun _ => htone, nofun⟩
    | false =>
      have hdrawn : drawn = _ := drawUnset_of_no_tone hw
      rw [hdrawn]
      exact ⟨rfl, rfl, rfl, rfl, rfl, rfl, rfl, rfl, rfl, rfl, nofun, fun _ => ⟨rfl, rfl, rfl, rfl, rfl, rfl,
        ⟨rfl, rfl, rfl, rfl, rfl, rfl⟩, ⟨rfl, rfl, rfl, rfl, rfl, rfl⟩⟩⟩
  case effect =>
    have hrunning := blockBodyUnset_runningAgree Config.cfg nin n events samples s
    have hkeeps := blockBodyUnset_keeps Config.cfg nin n events samples s
    obtain ⟨hcabL, hcabR, haIn, haOut, haDrv, haL, haR⟩ :=
      blockBodyUnset_cabAndDecayKept Config.cfg nin n events samples s
    have hsum : (blockBodyUnset Config.cfg nin n events samples s).1.envSum = run.1.envSum := by
      rw [blockBodyUnset_eq]; rfl
    have hlength : run.2.length = 2 * n.toInt.toNat := by
      rw [runFrames_length, framesOf_length _ _ samples hin hsamples]; rfl
    refine ⟨blockBodyUnset_draws .., congrArg (· ++ _) hkeeps.resp, hlength, hrunning.smIn, hrunning.smOut,
      hrunning.smDrv, hrunning.envL, hrunning.envR, hsum, Bank.sameRunning_of_states hrunning.left,
      Bank.sameRunning_of_states hrunning.right, hkeeps.mode.trans hm, hkeeps.cfgValid.trans hv, hkeeps.sr, hkeeps.prim,
      haIn, haOut, haDrv, haL, haR, hcabL, hcabR, ?_⟩
    rw [State.respond_param, blockBodyUnset_param]
    exact ⟨blockBodyUnset_tone_kept, blockBodyUnset_tone_redesigned⟩

end Sys2Proof.Machine
